-- ==== Sys2Proof/Word.lean ====
section
/-! DEFINITION. The value types of the PWE: bytes, 7-bit words, positions, command words and pixels. -/

namespace Sys2Proof

/-- An 8-bit channel, source byte or destination byte (00_scope.md R5). -/
abbrev Byte := BitVec 8

/-- The 7-bit word embedded per pixel (00_scope.md R5, R13). -/
abbrev PixWord := BitVec 7

/-- A bit position: POS_W = 67 bits (00_scope.md R4, 92 D13). -/
abbrev BitPos := BitVec 67

/-- The 32-bit command word CMD (30_encoding.md R90). -/
abbrev CmdWord := BitVec 32

/-- The 64-bit argument ARG (30_encoding.md R90). -/
abbrev ArgWord := BitVec 64

/-- A pixel: "three independent 8-bit channel values", no alpha (20_memory.md R51). -/
structure Pixel where
  r : Byte
  g : Byte
  b : Byte
deriving DecidableEq, Repr

/-- `mask(k) = 2^k - 1` (00_scope.md R7). -/
def mask (k : Nat) : Nat := 2 ^ k - 1

end Sys2Proof
end

