-- ==== Sys2Proof/Syntax.lean ====
section
/-! DEFINITION. The command set PWE-CMD v1: the fifteen mnemonics, the instructions with their operands,
and the assembler's lines. -/

namespace Sys2Proof

/-- The mnemonics of the opcode map (30_encoding.md R92). -/
inductive Op where
  | brOpen | brSize | brReadBit | brReadBits | brClose
  | bwOpen | bwWriteBit | bwWriteBits | bwFinish
  | wsBind | wsReadWord | wsWriteWord | wsWriteStream | wsReadStream | wsIntoInner
deriving DecidableEq, Repr

/-- A command with its operands, each a field of CMD or ARG (30_encoding.md R93 to R96).
The operand types carry the ranges of R99: every term is encodable. -/
inductive Instr where
  | brOpen
  | brSize
  | brReadBit
  | brReadBits (len : BitVec 4)
  | brClose
  | bwOpen
  | bwWriteBit (bit : Bool)
  | bwWriteBits (byte : Byte) (len : BitVec 4)
  | bwFinish
  | wsBind
  | wsReadWord (addr : ArgWord)
  | wsWriteWord (addr : ArgWord) (word : PixWord)
  | wsWriteStream
  | wsReadStream
  | wsIntoInner
deriving DecidableEq, Repr

/-- The mnemonic of an instruction. -/
def Instr.op : Instr → Op
  | .brOpen => .brOpen
  | .brSize => .brSize
  | .brReadBit => .brReadBit
  | .brReadBits _ => .brReadBits
  | .brClose => .brClose
  | .bwOpen => .bwOpen
  | .bwWriteBit _ => .bwWriteBit
  | .bwWriteBits _ _ => .bwWriteBits
  | .bwFinish => .bwFinish
  | .wsBind => .wsBind
  | .wsReadWord _ => .wsReadWord
  | .wsWriteWord _ _ => .wsWriteWord
  | .wsWriteStream => .wsWriteStream
  | .wsReadStream => .wsReadStream
  | .wsIntoInner => .wsIntoInner

/-- A line of assembly, its operands natural numbers as written (30_encoding.md R99), with the two
pseudo-instructions (R100). -/
inductive Asm where
  | brOpen
  | brSize
  | brReadBit
  | brReadBits (len : Nat)
  | brClose
  | bwOpen
  | bwWriteBit (bit : Nat)
  | bwWriteBits (byte len : Nat)
  | bwFinish
  | wsBind
  | wsReadWord (addr : Nat)
  | wsWriteWord (addr word : Nat)
  | wsWriteStream
  | wsReadStream
  | wsIntoInner
  | brReadByte
  | bwWriteByte (byte : Nat)
deriving DecidableEq, Repr

end Sys2Proof
end

