-- ==== Sys2Proof/WellFormed.lean ====
section
/-! DEFINITION. When a line of assembly is well formed: the operand ranges of 30_encoding.md R99.
An `Instr` needs no check, because its operand types are the fields of CMD and ARG. -/

namespace Sys2Proof

/-- "0 ≤ len ≤ 15" (R99). -/
def Asm.lenOk (len : Nat) : Bool := len ≤ 15

/-- "bit ∈ {0, 1}" (R99). -/
def Asm.bitOk (bit : Nat) : Bool := bit ≤ 1

/-- "0 ≤ byte ≤ 255" (R99). -/
def Asm.byteOk (byte : Nat) : Bool := byte ≤ 255

/-- "0 ≤ addr < 2^64" (R99). -/
def Asm.addrOk (addr : Nat) : Bool := addr < 2 ^ 64

/-- "0 ≤ word ≤ 127" (R99). -/
def Asm.wordOk (word : Nat) : Bool := word ≤ 127

/-- "An operand outside its range does not assemble" (R99): the check of a line. -/
def Asm.wellFormed : Asm → Bool
  | .brOpen => true
  | .brSize => true
  | .brReadBit => true
  | .brReadBits len => Asm.lenOk len
  | .brClose => true
  | .bwOpen => true
  | .bwWriteBit bit => Asm.bitOk bit
  | .bwWriteBits byte len => Asm.byteOk byte && Asm.lenOk len
  | .bwFinish => true
  | .wsBind => true
  | .wsReadWord addr => Asm.addrOk addr
  | .wsWriteWord addr word => Asm.addrOk addr && Asm.wordOk word
  | .wsWriteStream => true
  | .wsReadStream => true
  | .wsIntoInner => true
  | .brReadByte => true
  | .bwWriteByte byte => Asm.byteOk byte

end Sys2Proof
end

