-- ==== Sys2Proof/Decode.lean ====
section
/-! DEFINITION. The decoder of 30_encoding.md, total on every (CMD, ARG), the encoder, and the assembler's
last step. -/

namespace Sys2Proof

/-! ## Fields of CMD (R91) -/

/-- OPC = CMD[7:0]. -/
def opcOf (cmd : CmdWord) : BitVec 8 := cmd.extractLsb' 0 8

/-- LEN = CMD[11:8] (R94). -/
def lenOf (cmd : CmdWord) : BitVec 4 := cmd.extractLsb' 8 4

/-- DATA = CMD[23:16]. -/
def dataOf (cmd : CmdWord) : Byte := cmd.extractLsb' 16 8

/-- The bit operand of BW_WRITE_BIT: CMD[16] (R95). -/
def bitOf (cmd : CmdWord) : Bool := cmd.getLsbD 16

/-- The word operand of WS_WRITE_WORD: CMD[22:16] (R95). -/
def wordOf (cmd : CmdWord) : PixWord := cmd.extractLsb' 16 7

/-- A CMD laid out by its fields, the reserved fields zero (R91). -/
def cmdWord (data : Byte) (len : BitVec 4) (opc : BitVec 8) : CmdWord :=
  0#8 ++ data ++ 0#4 ++ len ++ opc

/-! ## The opcode table (R92, R93) -/

/-- One row of the opcode table: the CMD bits a decoder compares, and their values. -/
structure OpRow where
  op : Op
  mask : CmdWord
  pattern : CmdWord
deriving DecidableEq, Repr

/-- spec/opcode_table.json: mask and match of every row (R93). -/
def opcodeTable : List OpRow :=
  [ ⟨.brOpen, 0xFFFFFFFF#32, 0x00000001#32⟩,
    ⟨.brSize, 0xFFFFFFFF#32, 0x00000002#32⟩,
    ⟨.brReadBit, 0xFFFFFFFF#32, 0x00000003#32⟩,
    ⟨.brReadBits, 0xFFFFF0FF#32, 0x00000004#32⟩,
    ⟨.brClose, 0xFFFFFFFF#32, 0x00000005#32⟩,
    ⟨.bwOpen, 0xFFFFFFFF#32, 0x00000011#32⟩,
    ⟨.bwWriteBit, 0xFFFEFFFF#32, 0x00000012#32⟩,
    ⟨.bwWriteBits, 0xFF00F0FF#32, 0x00000013#32⟩,
    ⟨.bwFinish, 0xFFFFFFFF#32, 0x00000014#32⟩,
    ⟨.wsBind, 0xFFFFFFFF#32, 0x00000021#32⟩,
    ⟨.wsReadWord, 0xFFFFFFFF#32, 0x00000022#32⟩,
    ⟨.wsWriteWord, 0xFF80FFFF#32, 0x00000023#32⟩,
    ⟨.wsWriteStream, 0xFFFFFFFF#32, 0x00000024#32⟩,
    ⟨.wsReadStream, 0xFFFFFFFF#32, 0x00000025#32⟩,
    ⟨.wsIntoInner, 0xFFFFFFFF#32, 0x00000026#32⟩ ]

/-- `(CMD & r.mask) = r.match` (R97). -/
def OpRow.matches (r : OpRow) (cmd : CmdWord) : Bool := cmd &&& r.mask == r.pattern

/-- The instruction of a mnemonic, its operands taken from CMD and ARG (R94 to R96). -/
def assembleOperands (cmd : CmdWord) (arg : ArgWord) : Op → Instr
  | .brOpen => .brOpen
  | .brSize => .brSize
  | .brReadBit => .brReadBit
  | .brReadBits => .brReadBits (lenOf cmd)
  | .brClose => .brClose
  | .bwOpen => .bwOpen
  | .bwWriteBit => .bwWriteBit (bitOf cmd)
  | .bwWriteBits => .bwWriteBits (dataOf cmd) (lenOf cmd)
  | .bwFinish => .bwFinish
  | .wsBind => .wsBind
  | .wsReadWord => .wsReadWord arg
  | .wsWriteWord => .wsWriteWord arg (wordOf cmd)
  | .wsWriteStream => .wsWriteStream
  | .wsReadStream => .wsReadStream
  | .wsIntoInner => .wsIntoInner

/-! ## Decode (R97) -/

/-- The three cases of an illegal CMD (R97). The machine treats them alike: each raises ILLEGAL_CMD. -/
inductive IllegalCmd where
  /-- OPC is not listed in the opcode map. -/
  | unassignedOpcode
  /-- CMD[15:12] or CMD[31:24] is not zero. -/
  | reservedBit
  /-- A LEN or DATA bit is set that the opcode does not use. -/
  | unusedOperandBit
deriving DecidableEq, Repr

/-- Which of the three cases an illegal CMD is, the opcode first, then the reserved bits (log 14). -/
def illegalCause (cmd : CmdWord) : IllegalCmd :=
  if !(opcodeTable.any fun r => r.pattern.extractLsb' 0 8 == opcOf cmd) then .unassignedOpcode
  else if cmd &&& 0xFF00F000#32 != 0#32 then .reservedBit
  else .unusedOperandBit

/-- `Decode(CMD)` (R97), with the operands assembled from CMD and ARG. -/
def decode (cmd : CmdWord) (arg : ArgWord) : Except IllegalCmd Instr :=
  match opcodeTable.find? (·.matches cmd) with
  | some r => .ok (assembleOperands cmd arg r.op)
  | none => .error (illegalCause cmd)

/-! ## Encode (R91, R99) -/

/-- OPC of a mnemonic (R92). -/
def opcodeByte : Op → BitVec 8
  | .brOpen => 0x01#8
  | .brSize => 0x02#8
  | .brReadBit => 0x03#8
  | .brReadBits => 0x04#8
  | .brClose => 0x05#8
  | .bwOpen => 0x11#8
  | .bwWriteBit => 0x12#8
  | .bwWriteBits => 0x13#8
  | .bwFinish => 0x14#8
  | .wsBind => 0x21#8
  | .wsReadWord => 0x22#8
  | .wsWriteWord => 0x23#8
  | .wsWriteStream => 0x24#8
  | .wsReadStream => 0x25#8
  | .wsIntoInner => 0x26#8

/-- DATA as an instruction carries it; 0 where the format has no data operand (R93). -/
def encodeData : Instr → Byte
  | .bwWriteBit bit => (BitVec.ofBool bit).setWidth 8
  | .bwWriteBits byte _ => byte
  | .wsWriteWord _ word => word.setWidth 8
  | .brOpen => 0#8
  | .brSize => 0#8
  | .brReadBit => 0#8
  | .brReadBits _ => 0#8
  | .brClose => 0#8
  | .bwOpen => 0#8
  | .bwFinish => 0#8
  | .wsBind => 0#8
  | .wsReadWord _ => 0#8
  | .wsWriteStream => 0#8
  | .wsReadStream => 0#8
  | .wsIntoInner => 0#8

/-- LEN as an instruction carries it; 0 where the format has no LEN (R93). -/
def encodeLen : Instr → BitVec 4
  | .brReadBits len => len
  | .bwWriteBits _ len => len
  | .brOpen => 0#4
  | .brSize => 0#4
  | .brReadBit => 0#4
  | .brClose => 0#4
  | .bwOpen => 0#4
  | .bwWriteBit _ => 0#4
  | .bwFinish => 0#4
  | .wsBind => 0#4
  | .wsReadWord _ => 0#4
  | .wsWriteWord _ _ => 0#4
  | .wsWriteStream => 0#4
  | .wsReadStream => 0#4
  | .wsIntoInner => 0#4

/-- ARG as the assembler writes it: the word address, 0 where the command ignores ARG (R99). -/
def encodeArg : Instr → ArgWord
  | .wsReadWord addr => addr
  | .wsWriteWord addr _ => addr
  | .brOpen => 0#64
  | .brSize => 0#64
  | .brReadBit => 0#64
  | .brReadBits _ => 0#64
  | .brClose => 0#64
  | .bwOpen => 0#64
  | .bwWriteBit _ => 0#64
  | .bwWriteBits _ _ => 0#64
  | .bwFinish => 0#64
  | .wsBind => 0#64
  | .wsWriteStream => 0#64
  | .wsReadStream => 0#64
  | .wsIntoInner => 0#64

/-- The transaction (CMD, ARG) of an instruction (R90, R91, R99). -/
def encode (i : Instr) : CmdWord × ArgWord :=
  (cmdWord (encodeData i) (encodeLen i) (opcodeByte i.op), encodeArg i)

/-! ## The assembler's last step (R99, R100) -/

/-- The instruction of a line, its operands narrowed to their fields; the pseudo-instructions are
expanded (R100). -/
def Asm.expand : Asm → Instr
  | .brOpen => .brOpen
  | .brSize => .brSize
  | .brReadBit => .brReadBit
  | .brReadBits len => .brReadBits (BitVec.ofNat 4 len)
  | .brClose => .brClose
  | .bwOpen => .bwOpen
  | .bwWriteBit bit => .bwWriteBit (bit == 1)
  | .bwWriteBits byte len => .bwWriteBits (BitVec.ofNat 8 byte) (BitVec.ofNat 4 len)
  | .bwFinish => .bwFinish
  | .wsBind => .wsBind
  | .wsReadWord addr => .wsReadWord (BitVec.ofNat 64 addr)
  | .wsWriteWord addr word => .wsWriteWord (BitVec.ofNat 64 addr) (BitVec.ofNat 7 word)
  | .wsWriteStream => .wsWriteStream
  | .wsReadStream => .wsReadStream
  | .wsIntoInner => .wsIntoInner
  | .brReadByte => .brReadBits 8#4
  | .bwWriteByte byte => .bwWriteBits (BitVec.ofNat 8 byte) 8#4

/-- "An operand outside its range does not assemble" (R99). -/
def Asm.assemble (a : Asm) : Option (CmdWord × ArgWord) :=
  if a.wellFormed then some (encode a.expand) else none

/-! ## The host's numbering of an instruction's bits -/

/-- The first `nbits` bits of `w`, every bit above them zero. -/
def tableBits (nbits w : Nat) : Nat := w % 2 ^ nbits

/-- CMD of a table word: bits 31..0 (log 2). -/
def cmdOfTableWord (nbits w : Nat) : CmdWord := BitVec.ofNat 32 (tableBits nbits w)

/-- ARG of a table word: bits 95..32, the second word of the transaction (log 2). -/
def argOfTableWord (nbits w : Nat) : ArgWord := BitVec.ofNat 64 (tableBits nbits w / 2 ^ 32)

/-- The instruction the decoder reads from a table word. -/
def decodeTableWord (nbits w : Nat) : Option Instr :=
  match decode (cmdOfTableWord nbits w) (argOfTableWord nbits w) with
  | .ok i => some i
  | .error _ => none

end Sys2Proof
end

