-- ==== Sys2Proof/Config.lean ====
section
/-! DEFINITION. What an implementation fixes: the constants the document settles, the types of the two
build parameters, and the free values. -/

namespace Sys2Proof.Config

/-- The header occupies words 0..8, which is 9 words (00_scope.md R5). -/
def headerWords : Nat := 9

/-- The body starts at word 9 (00_scope.md R5). -/
def bodyBase : Nat := 9

/-- Payload bits in one full body word (00_scope.md R5). -/
def bitsPerWord : Nat := 7

/-- A bit-group length is 1 to 8 bits (00_scope.md R5). -/
def maxGroup : Nat := 8

/-- What WS_WRITE_STREAM does when SRC_SIZE is 2^63 or more (00_scope.md R4, 92 D11). -/
inductive HdrOvf where
  | reject
  | truncate
deriving DecidableEq, Repr

/-- What word bits [6:rem] of the last, partial body word hold after an embed (00_scope.md R4, 92 D12). -/
inductive FinalFill where
  | zero
  | keep
deriving DecidableEq, Repr

/-- FREE VALUE (log 5): the answer of the n-th port access that the environment draws, true for success.
IoOracle is "a free draw" (00_scope.md R4, 92 D18). -/
opaque ioDraw : Nat → Bool

/-- FREE VALUE (log 6): what DST holds after a BW_OPEN that failed, when n answers had been drawn.
"DST contents unspecified" (60_exceptions.md R207, 93 U8). -/
opaque failedOpenDst : Nat → List Byte

end Sys2Proof.Config
end

