-- ==== Sys2Proof/Machine/State.lean ====
section
/-! DEFINITION. The state of the PWE: every register of 10_state.md R20, the memories behind the ports
(20_memory.md R50), the build parameters (00_scope.md R4), and the model's own input fields. -/

namespace Sys2Proof.Machine

/-! ## Codes -/

/-- BR_STATE and BW_STATE: CLOSED = 0, OPEN = 1 (10_state.md R20). -/
inductive UnitState where
  | closed
  | open
deriving DecidableEq, Repr

/-- WS_STATE (10_state.md R28). Codes 6 and 7 "never occur", so they have no constructor. -/
inductive WsState where
  | unbound
  | idle
  | hdrWritten
  | bodyWritten
  | hdrRead
  | bodyStreamed
deriving DecidableEq, Repr

/-- RSP_CODE and FLT_CODE (60_exceptions.md R201). Codes 10 to 15 are "never produced". -/
inductive RspCode where
  | ok
  | ioError
  | contract
  | finalizeFail
  | illegalCmd
  | stateError
  | addrRange
  | hdrOverflow
  | refused
  | halted
deriving DecidableEq, Repr

/-- FLT_UNIT: the unit that detected a fault (60_exceptions.md R202). -/
inductive FltUnit where
  | sequencer
  | br
  | bw
  | ws
deriving DecidableEq, Repr

/-! ## Memories and the host's moves -/

/-- A memory behind a port: the cells that do not hold zero, by rising address (log 11). -/
abbrev Memory := List Host.Cell

/-- A move of the host. Commands and resets come between commands (30_encoding.md R90, 70 R230); the
other three hand new contents to a port the block does not own (00_scope.md R13, 70 R236 a; log 18). -/
inductive HostMove where
  /-- Issue the transaction (CMD, ARG). -/
  | command (cmd : CmdWord) (arg : ArgWord)
  /-- Reset the block. -/
  | reset
  /-- Attach an image of `w` by `h` pixels; `cells` lists its channel bytes by cell address. -/
  | setImage (w h : BitVec 32) (cells : List Host.Cell)
  /-- Put a source file of `size` bytes at the source port; `cells` lists its bytes by index. -/
  | setSource (size : BitVec 64) (cells : List Host.Cell)
  /-- Put a file at the destination port. -/
  | setDestination (bytes : List Byte)
deriving DecidableEq, Repr

/-! ## State -/

/-- The state of the machine. -/
structure State where
  /-- BR_STATE (10_state.md R21). -/
  brState : UnitState
  /-- RD_POS (R22). -/
  rdPos : BitPos
  /-- SRC_SIZE, latched by BR_OPEN (R23). -/
  srcSize : BitVec 64
  /-- BW_STATE (R24). -/
  bwState : UnitState
  /-- WR_POS (R25). -/
  wrPos : BitPos
  /-- WR_ACC (R26). -/
  wrAcc : Byte
  /-- WS_STATE (R28). -/
  wsState : WsState
  /-- IMG_W, latched by WS_BIND (R29). -/
  imgW : BitVec 32
  /-- IMG_H, latched by WS_BIND (R29). -/
  imgH : BitVec 32
  /-- HDR_LEN (R30). -/
  hdrLen : BitVec 63
  /-- XFER_COUNT (R31). -/
  xferCount : BitVec 65
  /-- XFER_REM (R31). -/
  xferRem : BitVec 3
  /-- XFER_IDX (R31). -/
  xferIdx : BitVec 65
  /-- CMD, the command being executed (R32). -/
  cmd : CmdWord
  /-- ARG (R32). -/
  arg : ArgWord
  /-- RSP_CODE (R34). -/
  rspCode : RspCode
  /-- RESULT (R34). -/
  result : BitVec 64
  /-- FLT_VALID (R35). -/
  fltValid : Bool
  /-- FLT_CODE (R35). -/
  fltCode : RspCode
  /-- FLT_UNIT (R35). -/
  fltUnit : FltUnit
  /-- FLT_SUB (R35). -/
  fltSub : BitVec 2
  /-- FLT_OPC (R35). -/
  fltOpc : BitVec 8
  /-- FLT_INFO (R35). -/
  fltInfo : BitPos
  /-- FATAL (R36). -/
  fatal : Bool
  /-- The width of the image at the pixel port (20_memory.md R51). -/
  pixW : BitVec 32
  /-- The height of the image at the pixel port (R51). -/
  pixH : BitVec 32
  /-- PIX: the channel bytes of that image (R51). -/
  pix : Memory
  /-- The size in bytes of the file at the source port (R52). -/
  srcLen : BitVec 64
  /-- SRC: the bytes of that file (R52). -/
  src : Memory
  /-- DST: the byte sequence at the destination port (R53). -/
  dst : List Byte
  /-- HDR_OVF, a build parameter (00_scope.md R4, 70 R232). -/
  hdrOvf : Config.HdrOvf
  /-- FINAL_FILL, a build parameter (00_scope.md R4, 70 R232). -/
  finalFill : Config.FinalFill
  /-- The MODEL's own: the host's moves to come, next first (log 1). -/
  port : List HostMove
  /-- The MODEL's own: port answers already fixed, next first (log 5). -/
  ioAnswers : List Bool
  /-- The MODEL's own: how many port answers have been drawn (log 5). -/
  ioDraws : Nat
deriving DecidableEq, Repr

/-- The machine right after reset: the registers as 10_state.md R41 gives them, CMD and ARG 0 (log 3),
nothing at the ports (log 4), the parameters at their defaults (00_scope.md R4). -/
def State.reset : State where
  brState := .closed
  rdPos := 0
  srcSize := 0
  bwState := .closed
  wrPos := 0
  wrAcc := 0
  wsState := .unbound
  imgW := 0
  imgH := 0
  hdrLen := 0
  xferCount := 0
  xferRem := 0
  xferIdx := 0
  cmd := 0
  arg := 0
  rspCode := .ok
  result := 0
  fltValid := false
  fltCode := .ok
  fltUnit := .sequencer
  fltSub := 0
  fltOpc := 0
  fltInfo := 0
  fatal := false
  pixW := 0
  pixH := 0
  pix := []
  srcLen := 0
  src := []
  dst := []
  hdrOvf := .reject
  finalFill := .zero
  port := []
  ioAnswers := []
  ioDraws := 0

/-! ## Stops -/

/-- The reasons for which the machine stops with a fault: none. A fault of the PWE is a response and a
record, and the machine goes on (60_exceptions.md R206; log 16). Nobody raises one; safe. -/
inductive Fault where
deriving DecidableEq, Repr

/-- The reasons for which a step has no meaning. -/
inductive Refusal where
  /-- An instruction without a meaning yet. Raised by a refused arm of `exec` only; safe. -/
  | notModelled (mnemonic : String)
  /-- The host would touch the contents of a port whose unit is open or bound. Raised by the step that
  performs the host's move: "A model gives the host no move that breaks them" (70 R236; log 10). Safe. -/
  | hostDutyBroken
  /-- A bit position would reach 2^67, or BW_FINISH's RESULT would reach 2^64. Raised by WriteBit and
  BW_FINISH: "refuse" (93 U6; log 8). Safe. -/
  | positionOverflow
deriving DecidableEq, Repr

end Sys2Proof.Machine
end

