-- ==== Sys2Proof/Machine/Ops.lean ====
section
/-! DEFINITION. The shared operations: memory cells, the three ports, the response of a command, fault
entry, the common checks, host reset, and the sequencing of micro-steps. -/

namespace Sys2Proof.Machine

/-- How a command ends, or how far the host's move got. -/
abbrev Result := Host.Outcome State Fault Refusal

/-! ## Memory cells -/

/-- What an unlisted address reads as (log 11). -/
def Memory.unlisted : Byte := 0

/-- The byte at an address. -/
def Memory.read (m : Memory) (a : Nat) : Byte :=
  match m.find? (fun c => c.1 == a) with
  | some c => c.2
  | none => Memory.unlisted

/-- Insert a cell before the first cell with a larger address. -/
def Memory.insert (a : Nat) (v : Byte) : Memory → Memory
  | [] => [(a, v)]
  | c :: m => if a < c.1 then (a, v) :: c :: m else c :: Memory.insert a v m

/-- Store a byte at an address, keeping the canonical form. -/
def Memory.write (m : Memory) (a : Nat) (v : Byte) : Memory :=
  let rest := m.filter (fun c => !(c.1 == a))
  if v == Memory.unlisted then rest else Memory.insert a v rest

/-- The canonical form: addresses strictly rising, no cell equal to what an unlisted address reads as. -/
abbrev Memory.wf (m : Memory) : Prop :=
  m.Pairwise (fun c d => c.1 < d.1) ∧ ∀ c ∈ m, c.2 ≠ Memory.unlisted

/-- The memory that a list of cells describes, the later cell winning, only the cells `keep` admits. -/
def Memory.ofCells (keep : Nat → Bool) (cells : List Host.Cell) : Memory :=
  cells.foldl (fun m c => if keep c.1 then Memory.write m c.1 c.2 else m) []

/-! ## Answers of the port environment (00_scope.md R4 IoOracle; log 5) -/

/-- The k-th port answer after `drawn` draws: an answer already fixed, or a free draw. -/
def answerFrom (fixed : List Bool) (drawn k : Nat) : Bool :=
  match fixed[k]? with
  | some b => b
  | none => Config.ioDraw (drawn + k)

/-- The k-th port answer from now on, true for success. -/
def State.ioAnswer (s : State) (k : Nat) : Bool := answerFrom s.ioAnswers s.ioDraws k

/-- The state after n answers have been drawn. -/
def State.afterDraws (s : State) (n : Nat) : State :=
  { s with ioAnswers := s.ioAnswers.drop n, ioDraws := s.ioDraws + n }

/-! ## Ports (00_scope.md R9) -/

/-- The address of the first channel byte of the pixel at (x, y); red, green and blue follow each other
(log 11). -/
def pixelAddr (x y : Nat) : Nat := 3 * (y * 2 ^ 32 + x)

/-- The three channel bytes at a cell address. -/
def Memory.pixel (m : Memory) (a : Nat) : Pixel :=
  { r := Memory.read m a, g := Memory.read m (a + 1), b := Memory.read m (a + 2) }

/-- The three channel bytes stored at a cell address. -/
def Memory.setPixel (m : Memory) (a : Nat) (p : Pixel) : Memory :=
  Memory.write (Memory.write (Memory.write m a p.r) (a + 1) p.g) (a + 2) p.b

/-- `PixRead(x, y)`; "never fails" (20_memory.md R51). -/
def pixRead (x y : Nat) (s : State) : Pixel := Memory.pixel s.pix (pixelAddr x y)

/-- `PixWrite(x, y, p)`: "A pixel write changes only the addressed pixel" (20_memory.md R51). -/
def pixWrite (x y : Nat) (p : Pixel) (s : State) : State :=
  { s with pix := Memory.setPixel s.pix (pixelAddr x y) p }

/-- The answer of `SrcByte(i)` (20_memory.md R52). -/
inductive SrcAnswer where
  | ok (b : Byte)
  | failEof
  | failPort
deriving DecidableEq, Repr

/-- `SrcByte(i)`: the end of the file is checked before an answer is drawn (20_memory.md R52). -/
def srcByte (i : Nat) (s : State) : SrcAnswer × State :=
  if s.srcSize.toNat ≤ i then (.failEof, s)
  else if s.ioAnswer 0 then (.ok (Memory.read s.src i), s.afterDraws 1)
  else (.failPort, s.afterDraws 1)

/-- `DstAppend(b)`: "either appends b at the end of DST (ok), or fails and leaves DST unchanged"
(20_memory.md R53). -/
def dstAppend (b : Byte) (s : State) : Bool × State :=
  if s.ioAnswer 0 then (true, { s.afterDraws 1 with dst := s.dst ++ [b] })
  else (false, s.afterDraws 1)

/-! ## Responses and fault entry -/

/-- `respond(v)`: RSP_CODE = OK and RESULT = v (00_scope.md R10). -/
def respond (v : BitVec 64) (s : State) : State :=
  { s with rspCode := .ok, result := v }

/-- The responses REFUSED and HALTED, which change nothing but RSP_CODE and RESULT (60_exceptions.md R204). -/
def answerOnly (c : RspCode) (s : State) : State :=
  { s with rspCode := c, result := 0 }

/-- `FaultEntry(F, unit, sub, info)` (60_exceptions.md R206): the first fault is recorded, FLT_OPC is
CMD[7:0] (log 12), and the command answers F. Nothing returns from a fault (R210). -/
def faultEntry (code : RspCode) (unit : FltUnit) (sub : BitVec 2) (info : Nat) (s : State) : State :=
  { s with
    fltValid := true
    fltCode := if s.fltValid then s.fltCode else code
    fltUnit := if s.fltValid then s.fltUnit else unit
    fltSub := if s.fltValid then s.fltSub else sub
    fltOpc := if s.fltValid then s.fltOpc else s.cmd.extractLsb' 0 8
    fltInfo := if s.fltValid then s.fltInfo else BitVec.ofNat 67 info
    rspCode := code
    result := 0 }

/-- FLT_SUB of an IO_ERROR: OPEN (60_exceptions.md R203). -/
def subOpen : BitVec 2 := 0
/-- FLT_SUB of an IO_ERROR: EOF (R203). -/
def subEof : BitVec 2 := 1
/-- FLT_SUB of an IO_ERROR: SRC_READ (R203). -/
def subSrcRead : BitVec 2 := 2
/-- FLT_SUB of an IO_ERROR: DST_WRITE (R203). -/
def subDstWrite : BitVec 2 := 3
/-- FLT_SUB of an ADDR_RANGE: ROW (R203). -/
def subRow : BitVec 2 := 0
/-- FLT_SUB of an ADDR_RANGE: EMPTY_GRID (R203). -/
def subEmptyGrid : BitVec 2 := 1

/-! ## Micro-steps (00_scope.md R10, R11) -/

/-- The end of a micro-operation: a value and the state, or the command has ended in fault entry, or
the model refuses. -/
inductive Micro (α : Type) where
  | done (a : α) (s : State)
  | ended (s : State)
  | refused (r : Refusal)

/-- The next micro-step; "a micro-operation that raises a fault ends the whole command" (R11). -/
def Micro.andThen {α β : Type} (m : Micro α) (f : α → State → Micro β) : Micro β :=
  match m with
  | .done a s => f a s
  | .ended s => .ended s
  | .refused r => .refused r

/-- End the command successfully with the result `v` computes from the last value (R10). -/
def Micro.finish {α : Type} (m : Micro α) (v : α → BitVec 64) : Result :=
  match m with
  | .done a s => .next (respond (v a) s)
  | .ended s => .next s
  | .refused r => .refused r

/-- Raise a fault: fault entry, and the command ends (R10). -/
def raise {α : Type} (code : RspCode) (unit : FltUnit) (sub : BitVec 2) (info : Nat) (s : State) : Micro α :=
  .ended (faultEntry code unit sub info s)

/-! ## Unit states and the common checks (10_state.md R33, 60_exceptions.md R205) -/

/-- The code of BR_STATE and BW_STATE (10_state.md R20). -/
def UnitState.code : UnitState → Nat
  | .closed => 0
  | .open => 1

/-- The code of WS_STATE (10_state.md R28). -/
def WsState.code : WsState → Nat
  | .unbound => 0
  | .idle => 1
  | .hdrWritten => 2
  | .bodyWritten => 3
  | .hdrRead => 4
  | .bodyStreamed => 5

/-- One entry of the "requires" column of 10_state.md R33. -/
inductive Requirement where
  | br (want : UnitState)
  | bw (want : UnitState)
  | wsUnbound
  | wsBound
  | wsIdle
deriving DecidableEq, Repr

/-- The "requires" column of 10_state.md R33, left to right. -/
def requirements : Op → List Requirement
  | .brOpen => [.br .closed]
  | .brSize => [.br .open]
  | .brReadBit => [.br .open]
  | .brReadBits => [.br .open]
  | .brClose => [.br .open]
  | .bwOpen => [.bw .closed]
  | .bwWriteBit => [.bw .open]
  | .bwWriteBits => [.bw .open]
  | .bwFinish => [.bw .open]
  | .wsBind => [.wsUnbound]
  | .wsReadWord => [.wsBound]
  | .wsWriteWord => [.wsBound]
  | .wsWriteStream => [.wsIdle, .br .open]
  | .wsReadStream => [.wsIdle, .bw .open]
  | .wsIntoInner => [.wsBound]

/-- Whether the unit is in the state an entry requires. -/
def Requirement.met (r : Requirement) (s : State) : Bool :=
  match r with
  | .br want => s.brState == want
  | .bw want => s.bwState == want
  | .wsUnbound => s.wsState == .unbound
  | .wsBound => !(s.wsState == .unbound)
  | .wsIdle => s.wsState == .idle

/-- The unit an entry checks (60_exceptions.md R202). -/
def Requirement.unit : Requirement → FltUnit
  | .br _ => .br
  | .bw _ => .bw
  | .wsUnbound => .ws
  | .wsBound => .ws
  | .wsIdle => .ws

/-- The state code of the unit an entry checks (10_state.md R33). -/
def Requirement.code (r : Requirement) (s : State) : Nat :=
  match r with
  | .br _ => s.brState.code
  | .bw _ => s.bwState.code
  | .wsUnbound => s.wsState.code
  | .wsBound => s.wsState.code
  | .wsIdle => s.wsState.code

/-- The first requirement of a command that does not hold. -/
def firstUnmet (op : Op) (s : State) : Option Requirement :=
  (requirements op).find? (fun r => !r.met s)

/-- The cleanup commands BW_FINISH, BR_CLOSE and WS_INTO_INNER (60_exceptions.md R208). -/
def isCleanup : Op → Bool
  | .brOpen => false
  | .brSize => false
  | .brReadBit => false
  | .brReadBits => false
  | .brClose => true
  | .bwOpen => false
  | .bwWriteBit => false
  | .bwWriteBits => false
  | .bwFinish => true
  | .wsBind => false
  | .wsReadWord => false
  | .wsWriteWord => false
  | .wsWriteStream => false
  | .wsReadStream => false
  | .wsIntoInner => true

/-- Steps 1, 3 and 4 of `Execute(CMD, ARG)` for a command that decodes (60_exceptions.md R205), and then
the command itself. -/
def withChecks (op : Op) (s : State) (body : Result) : Result :=
  if s.fatal then .next (answerOnly .halted s)
  else if s.fltValid && !isCleanup op then .next (answerOnly .refused s)
  else match firstUnmet op s with
    | some r => .next (faultEntry .stateError r.unit 0 (r.code s) s)
    | none => body

/-- Steps 1 and 2 of `Execute(CMD, ARG)` for a CMD that matches no row (60_exceptions.md R205). -/
def illegalCommand (s : State) : State :=
  if s.fatal then answerOnly .halted s
  else if s.fltValid then answerOnly .refused s
  else faultEntry .illegalCmd .sequencer 0 s.cmd.toNat s

/-! ## Reset by the host (70_reset_and_hazards.md R230, R231) -/

/-- Every register to its value in 10_state.md R41, "whatever the state before"; "Reset does not touch
the external memories". CMD and ARG as at `State.reset` (log 3). -/
def hostReset (s : State) : State :=
  { State.reset with
    pixW := s.pixW
    pixH := s.pixH
    pix := s.pix
    srcLen := s.srcLen
    src := s.src
    dst := s.dst
    hdrOvf := s.hdrOvf
    finalFill := s.finalFill
    port := s.port
    ioAnswers := s.ioAnswers
    ioDraws := s.ioDraws }

end Sys2Proof.Machine
end

