-- ==== Sys2Proof/Machine/Operands.lean ====
section
/-! DEFINITION. Operand and address forms: legal group lengths, bits of a group, the word layout of a
pixel, the word-address mapping, the header's words and the count/remainder split. -/

namespace Sys2Proof.Machine

/-- The legality `1 ≤ LEN ≤ 8`, checked when the command executes (30_encoding.md R94). -/
def legalLen (len : BitVec 4) : Bool := 1 ≤ len.toNat && len.toNat ≤ Config.maxGroup

/-- A bit at position k of a byte (00_scope.md R7). -/
def bitAt (bit : Bool) (k : Nat) : Byte := (BitVec.ofBool bit).setWidth 8 <<< k

/-- `Pack(p) = { p.r[2:0], p.g[1:0], p.b[1:0] }` (42_word_access.md R151). -/
def pack (p : Pixel) : PixWord :=
  p.r.extractLsb' 0 3 ++ p.g.extractLsb' 0 2 ++ p.b.extractLsb' 0 2

/-- `Unpack(p, w)`: the low 3/2/2 bits of the channels replaced by w[6:4], w[3:2], w[1:0]
(42_word_access.md R152). -/
def unpack (p : Pixel) (w : PixWord) : Pixel :=
  { r := p.r.extractLsb' 3 5 ++ w.extractLsb' 4 3
    g := p.g.extractLsb' 2 6 ++ w.extractLsb' 2 2
    b := p.b.extractLsb' 2 6 ++ w.extractLsb' 0 2 }

/-- `MapAddr(a)`: y = a div IMG_H, x = a mod IMG_W, with the two range checks (42_word_access.md R150). -/
def mapAddr (a : Nat) (s : State) : Micro (Nat × Nat) :=
  if s.imgW = 0 ∨ s.imgH = 0 then raise .addrRange .ws subEmptyGrid a s
  else if s.imgH.toNat ≤ a / s.imgH.toNat then raise .addrRange .ws subRow a s
  else .done (a % s.imgW.toNat, a / s.imgH.toNat) s

/-- `HdrWord(h, i) = h[7i+6 : 7i]` (43_stream.md R170). -/
def hdrWord (h : BitVec 63) (i : Nat) : PixWord := h.extractLsb' (Config.bitsPerWord * i) 7

/-- A word at group i of the header value (43_stream.md R172). -/
def hdrGroup (w : PixWord) (i : Nat) : BitVec 63 := w.setWidth 63 <<< (Config.bitsPerWord * i)

/-- `count = (8·n) div 7` (43_stream.md R171). -/
def splitCount (n : Nat) : Nat := 8 * n / Config.bitsPerWord

/-- `rem = (8·n) mod 7` (43_stream.md R171). -/
def splitRem (n : Nat) : Nat := 8 * n % Config.bitsPerWord

/-- The word a KEEP fill writes: `(Pack(p) & (0x7F & ~mask(rem))) | w` (43_stream.md R174). -/
def keepFill (old w : PixWord) (rem : Nat) : PixWord :=
  (old &&& ~~~(BitVec.ofNat 7 (mask rem))) ||| w

end Sys2Proof.Machine
end

