-- ==== Sys2Proof/Machine/BitReader.lean ====
section
/-! DEFINITION. The bit reader BR (40_bit_reader.md): ReadBit, ReadBits and the five BR commands. -/

namespace Sys2Proof.Machine

/-- `ReadBit()` (40_bit_reader.md R111). A failing ReadBit leaves RD_POS unchanged. -/
def readBit (s : State) : Micro Bool :=
  match srcByte (s.rdPos.toNat / 8) s with
  | (.failEof, t) => raise .ioError .br subEof s.rdPos.toNat t
  | (.failPort, t) => raise .ioError .br subSrcRead s.rdPos.toNat t
  | (.ok b, t) => .done (b.getLsbD (s.rdPos.toNat % 8)) { t with rdPos := s.rdPos + 1 }

/-- The loop of `ReadBits`: n more bits, the next one at position k of the value. -/
def readBitsFrom : (n k : Nat) → Byte → State → Micro Byte
  | 0, _, v, s => .done v s
  | n + 1, k, v, s => (readBit s).andThen fun bit t => readBitsFrom n (k + 1) (v ||| bitAt bit k) t

/-- `ReadBits(len)`: "bit 0 of the result = first bit read", the higher bits zero (40_bit_reader.md R112). -/
def readBits (len : Nat) (s : State) : Micro Byte := readBitsFrom len 0 0 s

/-- What BR_OPEN does to the machine once its checks have passed (40_bit_reader.md R113). -/
def openSource (s : State) : State :=
  let t := s.afterDraws 1
  if s.ioAnswer 0 then
    respond 0 { t with srcSize := s.srcLen, rdPos := 0, brState := .open }
  else faultEntry .ioError .br subOpen 0 t

/-- BR_OPEN (40_bit_reader.md R113). -/
def execBrOpen (s : State) : Result :=
  withChecks .brOpen s (.next (openSource s))

/-- BR_SIZE (40_bit_reader.md R114). -/
def execBrSize (s : State) : Result :=
  withChecks .brSize s (.next (respond s.srcSize s))

/-- BR_READ_BIT (40_bit_reader.md R115). -/
def execBrReadBit (s : State) : Result :=
  withChecks .brReadBit s ((readBit s).finish fun bit => (BitVec.ofBool bit).setWidth 64)

/-- BR_READ_BITS (40_bit_reader.md R116). -/
def execBrReadBits (len : BitVec 4) (s : State) : Result :=
  withChecks .brReadBits s
    (if legalLen len then (readBits len.toNat s).finish fun v => v.setWidth 64
     else .next (faultEntry .contract .br 0 len.toNat s))

/-- BR_CLOSE (40_bit_reader.md R117). -/
def execBrClose (s : State) : Result :=
  withChecks .brClose s (.next (respond 0 { s with brState := .closed }))

end Sys2Proof.Machine
end

