-- ==== Sys2Proof/Machine/BitWriter.lean ====
section
/-! DEFINITION. The bit writer BW (41_bit_writer.md): WriteBit, WriteBits and the four BW commands. -/

namespace Sys2Proof.Machine

/-- WR_ACC and WR_POS after one more bit: "ORs the bit into the current in-progress byte at the position
given by `bit_position mod 8`, advances `bit_position`" (41_bit_writer.md R131). -/
def accumulate (bit : Bool) (s : State) : State :=
  { s with wrAcc := s.wrAcc ||| bitAt bit (s.wrPos.toNat % 8), wrPos := s.wrPos + 1 }

/-- The flush of a completed byte (41_bit_writer.md R131): on failure WR_ACC keeps the byte and WR_POS
has already advanced. -/
def flush (s : State) : Micro Unit :=
  match dstAppend s.wrAcc s with
  | (true, t) => .done () { t with wrAcc := 0 }
  | (false, t) => raise .ioError .bw subDstWrite s.wrPos.toNat t

/-- `WriteBit(bit)` (41_bit_writer.md R131). A position of 2^67 is refused (93 U6; log 8). -/
def writeBit (bit : Bool) (s : State) : Micro Unit :=
  if s.wrPos.toNat + 1 = 2 ^ 67 then .refused .positionOverflow
  else if (accumulate bit s).wrPos.toNat % 8 = 0 then flush (accumulate bit s)
  else .done () (accumulate bit s)

/-- The loop of `WriteBits`: n more bits of the byte, the next one its bit k. -/
def writeBitsFrom : (n k : Nat) → Byte → State → Micro Unit
  | 0, _, _, s => .done () s
  | n + 1, k, byte, s => (writeBit (byte.getLsbD k) s).andThen fun _ t => writeBitsFrom n (k + 1) byte t

/-- `WriteBits(byte, len)`: the low len bits, "least-significant bit first" (41_bit_writer.md R132). -/
def writeBits (byte : Byte) (len : Nat) (s : State) : Micro Unit := writeBitsFrom len 0 byte s

/-- What BW_OPEN does to the machine once its checks have passed (41_bit_writer.md R133). After a failed
open the contents of DST are a free value (60_exceptions.md R207, 93 U8; log 6). -/
def openDestination (s : State) : State :=
  let t := s.afterDraws 1
  if s.ioAnswer 0 then
    respond 0 { t with dst := [], wrPos := 0, wrAcc := 0, bwState := .open }
  else faultEntry .ioError .bw subOpen 0 { t with dst := Config.failedOpenDst s.ioDraws }

/-- BW_OPEN (41_bit_writer.md R133). -/
def execBwOpen (s : State) : Result :=
  withChecks .bwOpen s (.next (openDestination s))

/-- BW_WRITE_BIT (41_bit_writer.md R134). -/
def execBwWriteBit (bit : Bool) (s : State) : Result :=
  withChecks .bwWriteBit s ((writeBit bit s).finish fun _ => 0)

/-- BW_WRITE_BITS (41_bit_writer.md R135). -/
def execBwWriteBits (byte : Byte) (len : BitVec 4) (s : State) : Result :=
  withChecks .bwWriteBits s
    (if legalLen len then (writeBits byte len.toNat s).finish fun _ => 0
     else .next (faultEntry .contract .bw 0 len.toNat s))

/-- The flush of the partial byte by BW_FINISH (41_bit_writer.md R136): a failure closes the writer and
sets FATAL. -/
def finishFlush (s : State) : Micro Unit :=
  match dstAppend s.wrAcc s with
  | (true, t) => .done () { t with wrAcc := 0 }
  | (false, t) => raise .finalizeFail .bw 0 s.wrPos.toNat { t with bwState := .closed, fatal := true }

/-- `(WR_POS + 7) div 8`, that is ceil(WR_POS / 8) (41_bit_writer.md R136). -/
def bytesWritten (pos : BitPos) : Nat := (pos.toNat + 7) / 8

/-- Finalization (41_bit_writer.md R136): a byte is appended if and only if WR_POS mod 8 is not 0. -/
def finalize (s : State) : Micro Unit :=
  (if s.wrPos.toNat % 8 = 0 then Micro.done () s else finishFlush s).andThen fun _ t =>
    .done () { t with bwState := .closed }

/-- BW_FINISH (41_bit_writer.md R136). A RESULT of 2^64 is refused (93 U6; log 8). -/
def execBwFinish (s : State) : Result :=
  withChecks .bwFinish s
    (if bytesWritten s.wrPos < 2 ^ 64 then
      (finalize s).finish fun _ => BitVec.ofNat 64 (bytesWritten s.wrPos)
     else .refused .positionOverflow)

end Sys2Proof.Machine
end

