-- ==== Sys2Proof/Machine/WordAccess.lean ====
section
/-! DEFINITION. Word access WS (42_word_access.md): ReadWord, WriteWord, WS_BIND, WS_READ_WORD,
WS_WRITE_WORD and WS_INTO_INNER. -/

namespace Sys2Proof.Machine

/-- `ReadWord(a)` (42_word_access.md R153). -/
def readWord (a : Nat) (s : State) : Micro PixWord :=
  (mapAddr a s).andThen fun xy t => .done (pack (pixRead xy.1 xy.2 t)) t

/-- Replace the word of the pixel at (x, y): a read-modify-write (42_word_access.md R154). -/
def modifyPixel (x y : Nat) (f : Pixel → PixWord) (s : State) : State :=
  pixWrite x y (unpack (pixRead x y s) (f (pixRead x y s))) s

/-- `WriteWord(a, w)`; "a fault here touches no pixel" (42_word_access.md R154). -/
def writeWord (a : Nat) (w : PixWord) (s : State) : Micro Unit :=
  (mapAddr a s).andThen fun xy t => .done () (modifyPixel xy.1 xy.2 (fun _ => w) t)

/-- WS_BIND (42_word_access.md R156). -/
def execWsBind (s : State) : Result :=
  withChecks .wsBind s
    (.next (respond 0
      { s with
        imgW := s.pixW
        imgH := s.pixH
        hdrLen := 0
        xferCount := 0
        xferRem := 0
        xferIdx := 0
        wsState := .idle }))

/-- WS_READ_WORD (42_word_access.md R157). -/
def execWsReadWord (addr : ArgWord) (s : State) : Result :=
  withChecks .wsReadWord s ((readWord addr.toNat s).finish fun w => w.setWidth 64)

/-- WS_WRITE_WORD (42_word_access.md R158). -/
def execWsWriteWord (addr : ArgWord) (word : PixWord) (s : State) : Result :=
  withChecks .wsWriteWord s ((writeWord addr.toNat word s).finish fun _ => 0)

/-- WS_INTO_INNER (42_word_access.md R159). -/
def execWsIntoInner (s : State) : Result :=
  withChecks .wsIntoInner s (.next (respond 0 { s with wsState := .unbound }))

end Sys2Proof.Machine
end

