-- ==== Sys2Proof/Machine/Stream.lean ====
section
/-! DEFINITION. Header/body framing (43_stream.md): WS_WRITE_STREAM and WS_READ_STREAM. -/

namespace Sys2Proof.Machine

/-! ## Embed -/

/-- The header phase of an embed: n more header words, the next one word i (43_stream.md R173). -/
def writeHeaderFrom : (n i : Nat) → BitVec 63 → State → Micro Unit
  | 0, _, _, s => .done () s
  | n + 1, i, h, s => (writeWord i (hdrWord h i) s).andThen fun _ t => writeHeaderFrom n (i + 1) h t

/-- The registers between the phases of an embed: HDR_LEN, WS_STATE and the split of n bytes
(43_stream.md R173). -/
def enterBody (st : WsState) (h : BitVec 63) (n : Nat) (s : State) : State :=
  { s with
    hdrLen := h
    wsState := st
    xferCount := BitVec.ofNat 65 (splitCount n)
    xferRem := BitVec.ofNat 3 (splitRem n) }

/-- One step of an embed body: the source bits are read first, then the word is written
(43_stream.md R173, 92 D15). -/
def embedStep (idx : Nat) (s : State) : Micro Unit :=
  (readBits Config.bitsPerWord { s with xferIdx := BitVec.ofNat 65 idx }).andThen fun v t =>
    writeWord (Config.bodyBase + idx) (v.setWidth 7) t

/-- The full words of an embed body: n more, the next one at index idx. -/
def embedBodyFrom : (n idx : Nat) → State → Micro Unit
  | 0, _, s => .done () s
  | n + 1, idx, s => (embedStep idx s).andThen fun _ t => embedBodyFrom n (idx + 1) t

/-- `FinalWrite(a, w, rem)` (43_stream.md R174): under KEEP one range check covers both accesses. -/
def finalWrite (a : Nat) (w : PixWord) (rem : Nat) (s : State) : Micro Unit :=
  match s.finalFill with
  | .zero => writeWord a w s
  | .keep => (mapAddr a s).andThen fun xy t =>
      .done () (modifyPixel xy.1 xy.2 (fun p => keepFill (pack p) w rem) t)

/-- The last, partial word of an embed body, present only when rem is not 0 (43_stream.md R173). -/
def embedTail (count rem : Nat) (s : State) : Micro Unit :=
  if rem = 0 then .done () s
  else (readBits rem { s with xferIdx := BitVec.ofNat 65 count }).andThen fun v t =>
    finalWrite (Config.bodyBase + count) (v.setWidth 7) rem t

/-- The two phases of an embed of n bytes with header value h (43_stream.md R173). -/
def embed (h : BitVec 63) (n : Nat) (s : State) : Micro Unit :=
  (writeHeaderFrom Config.headerWords 0 h s).andThen fun _ t =>
    (embedBodyFrom (splitCount n) 0 (enterBody .hdrWritten h n t)).andThen fun _ u =>
      (embedTail (splitCount n) (splitRem n) u).andThen fun _ v =>
        .done () { v with wsState := .bodyWritten }

/-- WS_WRITE_STREAM (43_stream.md R173). The header is n mod 2^63, which is n when n < 2^63; under
REJECT a larger n raises HDR_OVERFLOW before any word is written (R185, 92 D11). -/
def execWsWriteStream (s : State) : Result :=
  withChecks .wsWriteStream s
    (if 2 ^ 63 ≤ s.srcSize.toNat ∧ s.hdrOvf = .reject then
      .next (faultEntry .hdrOverflow .ws 0 s.srcSize.toNat s)
     else
      (embed (s.srcSize.setWidth 63) s.srcSize.toNat s).finish fun _ => (s.srcSize.setWidth 63).setWidth 64)

/-! ## Extract -/

/-- The header phase of an extraction: n more header words, the next one word i, h so far
(43_stream.md R172, R176). -/
def readHeaderFrom : (n i : Nat) → BitVec 63 → State → Micro (BitVec 63)
  | 0, _, h, s => .done h s
  | n + 1, i, h, s => (readWord i s).andThen fun w t => readHeaderFrom n (i + 1) (h ||| hdrGroup w i) t

/-- One step of an extraction body with `len` payload bits: the word is read first, then its bits are
written (43_stream.md R176, 92 D15). -/
def extractStep (idx len : Nat) (s : State) : Micro Unit :=
  (readWord (Config.bodyBase + idx) { s with xferIdx := BitVec.ofNat 65 idx }).andThen fun w t =>
    writeBits (w.setWidth 8) len t

/-- The full words of an extraction body: n more, the next one at index idx. -/
def extractBodyFrom : (n idx : Nat) → State → Micro Unit
  | 0, _, s => .done () s
  | n + 1, idx, s => (extractStep idx Config.bitsPerWord s).andThen fun _ t => extractBodyFrom n (idx + 1) t

/-- The last, partial word of an extraction: only its low rem bits are written (43_stream.md R176). -/
def extractTail (count rem : Nat) (s : State) : Micro Unit :=
  if rem = 0 then .done () s else extractStep count rem s

/-- The body phase of an extraction of n bytes (43_stream.md R176). -/
def extractBody (n : Nat) (s : State) : Micro Unit :=
  (extractBodyFrom (splitCount n) 0 s).andThen fun _ t => extractTail (splitCount n) (splitRem n) t

/-- The two phases of an extraction; the value is the header read (43_stream.md R176). -/
def extract (s : State) : Micro (BitVec 63) :=
  (readHeaderFrom Config.headerWords 0 0 s).andThen fun h t =>
    (extractBody h.toNat (enterBody .hdrRead h h.toNat t)).andThen fun _ u =>
      .done h { u with wsState := .bodyStreamed }

/-- WS_READ_STREAM (43_stream.md R176). -/
def execWsReadStream (s : State) : Result :=
  withChecks .wsReadStream s ((extract s).finish fun h => h.setWidth 64)

end Sys2Proof.Machine
end

