-- ==== Sys2Proof/Machine/Dispatch.lean ====
section
/-! DEFINITION. The dispatch of an instruction to its meaning, one arm per row of the opcode table
(30_encoding.md R92). -/

namespace Sys2Proof.Machine

def exec (i : Instr) (s : State) : Host.Outcome State Fault Refusal :=
  match i with
  | .brOpen => Sys2Proof.Machine.execBrOpen s
  | .brSize => Sys2Proof.Machine.execBrSize s
  | .brReadBit => Sys2Proof.Machine.execBrReadBit s
  | .brReadBits len => Sys2Proof.Machine.execBrReadBits len s
  | .brClose => Sys2Proof.Machine.execBrClose s
  | .bwOpen => Sys2Proof.Machine.execBwOpen s
  | .bwWriteBit bit => Sys2Proof.Machine.execBwWriteBit bit s
  | .bwWriteBits byte len => Sys2Proof.Machine.execBwWriteBits byte len s
  | .bwFinish => Sys2Proof.Machine.execBwFinish s
  | .wsBind => Sys2Proof.Machine.execWsBind s
  | .wsReadWord addr => Sys2Proof.Machine.execWsReadWord addr s
  | .wsWriteWord addr word => Sys2Proof.Machine.execWsWriteWord addr word s
  | .wsWriteStream => Sys2Proof.Machine.execWsWriteStream s
  | .wsReadStream => Sys2Proof.Machine.execWsReadStream s
  | .wsIntoInner => Sys2Proof.Machine.execWsIntoInner s

end Sys2Proof.Machine
end

