-- ==== Sys2Proof/Machine/HostPort.lean ====
section
/-! DEFINITION. The host port: how a transaction reaches the CMD and ARG registers and is executed, and
the host's other moves. -/

namespace Sys2Proof.Machine

/-- The host writes CMD and ARG as the command (10_state.md R20, R32). -/
def latch (cmd : CmdWord) (arg : ArgWord) (s : State) : State :=
  { s with cmd := cmd, arg := arg }

/-- `Execute(CMD, ARG)` (60_exceptions.md R205): decode, and run the instruction or raise ILLEGAL_CMD. -/
def runCommand (cmd : CmdWord) (arg : ArgWord) (s : State) : Result :=
  match decode cmd arg with
  | .ok i => exec i (latch cmd arg s)
  | .error _ => .next (illegalCommand (latch cmd arg s))

/-- Whether a cell address belongs to an image of w by h pixels (log 11). -/
def cellInImage (w h : BitVec 32) (a : Nat) : Bool :=
  (a / 3) % 2 ^ 32 < w.toNat && a / 3 / 2 ^ 32 < h.toNat

/-- Attach an image; only while WS is unbound (70 R236 a; log 10, log 18). -/
def setImage (w h : BitVec 32) (cells : List Host.Cell) (s : State) : Result :=
  if s.wsState = .unbound then
    .next { s with pixW := w, pixH := h, pix := Memory.ofCells (cellInImage w h) cells }
  else .refused .hostDutyBroken

/-- Put a file at the source port; only while BR is closed (70 R236 a; log 10, log 18). -/
def setSource (size : BitVec 64) (cells : List Host.Cell) (s : State) : Result :=
  if s.brState = .closed then
    .next { s with srcLen := size, src := Memory.ofCells (fun a => a < size.toNat) cells }
  else .refused .hostDutyBroken

/-- Put a file at the destination port; only while BW is closed (70 R236 a; log 10, log 18). -/
def setDestination (bytes : List Byte) (s : State) : Result :=
  if s.bwState = .closed then .next { s with dst := bytes }
  else .refused .hostDutyBroken

/-- One move of the host. -/
def hostMove (m : HostMove) (s : State) : Result :=
  match m with
  | .command cmd arg => runCommand cmd arg s
  | .reset => .next (hostReset s)
  | .setImage w h cells => setImage w h cells s
  | .setSource size cells => setSource size cells s
  | .setDestination bytes => setDestination bytes s

/-- The next move of the host is performed; with no move to come the block "waits for the first
command" (70 R232) and nothing changes (log 1). -/
def takeMove (s : State) : Result :=
  match s.port with
  | [] => .next s
  | m :: rest => hostMove m { s with port := rest }

/-- The transaction of a table word placed as the host's next move (log 2). -/
def placeCommand (s : State) (nbits w : Nat) : State :=
  { s with port := .command (cmdOfTableWord nbits w) (argOfTableWord nbits w) :: s.port }

end Sys2Proof.Machine
end

