-- ==== Sys2Proof/Machine/Assembler.lean ====
section
/-! DEFINITION. The assembler syntax of 30_encoding.md R99 and R100: one line of text to a command. The
syntax is "MNEMONIC [operand {, operand}]", comments start with a semicolon, numbers are decimal or
hexadecimal with the prefix 0x. What R99 leaves open about the text is log 15. -/

namespace Sys2Proof.Machine.Text

/-- What a line of text is. -/
inductive Line where
  /-- Nothing but space and comment. -/
  | blank
  | command (a : Asm)
  | malformed
deriving DecidableEq, Repr

/-- Space and tab separate (log 15). -/
def isSpace (c : Char) : Bool := c == ' ' || c == '\t'

/-- The text without the space at its two ends. -/
def trim (cs : List Char) : List Char :=
  ((cs.dropWhile isSpace).reverse.dropWhile isSpace).reverse

/-- The operands between commas; no text is no operand. -/
def splitCommas : List Char → List (List Char)
  | [] => []
  | c :: cs =>
    if c == ',' then [] :: (if cs.isEmpty then [[]] else splitCommas cs)
    else match splitCommas cs with
      | [] => [[c]]
      | o :: os => (c :: o) :: os

/-- The value of a digit in a base of at most 16; hexadecimal letters of either case (log 15). -/
def digit (base : Nat) (c : Char) : Option Nat :=
  let v :=
    if '0'.toNat ≤ c.toNat ∧ c.toNat ≤ '9'.toNat then some (c.toNat - '0'.toNat)
    else if 'a'.toNat ≤ c.toNat ∧ c.toNat ≤ 'f'.toNat then some (c.toNat - 'a'.toNat + 10)
    else if 'A'.toNat ≤ c.toNat ∧ c.toNat ≤ 'F'.toNat then some (c.toNat - 'A'.toNat + 10)
    else none
  v.bind fun d => if d < base then some d else none

/-- The value of a non-empty digit string. -/
def digits (base : Nat) (cs : List Char) : Option Nat :=
  if cs.isEmpty then none
  else cs.foldl (fun acc c => acc.bind fun n => (digit base c).map fun d => n * base + d) (some 0)

/-- "Numbers are decimal, or hexadecimal with the prefix 0x" (R99). -/
def number (cs : List Char) : Option Nat :=
  match cs with
  | '0' :: 'x' :: hex => digits 16 hex
  | _ => digits 10 cs

/-- The numbers of an operand field, none if one of them is no number. -/
def operands (cs : List Char) : Option (List Nat) :=
  (splitCommas (trim cs)).foldr
    (fun o acc => acc.bind fun ns => (number (trim o)).map fun n => n :: ns) (some [])

/-- The line of a mnemonic and its operands, in the operand order of R99 and R100. -/
def ofMnemonic (name : String) (ops : List Nat) : Option Asm :=
  match ops with
  | [] =>
    if name == "BR_OPEN" then some .brOpen
    else if name == "BR_SIZE" then some .brSize
    else if name == "BR_READ_BIT" then some .brReadBit
    else if name == "BR_CLOSE" then some .brClose
    else if name == "BW_OPEN" then some .bwOpen
    else if name == "BW_FINISH" then some .bwFinish
    else if name == "WS_BIND" then some .wsBind
    else if name == "WS_WRITE_STREAM" then some .wsWriteStream
    else if name == "WS_READ_STREAM" then some .wsReadStream
    else if name == "WS_INTO_INNER" then some .wsIntoInner
    else if name == "BR_READ_BYTE" then some .brReadByte
    else none
  | [a] =>
    if name == "BR_READ_BITS" then some (.brReadBits a)
    else if name == "BW_WRITE_BIT" then some (.bwWriteBit a)
    else if name == "WS_READ_WORD" then some (.wsReadWord a)
    else if name == "BW_WRITE_BYTE" then some (.bwWriteByte a)
    else none
  | [a, b] =>
    if name == "BW_WRITE_BITS" then some (.bwWriteBits a b)
    else if name == "WS_WRITE_WORD" then some (.wsWriteWord a b)
    else none
  | _ => none

/-- One line of text (R99). -/
def parseLine (line : String) : Line :=
  let text := trim (line.toList.takeWhile (fun c => c != ';'))
  if text.isEmpty then .blank
  else
    let name := String.ofList (text.takeWhile (fun c => !isSpace c))
    match (operands (text.dropWhile (fun c => !isSpace c))).bind (ofMnemonic name) with
    | some a => .command a
    | none => .malformed

/-- The transaction a line assembles to; none for a blank line, a malformed one, or an operand outside
its range (R99). -/
def assembleLine (line : String) : Option (CmdWord × ArgWord) :=
  match parseLine line with
  | .command a => a.assemble
  | .blank => none
  | .malformed => none

end Sys2Proof.Machine.Text
end

