-- ==== Sys2Proof/Machine/Flags.lean ====
section
/-! DEFINITION. What the host reads between commands: the codes as numbers, the STATUS view and the
host-readable registers. The block has no condition flags (10_state.md R39). -/

namespace Sys2Proof.Machine

/-- The number of a response or fault code (60_exceptions.md R201). -/
def RspCode.code : RspCode → BitVec 4
  | .ok => 0
  | .ioError => 1
  | .contract => 2
  | .finalizeFail => 3
  | .illegalCmd => 4
  | .stateError => 5
  | .addrRange => 6
  | .hdrOverflow => 7
  | .refused => 8
  | .halted => 9

/-- The number of a unit in FLT_UNIT (60_exceptions.md R202). -/
def FltUnit.code : FltUnit → BitVec 2
  | .sequencer => 0
  | .br => 1
  | .bw => 2
  | .ws => 3

/-- STATUS, "a 32-bit host-readable view with no storage of its own" (10_state.md R37). -/
def status (s : State) : BitVec 32 :=
  0#4 ++ s.fltOpc ++ s.fltSub ++ s.fltUnit.code ++ s.fltCode.code ++ 0#1
    ++ BitVec.ofNat 3 s.wsState.code ++ BitVec.ofNat 1 s.bwState.code ++ BitVec.ofNat 1 s.brState.code
    ++ BitVec.ofBool s.fatal ++ BitVec.ofBool s.fltValid ++ s.rspCode.code

/-- The registers the host may read between commands (10_state.md R38). -/
inductive HostReg where
  | status
  | result
  | fltInfo
  | rdPos
  | wrPos
  | srcSize
  | imgW
  | imgH
  | hdrLen
deriving DecidableEq, Repr

/-- The value of a host-readable register; "Reads have no side effects" (10_state.md R38). -/
def hostRead (r : HostReg) (s : State) : Nat :=
  match r with
  | .status => (Sys2Proof.Machine.status s).toNat
  | .result => s.result.toNat
  | .fltInfo => s.fltInfo.toNat
  | .rdPos => s.rdPos.toNat
  | .wrPos => s.wrPos.toNat
  | .srcSize => s.srcSize.toNat
  | .imgW => s.imgW.toNat
  | .imgH => s.imgH.toNat
  | .hdrLen => s.hdrLen.toNat

end Sys2Proof.Machine
end

