-- ==== Sys2Proof/Safety.lean ====
section
/-! DEFINITION. The terms claims use: a machine ready for a command, the environment's answers, words
and bits of the memories, the capacity of an image, runs of commands, what a frame compares, and the
invariant of the machine. -/

namespace Sys2Proof.Machine

/-! ## Conditions on a state -/

/-- No fault is recorded and the block is not halted, so no command is turned away
(60_exceptions.md R208, R209). -/
abbrev State.ready (s : State) : Prop := s.fatal = false ∧ s.fltValid = false

/-- The next n port answers are successes: "no port failure is drawn" (40_bit_reader.md R118). -/
abbrev State.portsAnswer (s : State) (n : Nat) : Prop := ∀ k < n, s.ioAnswer k = true

/-- The word address reaches a pixel: `a < H²` and the grid is not empty (42_word_access.md R155 a). -/
abbrev State.reaches (s : State) (a : Nat) : Prop :=
  s.imgW.toNat ≠ 0 ∧ a < s.imgH.toNat * s.imgH.toNat

/-- The one-to-one capacity CAP in words: H² if W ≥ H, else W (42_word_access.md R155 e). -/
def capacity (w h : Nat) : Nat := if h ≤ w then h * h else w

/-- The number of words an embed of n bytes uses: 9 + ceil(8·n / 7) (43_stream.md R171). -/
def wordsUsed (n : Nat) : Nat := Config.headerWords + (8 * n + 6) / 7

/-- No destination append has failed since BW_OPEN (10_state.md R27), as the record shows it: the first
fault is not a failed append. -/
abbrev State.noAppendFailed (s : State) : Prop :=
  ¬ (s.fltValid = true ∧ s.fltCode = .ioError ∧ s.fltSub = subDstWrite)

/-! ## Bits and words -/

/-- Bit p of the source stream: bit (p mod 8) of byte (p div 8) (20_memory.md R54). -/
def srcBit (s : State) (p : Nat) : Bool := (Memory.read s.src (p / 8)).getLsbD (p % 8)

/-- Bit p of a destination: bit (p mod 8) of byte (p div 8) (20_memory.md R55), false past its end. -/
def dstBit (bytes : List Byte) (p : Nat) : Bool := (bytes.getD (p / 8) 0).getLsbD (p % 8)

/-- The pixel a word address selects under the bound image's width and height (42_word_access.md R150). -/
def pixelAt (s : State) (a : Nat) : Pixel := pixRead (a % s.imgW.toNat) (a / s.imgH.toNat) s

/-- The word at a word address. -/
def wordAt (s : State) (a : Nat) : PixWord := pack (pixelAt s a)

/-- Two word addresses select the same pixel under the bound image's width and height: they alias
(42_word_access.md R155 d). -/
abbrev State.samePixel (s : State) (a b : Nat) : Prop :=
  a % s.imgW.toNat = b % s.imgW.toNat ∧ a / s.imgH.toNat = b / s.imgH.toNat

/-- Bit j of the word that an embed of n bytes from bit 0 writes at address a: header bits, then source bits
(43_stream.md R170, R173). -/
def embeddedBit (s : State) (n a j : Nat) : Bool :=
  if a < Config.bodyBase then n.testBit (7 * a + j) else srcBit s (7 * (a - Config.bodyBase) + j)

/-- The header value that words 0..8 hold: Σ word(i) << 7i (43_stream.md R172). -/
def headerOf (s : State) : Nat :=
  (List.range Config.headerWords).foldl (fun h i => h + (wordAt s i).toNat * 2 ^ (7 * i)) 0

/-- Bit j of the payload an image carries: word 9 + (j div 7), bit (j mod 7) (20_memory.md R59). -/
def payloadBit (s : State) (j : Nat) : Bool :=
  (wordAt s (Config.bodyBase + j / 7)).getLsbD (j % 7)

/-- The byte of the last cell listed for an address, 0 if none is (log 18). -/
def lastListed (cells : List Host.Cell) (a : Nat) : Byte :=
  match cells.reverse.find? (fun c => c.1 == a) with
  | some c => c.2
  | none => 0

/-- How many source bits a successful read command consumes (40_bit_reader.md R115, R116). -/
def bitsRead : Instr → Nat
  | .brOpen => 0
  | .brSize => 0
  | .brReadBit => 1
  | .brReadBits len => len.toNat
  | .brClose => 0
  | .bwOpen => 0
  | .bwWriteBit _ => 0
  | .bwWriteBits _ _ => 0
  | .bwFinish => 0
  | .wsBind => 0
  | .wsReadWord _ => 0
  | .wsWriteWord _ _ => 0
  | .wsWriteStream => 0
  | .wsReadStream => 0
  | .wsIntoInner => 0

/-- The bits a write command appends, in the order written (41_bit_writer.md R134, R135). -/
def bitsWritten : Instr → List Bool
  | .brOpen => []
  | .brSize => []
  | .brReadBit => []
  | .brReadBits _ => []
  | .brClose => []
  | .bwOpen => []
  | .bwWriteBit bit => [bit]
  | .bwWriteBits byte len => (List.range len.toNat).map byte.getLsbD
  | .bwFinish => []
  | .wsBind => []
  | .wsReadWord _ => []
  | .wsWriteWord _ _ => []
  | .wsWriteStream => []
  | .wsReadStream => []
  | .wsIntoInner => []

/-! ## Frames -/

/-- s with the response of t: RSP_CODE and RESULT. -/
def State.withResponse (s t : State) : State :=
  { s with rspCode := t.rspCode, result := t.result }

/-- s with the response and the fault record of t (what every command may write, 40_bit_reader.md). -/
def State.withOutcome (s t : State) : State :=
  { s.withResponse t with
    fltValid := t.fltValid
    fltCode := t.fltCode
    fltUnit := t.fltUnit
    fltSub := t.fltSub
    fltOpc := t.fltOpc
    fltInfo := t.fltInfo }

/-- s with the environment's bookkeeping of t: the answers drawn (log 5). -/
def State.withDraws (s t : State) : State :=
  { s with ioAnswers := t.ioAnswers, ioDraws := t.ioDraws }

/-! ## Runs of commands -/

/-- The commands of a list one after the other, stopping where one does not answer. -/
def runAll : List Instr → State → Result
  | [], s => .next s
  | i :: is, s =>
    match exec i s with
    | .next t => runAll is t
    | .fault r => .fault r
    | .refused r => .refused r

/-- The commands of a list one after the other, with the RESULT of each. -/
def runResults : List Instr → State → Option (List (BitVec 64) × State)
  | [], s => some ([], s)
  | i :: is, s =>
    match exec i s with
    | .next t => (runResults is t).map fun (vs, u) => (t.result :: vs, u)
    | .fault _ => none
    | .refused _ => none

/-! ## The invariant -/

/-- What holds in every state that a run reaches, whatever the host and the environment do. -/
structure State.Inv (s : State) : Prop where
  /-- The image memory is in canonical form. -/
  pixWf : Memory.wf s.pix
  /-- The source memory is in canonical form. -/
  srcWf : Memory.wf s.src
  /-- SRC_SIZE is the size of the open file (10_state.md R23, under 70 R236 a). -/
  sourceLatched : s.brState = .open → s.srcSize = s.srcLen
  /-- RD_POS never passes 8·SRC_SIZE (10_state.md R22). -/
  readerBounded : s.rdPos.toNat ≤ 8 * s.srcSize.toNat
  /-- IMG_W and IMG_H are the bound image's (10_state.md R29, under 70 R236 a). -/
  imageLatched : s.wsState ≠ .unbound → s.imgW = s.pixW ∧ s.imgH = s.pixH
  /-- "the destination holds exactly WR_POS div 8 bytes" (10_state.md R27 a). -/
  destinationCount : s.bwState = .open → s.noAppendFailed → s.dst.length = s.wrPos.toNat / 8
  /-- "no bit of WR_ACC at or above the next write position is set" (10_state.md R27 b). -/
  accumulatorLow : s.bwState = .open → s.noAppendFailed → s.wrAcc.toNat < 2 ^ (s.wrPos.toNat % 8)
  /-- FATAL comes with a recorded fault and a closed writer (41_bit_writer.md R136). -/
  fatalRecorded : s.fatal = true → s.fltValid = true ∧ s.bwState = .closed
  /-- No fault recorded: the record is all zero (10_state.md R41). -/
  recordEmpty : s.fltValid = false →
    s.fltCode = .ok ∧ s.fltUnit = .sequencer ∧ s.fltSub = 0 ∧ s.fltOpc = 0 ∧ s.fltInfo = 0
  /-- A recorded code is one of the seven fault codes (60_exceptions.md R201). -/
  recordedFault : s.fltValid = true → s.fltCode ≠ .ok ∧ s.fltCode ≠ .refused ∧ s.fltCode ≠ .halted
  /-- "On a fault, REFUSED or HALTED, RESULT is 0" (10_state.md R34). -/
  resultZero : s.rspCode ≠ .ok → s.result = 0
  /-- XFER_REM is 0..6 (43_stream.md R171). -/
  remainderSmall : s.xferRem.toNat ≤ 6

end Sys2Proof.Machine
end

