-- ==== Sys2Proof/Certificates/Slice0/Obligations.lean ====
section
/-! DEFINITION. The statements for the provers, one per heading of OBLIGATIONS.json, each citing the rules
of spec/ it formalises. -/

open Sys2Proof Sys2Proof.Machine

/-! ## Encoding (30_encoding.md) -/

/-- R97, R99: decoding the transaction an instruction encodes to gives the instruction, for every
instruction and every operand value. -/
def Obligations.DecodeOfEncodeIsTheInstruction : Prop :=
  ∀ i : Instr, decode (encode i).1 (encode i).2 = .ok i

/-- R98: "Every encoding is either one row of rule R92 or illegal": a CMD that decodes is the CMD its
instruction encodes to, so no bit of CMD is dropped. -/
def Obligations.DecodedCmdIsTheEncoding : Prop :=
  ∀ (cmd : CmdWord) (arg : ArgWord) (i : Instr), decode cmd arg = .ok i → (encode i).1 = cmd

/-- R97: "at most one row matches". -/
def Obligations.AtMostOneRowMatches : Prop :=
  ∀ (cmd : CmdWord) (r r' : OpRow), r ∈ opcodeTable → r' ∈ opcodeTable →
    r.matches cmd = true → r'.matches cmd = true → r = r'

/-- R97: an unassigned OPC, a set reserved bit, or an operand bit that the opcode does not use is
illegal, and a CMD with none of the three decodes. Which bits an opcode uses is R93's table. -/
def Obligations.IllegalExactlyInTheThreeCases : Prop :=
  let assigned : List (BitVec 8 × CmdWord) :=
    [ (0x01, 0), (0x02, 0), (0x03, 0), (0x04, 0x00000F00), (0x05, 0),
      (0x11, 0), (0x12, 0x00010000), (0x13, 0x00FF0F00), (0x14, 0),
      (0x21, 0), (0x22, 0), (0x23, 0x007F0000), (0x24, 0), (0x25, 0), (0x26, 0) ]
  ∀ (cmd : CmdWord) (arg : ArgWord),
    (∃ i, decode cmd arg = .ok i) ↔
      ∃ row ∈ assigned, cmd.extractLsb' 0 8 = row.1 ∧ cmd &&& ~~~(row.2 ||| 0x000000FF#32) = 0#32

/-- R90, 93 U16: "Every other command ignores ARG". -/
def Obligations.ArgIsIgnoredByOtherCommands : Prop :=
  ∀ (cmd : CmdWord) (arg arg' : ArgWord) (i : Instr), decode cmd arg = .ok i →
    (∀ a, i ≠ .wsReadWord a) → (∀ a w, i ≠ .wsWriteWord a w) → decode cmd arg' = .ok i

/-- R101: the spec's encoding examples, the illegal ones among them. -/
def Obligations.EncodingExamplesDecode : Prop :=
  decode 0x00000001#32 0 = .ok .brOpen ∧
  decode 0x00000704#32 0 = .ok (.brReadBits 7) ∧
  decode 0x00010012#32 0 = .ok (.bwWriteBit true) ∧
  decode 0x00AB0813#32 0 = .ok (.bwWriteBits 0xAB 8) ∧
  decode 0x00050313#32 0 = .ok (.bwWriteBits 0x05 3) ∧
  decode 0x00000022#32 9 = .ok (.wsReadWord 9) ∧
  decode 0x007F0023#32 10 = .ok (.wsWriteWord 10 0x7F) ∧
  decode 0x00000024#32 0 = .ok .wsWriteStream ∧
  (∀ i, decode 0x00000000#32 0 ≠ .ok i) ∧
  (∀ i, decode 0x00020012#32 0 ≠ .ok i) ∧
  (∀ i, decode 0x00000101#32 0 ≠ .ok i) ∧
  decode 0x00000004#32 0 = .ok (.brReadBits 0)

/-- R99: what the operand formats assemble to, as numbers, and that an operand outside its range does
not assemble. -/
def Obligations.AssemblerWritesTheOperandFields : Prop :=
  (∀ len, (Asm.brReadBits len).assemble =
    if len ≤ 15 then some (BitVec.ofNat 32 (len * 2 ^ 8 + 0x04), 0) else none) ∧
  (∀ bit, (Asm.bwWriteBit bit).assemble =
    if bit ≤ 1 then some (BitVec.ofNat 32 (bit * 2 ^ 16 + 0x12), 0) else none) ∧
  (∀ byte len, (Asm.bwWriteBits byte len).assemble =
    if byte ≤ 255 ∧ len ≤ 15 then some (BitVec.ofNat 32 (byte * 2 ^ 16 + len * 2 ^ 8 + 0x13), 0) else none) ∧
  (∀ addr, (Asm.wsReadWord addr).assemble =
    if addr < 2 ^ 64 then some (BitVec.ofNat 32 0x22, BitVec.ofNat 64 addr) else none) ∧
  (∀ addr word, (Asm.wsWriteWord addr word).assemble =
    if addr < 2 ^ 64 ∧ word ≤ 127 then
      some (BitVec.ofNat 32 (word * 2 ^ 16 + 0x23), BitVec.ofNat 64 addr) else none)

/-! ## The step, the host port and reset -/

/-- R90, R205: when the host's next move is a transaction that decodes to i, the step writes CMD and ARG
and is exec of i there. -/
def Obligations.StepRunsTheDecodedCommand : Prop :=
  ∀ (s : State) (cmd : CmdWord) (arg : ArgWord) (rest : List HostMove) (i : Instr),
    s.port = .command cmd arg :: rest → decode cmd arg = .ok i →
    step s = exec i { s with port := rest, cmd := cmd, arg := arg }

/-- R205 steps 1 and 2: an illegal CMD is HALTED when FATAL = 1, REFUSED when a fault is recorded, and
else recorded as ILLEGAL_CMD with unit 0, sub 0 and info CMD. -/
def Obligations.IllegalCommandAnswers : Prop :=
  ∀ (s : State) (cmd : CmdWord) (arg : ArgWord) (rest : List HostMove) (e : IllegalCmd),
    s.port = .command cmd arg :: rest → decode cmd arg = .error e →
    let u : State := { s with port := rest, cmd := cmd, arg := arg }
    (s.fatal = true → step s = .next { u with rspCode := .halted, result := 0 }) ∧
    (s.fatal = false → s.fltValid = true → step s = .next { u with rspCode := .refused, result := 0 }) ∧
    (s.fatal = false → s.fltValid = false → step s = .next
      { u with
        fltValid := true
        fltCode := .illegalCmd
        fltUnit := .sequencer
        fltSub := 0
        fltOpc := cmd.extractLsb' 0 8
        fltInfo := cmd.setWidth 67
        rspCode := .illegalCmd
        result := 0 })

/-- R230, R231, R41: a reset by the host, in any state, sets every register to its reset value and
leaves PIX, the source and the destination alone; and it is the only way to clear FLT_VALID and FATAL. (CMD
and ARG, which R41 leaves unspecified, are not mentioned.) -/
def Obligations.HostResetClearsRegistersAndKeepsMemories : Prop :=
  (∀ s t : State, step s = .next t →
    (s.fltValid = true ∧ t.fltValid = false) ∨ (s.fatal = true ∧ t.fatal = false) →
    ∃ rest, s.port = .reset :: rest) ∧
  ∀ (s : State) (rest : List HostMove), s.port = .reset :: rest →
    ∃ t, step s = .next t ∧
      t.brState = .closed ∧ t.rdPos = 0 ∧ t.srcSize = 0 ∧
      t.bwState = .closed ∧ t.wrPos = 0 ∧ t.wrAcc = 0 ∧
      t.wsState = .unbound ∧ t.imgW = 0 ∧ t.imgH = 0 ∧ t.hdrLen = 0 ∧
      t.xferCount = 0 ∧ t.xferRem = 0 ∧ t.xferIdx = 0 ∧
      t.rspCode = .ok ∧ t.result = 0 ∧
      t.fltValid = false ∧ t.fltCode = .ok ∧ t.fltUnit = .sequencer ∧ t.fltSub = 0 ∧ t.fltOpc = 0 ∧
      t.fltInfo = 0 ∧ t.fatal = false ∧
      t.pixW = s.pixW ∧ t.pixH = s.pixH ∧ t.pix = s.pix ∧ t.srcLen = s.srcLen ∧ t.src = s.src ∧
      t.dst = s.dst ∧ t.hdrOvf = s.hdrOvf ∧ t.finalFill = s.finalFill ∧ t.port = rest

/-- The model's choice (log 1, log 10, log 18): with no move to come a step changes nothing; the host's moves
on the ports' contents are refused while the owning unit is open or bound, and else give the port the new
contents, the byte of the last listed cell at every address inside the image or file and 0 elsewhere, and
change nothing else. -/
def Obligations.HostMovesRespectOwnership : Prop :=
  (∀ s : State, s.port = [] → step s = .next s) ∧
  (∀ (s : State) (rest : List HostMove) (w h : BitVec 32) (cells : List Host.Cell),
    s.port = .setImage w h cells :: rest →
    (s.wsState ≠ .unbound → step s = .refused .hostDutyBroken) ∧
    (s.wsState = .unbound → ∃ t, step s = .next t ∧
      t = { s with port := rest, pixW := w, pixH := h, pix := t.pix } ∧ Memory.wf t.pix ∧
      (∀ x y c, x < w.toNat → y < h.toNat → c < 3 →
        Memory.read t.pix (pixelAddr x y + c) = lastListed cells (pixelAddr x y + c)) ∧
      ∀ a, (∀ x y, x < w.toNat → y < h.toNat → a < pixelAddr x y ∨ pixelAddr x y + 3 ≤ a) →
        Memory.read t.pix a = 0)) ∧
  (∀ (s : State) (rest : List HostMove) (size : BitVec 64) (cells : List Host.Cell),
    s.port = .setSource size cells :: rest →
    (s.brState = .open → step s = .refused .hostDutyBroken) ∧
    (s.brState = .closed → ∃ t, step s = .next t ∧
      t = { s with port := rest, srcLen := size, src := t.src } ∧ Memory.wf t.src ∧
      ∀ i, Memory.read t.src i = if i < size.toNat then lastListed cells i else 0)) ∧
  (∀ (s : State) (rest : List HostMove) (bytes : List Byte),
    s.port = .setDestination bytes :: rest →
    (s.bwState = .open → step s = .refused .hostDutyBroken) ∧
    (s.bwState = .closed → step s = .next { s with port := rest, dst := bytes }))

/-- R37: the fields of STATUS, bit by bit, "Reserved bits read 0"; and the numbers that stand in its code
fields: the response and fault codes (R201), the units (R202) and the codes of WS_STATE (R28). -/
def Obligations.StatusLayout : Prop :=
  (([.ok, .ioError, .contract, .finalizeFail, .illegalCmd, .stateError, .addrRange, .hdrOverflow, .refused,
      .halted] : List RspCode).map fun c => c.code.toNat) = [0, 1, 2, 3, 4, 5, 6, 7, 8, 9] ∧
  (([.sequencer, .br, .bw, .ws] : List FltUnit).map fun u => u.code.toNat) = [0, 1, 2, 3] ∧
  ([.unbound, .idle, .hdrWritten, .bodyWritten, .hdrRead, .bodyStreamed].map WsState.code) =
    [0, 1, 2, 3, 4, 5] ∧
  ∀ s : State,
    (status s).extractLsb' 0 4 = s.rspCode.code ∧
    (status s).getLsbD 4 = s.fltValid ∧
    (status s).getLsbD 5 = s.fatal ∧
    ((status s).getLsbD 6 = true ↔ s.brState = .open) ∧
    ((status s).getLsbD 7 = true ↔ s.bwState = .open) ∧
    ((status s).extractLsb' 8 3).toNat = s.wsState.code ∧
    (status s).getLsbD 11 = false ∧
    (status s).extractLsb' 12 4 = s.fltCode.code ∧
    (status s).extractLsb' 16 2 = s.fltUnit.code ∧
    (status s).extractLsb' 18 2 = s.fltSub ∧
    (status s).extractLsb' 20 8 = s.fltOpc ∧
    (status s).extractLsb' 28 4 = 0#4

/-! ## Faults and the order of checks (60_exceptions.md) -/

/-- R206: fault entry keeps the first fault only, answers the code with RESULT 0, "saves nothing else", and
ends the command: no later micro-step runs. -/
def Obligations.FaultEntryKeepsTheFirstFault : Prop :=
  ∀ (code : RspCode) (unit : FltUnit) (sub : BitVec 2) (info : Nat) (s : State),
    (s.fltValid = false → faultEntry code unit sub info s =
      { s with
        fltValid := true
        fltCode := code
        fltUnit := unit
        fltSub := sub
        fltOpc := s.cmd.extractLsb' 0 8
        fltInfo := BitVec.ofNat 67 info
        rspCode := code
        result := 0 }) ∧
    (s.fltValid = true → faultEntry code unit sub info s = { s with rspCode := code, result := 0 }) ∧
    ∀ (later : Unit → State → Micro Unit) (v : Unit → BitVec 64),
      ((raise code unit sub info s).andThen later).finish v = .next (faultEntry code unit sub info s)

/-- R204: a transaction, legal or not, that answers REFUSED or HALTED "has no effect except RSP_CODE and
RESULT = 0" (CMD and ARG hold the transaction). -/
def Obligations.RefusedAndHaltedHaveNoEffect : Prop :=
  ∀ (s t : State) (cmd : CmdWord) (arg : ArgWord) (rest : List HostMove),
    s.port = .command cmd arg :: rest → step s = .next t → t.rspCode ∈ [.refused, .halted] →
    t = { s with port := rest, cmd := cmd, arg := arg, rspCode := t.rspCode, result := 0 }

/-- R36, R209, R204: while FATAL = 1 every command answers HALTED and has no other effect. -/
def Obligations.FatalHaltsEveryCommand : Prop :=
  ∀ (i : Instr) (s : State), s.fatal = true →
    exec i s = .next { s with rspCode := .halted, result := 0 }

/-- R208, R204: while FLT_VALID = 1 and FATAL = 0 every command but BW_FINISH, BR_CLOSE and
WS_INTO_INNER answers REFUSED and has no other effect. -/
def Obligations.RecordedFaultRefusesOtherCommands : Prop :=
  ∀ (i : Instr) (s : State), s.fatal = false → s.fltValid = true →
    i ≠ .bwFinish → i ≠ .brClose → i ≠ .wsIntoInner →
    exec i s = .next { s with rspCode := .refused, result := 0 }

/-- R33, R205 step 4: each command in a unit state that the table does not admit raises STATE_ERROR with
the unit checked and its state code, before anything else about the command is looked at. -/
def Obligations.WrongUnitStateRaisesStateError : Prop :=
  ∀ (i : Instr) (s : State), s.ready →
    let err (unit : FltUnit) (code : Nat) : Prop :=
      exec i s = .next (faultEntry .stateError unit 0 code s)
    (i = .brOpen → s.brState = .open → err .br 1) ∧
    (i.op ∈ [.brSize, .brReadBit, .brReadBits, .brClose] → s.brState = .closed → err .br 0) ∧
    (i = .bwOpen → s.bwState = .open → err .bw 1) ∧
    (i.op ∈ [.bwWriteBit, .bwWriteBits, .bwFinish] → s.bwState = .closed → err .bw 0) ∧
    (i = .wsBind → s.wsState ≠ .unbound → err .ws s.wsState.code) ∧
    (i.op ∈ [.wsReadWord, .wsWriteWord, .wsIntoInner] → s.wsState = .unbound → err .ws 0) ∧
    (i.op ∈ [.wsWriteStream, .wsReadStream] → s.wsState ≠ .idle → err .ws s.wsState.code) ∧
    (i = .wsWriteStream → s.wsState = .idle → s.brState = .closed → err .br 0) ∧
    (i = .wsReadStream → s.wsState = .idle → s.bwState = .closed → err .bw 0)

/-- R208: a cleanup command after a recorded fault, in a unit state that does not admit it, answers
STATE_ERROR and leaves the record unchanged. -/
def Obligations.CleanupInWrongStateKeepsTheRecord : Prop :=
  ∀ s : State, s.fatal = false → s.fltValid = true →
    (s.bwState = .closed → exec .bwFinish s = .next { s with rspCode := .stateError, result := 0 }) ∧
    (s.brState = .closed → exec .brClose s = .next { s with rspCode := .stateError, result := 0 }) ∧
    (s.wsState = .unbound → exec .wsIntoInner s = .next { s with rspCode := .stateError, result := 0 })

/-- R35, R206, R208: the record changes only when it was empty and the command answers a fault, and then
holds that answer and CMD[7:0]; and RESULT is 0 unless the answer is OK (R34). -/
def Obligations.RecordChangesOnlyAtTheFirstFault : Prop :=
  ∀ (i : Instr) (s t : State), exec i s = .next t →
    (t.rspCode ≠ .ok → t.result = 0) ∧
    (s.fltValid = true ∨ t.rspCode ∈ [.ok, .refused, .halted] →
      t.fltValid = s.fltValid ∧ t.fltCode = s.fltCode ∧ t.fltUnit = s.fltUnit ∧ t.fltSub = s.fltSub ∧
      t.fltOpc = s.fltOpc ∧ t.fltInfo = s.fltInfo) ∧
    (s.fltValid = false → t.rspCode ∉ [.ok, .refused, .halted] →
      t.fltValid = true ∧ t.fltCode = t.rspCode ∧ t.fltOpc = s.cmd.extractLsb' 0 8)

/-- R36, R209: only a BW_FINISH that answers FINALIZE_FAIL sets FATAL, the writer is then closed, and no
command clears FATAL. -/
def Obligations.OnlyFailedFinishSetsFatal : Prop :=
  ∀ (i : Instr) (s t : State), exec i s = .next t →
    (s.fatal = true → t.fatal = true) ∧
    (s.fatal = false → (t.fatal = true ↔ i = .bwFinish ∧ t.rspCode = .finalizeFail)) ∧
    (s.fatal = false → t.fatal = true → t.bwState = .closed)

/-- R246, with 93 U6 as the hypothesis: every command answers, in every state whose write position is
at most 2^66 (so that even an extraction of 8·(2^63 - 1) bits stays below 2^67). -/
def Obligations.EveryCommandAnswers : Prop :=
  ∀ (i : Instr) (s : State), s.wrPos.toNat ≤ 2 ^ 66 → ∃ t, exec i s = .next t

/-! ## The bit reader (40_bit_reader.md) -/

/-- R113: BR_OPEN, on success and on a failed open. -/
def Obligations.BrOpenBindsTheSource : Prop :=
  ∀ s : State, s.ready → s.brState = .closed →
    (s.ioAnswer 0 = true → exec .brOpen s = .next
      { s.afterDraws 1 with
        srcSize := s.srcLen
        rdPos := 0
        brState := .open
        rspCode := .ok
        result := 0 }) ∧
    (s.ioAnswer 0 = false → exec .brOpen s = .next (faultEntry .ioError .br 0 0 (s.afterDraws 1)))

/-- R114: BR_SIZE answers the latched size and changes nothing else. -/
def Obligations.BrSizeAnswersTheLatchedSize : Prop :=
  ∀ s : State, s.ready → s.brState = .open →
    exec .brSize s = .next { s with rspCode := .ok, result := s.srcSize }

/-- R111, R115, R54: BR_READ_BIT: the bit at RD_POS, end of file, and a failed port, whichever holds. -/
def Obligations.BrReadBitReadsTheBitAtRdPos : Prop :=
  ∀ s : State, s.ready → s.brState = .open →
    (s.rdPos.toNat < 8 * s.srcSize.toNat → s.ioAnswer 0 = true → exec .brReadBit s = .next
      { s.afterDraws 1 with
        rdPos := BitVec.ofNat 67 (s.rdPos.toNat + 1)
        rspCode := .ok
        result := if srcBit s s.rdPos.toNat then 1 else 0 }) ∧
    (8 * s.srcSize.toNat ≤ s.rdPos.toNat →
      exec .brReadBit s = .next (faultEntry .ioError .br 1 s.rdPos.toNat s)) ∧
    (s.rdPos.toNat < 8 * s.srcSize.toNat → s.ioAnswer 0 = false →
      exec .brReadBit s = .next (faultEntry .ioError .br 2 s.rdPos.toNat (s.afterDraws 1)))

/-- R112, R116, R56: BR_READ_BITS reads LEN bits, bit 0 first, the higher bits of RESULT zero. -/
def Obligations.BrReadBitsReadsTheGroup : Prop :=
  ∀ (s : State) (len : BitVec 4), s.ready → s.brState = .open → 1 ≤ len.toNat → len.toNat ≤ 8 →
    s.rdPos.toNat + len.toNat ≤ 8 * s.srcSize.toNat → s.portsAnswer len.toNat →
    ∃ v : BitVec 64, exec (.brReadBits len) s = .next
        { s.afterDraws len.toNat with
          rdPos := BitVec.ofNat 67 (s.rdPos.toNat + len.toNat)
          rspCode := .ok
          result := v } ∧
      ∀ j, v.getLsbD j = (decide (j < len.toNat) && srcBit s (s.rdPos.toNat + j))

/-- R116, R112, R207: a group that runs off the end of the file, or whose k-th source read fails, faults
there; the bits read before it stay consumed. -/
def Obligations.BrReadBitsFaultsAtTheFirstBadBit : Prop :=
  ∀ (s : State) (len : BitVec 4) (k : Nat), s.ready → s.brState = .open → len.toNat ≤ 8 → k < len.toNat →
    s.portsAnswer k →
    (s.rdPos.toNat + k = 8 * s.srcSize.toNat → exec (.brReadBits len) s = .next
      (faultEntry .ioError .br 1 (s.rdPos.toNat + k)
        { s.afterDraws k with rdPos := BitVec.ofNat 67 (s.rdPos.toNat + k) })) ∧
    (s.rdPos.toNat + k < 8 * s.srcSize.toNat → s.ioAnswer k = false → exec (.brReadBits len) s = .next
      (faultEntry .ioError .br 2 (s.rdPos.toNat + k)
        { s.afterDraws (k + 1) with rdPos := BitVec.ofNat 67 (s.rdPos.toNat + k) }))

/-- R94, R116, R135: an illegal LEN raises CONTRACT before any bit is read or written. -/
def Obligations.IllegalGroupLengthRaisesContract : Prop :=
  ∀ (s : State) (len : BitVec 4) (byte : Byte), s.ready → len.toNat = 0 ∨ 9 ≤ len.toNat →
    (s.brState = .open →
      exec (.brReadBits len) s = .next (faultEntry .contract .br 0 len.toNat s)) ∧
    (s.bwState = .open →
      exec (.bwWriteBits byte len) s = .next (faultEntry .contract .bw 0 len.toNat s))

/-- R117, R208: BR_CLOSE closes the reader, also after a recorded fault, and changes nothing else. -/
def Obligations.BrCloseEndsTheReader : Prop :=
  ∀ s : State, s.fatal = false → s.brState = .open →
    exec .brClose s = .next { s with brState := .closed, rspCode := .ok, result := 0 }

/-- R118 (a) and (b), bit by bit, for any mix of BR_READ_BIT and BR_READ_BITS: each read returns the source
bits from the position that the reads before it reached. (An embed takes part in R118 (a)'s mix only as
EmbedEndState says: it reads the whole file.) -/
def Obligations.GroupsReadInSequenceFollowTheSource : Prop :=
  ∀ (reads : List Instr) (s : State), s.ready → s.brState = .open →
    (∀ i ∈ reads, i = .brReadBit ∨ ∃ len : BitVec 4, i = .brReadBits len ∧ 1 ≤ len.toNat ∧ len.toNat ≤ 8) →
    s.rdPos.toNat + (reads.map bitsRead).sum ≤ 8 * s.srcSize.toNat →
    s.portsAnswer (reads.map bitsRead).sum →
    ∃ vs t, runResults reads s = some (vs, t) ∧ vs.length = reads.length ∧
      t.rdPos.toNat = s.rdPos.toNat + (reads.map bitsRead).sum ∧
      ∀ (k : Nat) (v : BitVec 64) (i : Instr), vs[k]? = some v → reads[k]? = some i → ∀ j,
        v.getLsbD j = (decide (j < bitsRead i) &&
          srcBit s (s.rdPos.toNat + ((reads.take k).map bitsRead).sum + j))

/-! ## The bit writer (41_bit_writer.md) -/

/-- R133: BW_OPEN on success; on a failed open BW_STATE, WR_POS and WR_ACC are unchanged, and nothing is
said of DST (93 U8). -/
def Obligations.BwOpenTruncatesTheDestination : Prop :=
  ∀ s : State, s.ready → s.bwState = .closed →
    (s.ioAnswer 0 = true → exec .bwOpen s = .next
      { s.afterDraws 1 with
        dst := []
        wrPos := 0
        wrAcc := 0
        bwState := .open
        rspCode := .ok
        result := 0 }) ∧
    (s.ioAnswer 0 = false → ∃ dst,
      exec .bwOpen s = .next (faultEntry .ioError .bw 0 0 { s.afterDraws 1 with dst := dst }))

/-- R131, R134: BW_WRITE_BIT inside a byte, and at the end of a byte with a flush that succeeds or
fails. -/
def Obligations.BwWriteBitAccumulatesAndFlushes : Prop :=
  ∀ (s : State) (bit : Bool), s.ready → s.bwState = .open → s.wrPos.toNat + 1 < 2 ^ 67 →
    let acc : Byte := s.wrAcc ||| BitVec.ofNat 8 (bit.toNat * 2 ^ (s.wrPos.toNat % 8))
    let pos : BitPos := BitVec.ofNat 67 (s.wrPos.toNat + 1)
    (s.wrPos.toNat % 8 ≠ 7 → exec (.bwWriteBit bit) s = .next
      { s with wrAcc := acc, wrPos := pos, rspCode := .ok, result := 0 }) ∧
    (s.wrPos.toNat % 8 = 7 → s.ioAnswer 0 = true → exec (.bwWriteBit bit) s = .next
      { s.afterDraws 1 with
        dst := s.dst ++ [acc]
        wrAcc := 0
        wrPos := pos
        rspCode := .ok
        result := 0 }) ∧
    (s.wrPos.toNat % 8 = 7 → s.ioAnswer 0 = false → exec (.bwWriteBit bit) s = .next
      (faultEntry .ioError .bw 3 (s.wrPos.toNat + 1) { s.afterDraws 1 with wrAcc := acc, wrPos := pos }))

/-- R132, R135, R55: BW_WRITE_BITS puts the low LEN bits of the byte above the bits of WR_ACC; the byte
completed on the way is appended, and a failed append leaves it in WR_ACC. -/
def Obligations.BwWriteBitsAppendsTheCompletedByte : Prop :=
  ∀ (s : State) (byte : Byte) (len : BitVec 4), s.ready → s.bwState = .open →
    1 ≤ len.toNat → len.toNat ≤ 8 → s.wrPos.toNat + len.toNat < 2 ^ 67 →
    let off := s.wrPos.toNat % 8
    let all := s.wrAcc.toNat ||| (byte.toNat % 2 ^ len.toNat) * 2 ^ off
    (off + len.toNat < 8 → exec (.bwWriteBits byte len) s = .next
      { s with
        wrAcc := BitVec.ofNat 8 all
        wrPos := BitVec.ofNat 67 (s.wrPos.toNat + len.toNat)
        rspCode := .ok
        result := 0 }) ∧
    (8 ≤ off + len.toNat → s.ioAnswer 0 = true → exec (.bwWriteBits byte len) s = .next
      { s.afterDraws 1 with
        dst := s.dst ++ [BitVec.ofNat 8 all]
        wrAcc := BitVec.ofNat 8 (all / 2 ^ 8)
        wrPos := BitVec.ofNat 67 (s.wrPos.toNat + len.toNat)
        rspCode := .ok
        result := 0 }) ∧
    (8 ≤ off + len.toNat → s.ioAnswer 0 = false → exec (.bwWriteBits byte len) s = .next
      (faultEntry .ioError .bw 3 (s.wrPos.toNat + (8 - off))
        { s.afterDraws 1 with
          wrAcc := BitVec.ofNat 8 all
          wrPos := BitVec.ofNat 67 (s.wrPos.toNat + (8 - off)) }))

/-- R136, R208, R209: BW_FINISH appends the partial byte if and only if WR_POS mod 8 is not 0, closes the
writer and answers ceil(WR_POS / 8), also after a recorded fault; if that append fails it closes the
writer, sets FATAL and raises FINALIZE_FAIL with info WR_POS. -/
def Obligations.BwFinishFlushesOrFailsForGood : Prop :=
  ∀ s : State, s.fatal = false → s.bwState = .open → s.wrPos.toNat < 2 ^ 67 - 7 →
    (s.wrPos.toNat % 8 = 0 → exec .bwFinish s = .next
      { s with
        bwState := .closed
        rspCode := .ok
        result := BitVec.ofNat 64 ((s.wrPos.toNat + 7) / 8) }) ∧
    (s.wrPos.toNat % 8 ≠ 0 → s.ioAnswer 0 = true → exec .bwFinish s = .next
      { s.afterDraws 1 with
        dst := s.dst ++ [s.wrAcc]
        wrAcc := 0
        bwState := .closed
        rspCode := .ok
        result := BitVec.ofNat 64 ((s.wrPos.toNat + 7) / 8) }) ∧
    (s.wrPos.toNat % 8 ≠ 0 → s.ioAnswer 0 = false → exec .bwFinish s = .next
      (faultEntry .finalizeFail .bw 0 s.wrPos.toNat
        { s.afterDraws 1 with bwState := .closed, fatal := true }))

/-- R137: writing k bits into a fresh writer, by any mix of BW_WRITE_BIT and BW_WRITE_BITS, and finalizing
produces exactly ceil(k/8) bytes, bit t of the output is the t-th bit written, and the last byte's unused
high bits are zero. -/
def Obligations.WriterFlushLaw : Prop :=
  ∀ (writes : List Instr) (s : State), s.ready → s.bwState = .open → s.wrPos = 0 → s.wrAcc = 0 → s.dst = [] →
    (∀ i ∈ writes, (∃ bit, i = .bwWriteBit bit) ∨
      ∃ byte len, i = .bwWriteBits byte len ∧ 1 ≤ len.toNat ∧ len.toNat ≤ 8) →
    let bits := writes.flatMap bitsWritten
    bits.length < 2 ^ 67 - 7 → s.portsAnswer ((bits.length + 7) / 8) →
    ∃ t, runAll (writes ++ [.bwFinish]) s = .next t ∧
      t.rspCode = .ok ∧ t.result = BitVec.ofNat 64 ((bits.length + 7) / 8) ∧
      t.dst.length = (bits.length + 7) / 8 ∧
      ∀ p, dstBit t.dst p = bits.getD p false

/-- R138: groups written through the bit writer, then read back with the same sizes through the bit reader
from a source that holds the written bytes, give each group's low bits. -/
def Obligations.ReaderWriterDuality : Prop :=
  ∀ (groups : List (Byte × BitVec 4)) (s : State), s.ready → s.bwState = .open →
    s.wrPos = 0 → s.wrAcc = 0 → s.dst = [] →
    (∀ g ∈ groups, 1 ≤ g.2.toNat ∧ g.2.toNat ≤ 8) →
    (groups.map fun g => g.2.toNat).sum % 8 = 0 → (groups.map fun g => g.2.toNat).sum < 2 ^ 67 - 7 →
    s.portsAnswer ((groups.map fun g => g.2.toNat).sum / 8) →
    ∃ t, runAll ((groups.map fun g => Instr.bwWriteBits g.1 g.2) ++ [.bwFinish]) s = .next t ∧
      t.rspCode = .ok ∧
      ∀ u : State, u.ready → u.brState = .open → u.rdPos = 0 → u.srcSize.toNat = t.dst.length →
        (∀ i < t.dst.length, Memory.read u.src i = t.dst.getD i 0) →
        u.portsAnswer (groups.map fun g => g.2.toNat).sum →
        ∃ v, runResults (groups.map fun g => Instr.brReadBits g.2) u =
          some (groups.map fun g => BitVec.ofNat 64 (g.1.toNat % 2 ^ g.2.toNat), v)

/-! ## Word access (42_word_access.md) -/

/-- R156: WS_BIND latches the image's dimensions, clears HDR_LEN and XFER_*, and enters IDLE. -/
def Obligations.WsBindWrapsTheImage : Prop :=
  ∀ s : State, s.ready → s.wsState = .unbound →
    exec .wsBind s = .next
      { s with
        imgW := s.pixW
        imgH := s.pixH
        hdrLen := 0
        xferCount := 0
        xferRem := 0
        xferIdx := 0
        wsState := .idle
        rspCode := .ok
        result := 0 }

/-- R150, R151, R157: WS_READ_WORD of an address that exists answers red[2:0], green[1:0], blue[1:0] of the
pixel at x = a mod IMG_W, y = a div IMG_H, and changes nothing else. -/
def Obligations.WsReadWordPacksThePixel : Prop :=
  ∀ (s : State) (addr : ArgWord), s.ready → s.wsState ≠ .unbound →
    s.imgW ≠ 0 → addr.toNat < s.imgH.toNat * s.imgH.toNat →
    let p := pixRead (addr.toNat % s.imgW.toNat) (addr.toNat / s.imgH.toNat) s
    exec (.wsReadWord addr) s = .next
      { s with
        rspCode := .ok
        result := BitVec.ofNat 64 (p.r.toNat % 8 * 16 + p.g.toNat % 4 * 4 + p.b.toNat % 4) }

/-- R150, R152, R158, R63: WS_WRITE_WORD of an address that exists replaces the low 3/2/2 bits of that
pixel's channels and changes no other byte of PIX and nothing else. -/
def Obligations.WsWriteWordReplacesTheWordBits : Prop :=
  ∀ (s : State) (addr : ArgWord) (word : PixWord), s.ready → s.wsState ≠ .unbound →
    s.imgW ≠ 0 → addr.toNat < s.imgH.toNat * s.imgH.toNat →
    let x := addr.toNat % s.imgW.toNat
    let y := addr.toNat / s.imgH.toNat
    let p := pixRead x y s
    ∃ t, exec (.wsWriteWord addr word) s = .next t ∧
      t = { s with pix := t.pix, rspCode := .ok, result := 0 } ∧
      (pixRead x y t).r.toNat = p.r.toNat / 8 * 8 + word.toNat / 16 ∧
      (pixRead x y t).g.toNat = p.g.toNat / 4 * 4 + word.toNat / 4 % 4 ∧
      (pixRead x y t).b.toNat = p.b.toNat / 4 * 4 + word.toNat % 4 ∧
      ∀ a, a < pixelAddr x y ∨ pixelAddr x y + 3 ≤ a → Memory.read t.pix a = Memory.read s.pix a

/-- R150, R201, R207: a word address without a pixel raises ADDR_RANGE with info the address, EMPTY_GRID on
an empty grid and ROW otherwise, and touches no pixel. -/
def Obligations.WordAddressOutsideTheGridFaults : Prop :=
  ∀ (i : Instr) (s : State) (addr : ArgWord), s.ready → s.wsState ≠ .unbound →
    (i = .wsReadWord addr ∨ ∃ word, i = .wsWriteWord addr word) →
    (s.imgW = 0 ∨ s.imgH = 0 → exec i s = .next (faultEntry .addrRange .ws 1 addr.toNat s)) ∧
    (s.imgW ≠ 0 → s.imgH ≠ 0 → s.imgH.toNat * s.imgH.toNat ≤ addr.toNat →
      exec i s = .next (faultEntry .addrRange .ws 0 addr.toNat s))

/-- R159, R208: WS_INTO_INNER unbinds the image, also after a recorded fault, and changes nothing else. -/
def Obligations.WsIntoInnerReturnsTheImage : Prop :=
  ∀ s : State, s.fatal = false → s.wsState ≠ .unbound →
    exec .wsIntoInner s = .next { s with wsState := .unbound, rspCode := .ok, result := 0 }

/-- R160: Pack and Unpack invert each other (a to c); after a WS_WRITE_WORD, WS_READ_WORD of every address
that maps to the same pixel answers the word written (d); and writing back the word that was read leaves
every byte of PIX as it was. -/
def Obligations.WordPackingInverts : Prop :=
  (∀ p : Pixel, unpack p (pack p) = p) ∧
  (∀ (p : Pixel) (w : PixWord), pack (unpack p w) = w) ∧
  (∀ (p : Pixel) (w w' : PixWord), unpack (unpack p w) w' = unpack p w') ∧
  (∀ (s : State) (a a' : ArgWord) (w : PixWord) (xy : Nat × Nat), s.ready → s.wsState ≠ .unbound →
    mapAddr a.toNat s = .done xy s → mapAddr a'.toNat s = .done xy s →
    ∃ t, exec (.wsWriteWord a w) s = .next t ∧
      exec (.wsReadWord a') t = .next { t with rspCode := .ok, result := w.setWidth 64 }) ∧
  ∀ (s : State) (a : ArgWord) (xy : Nat × Nat), s.ready → s.wsState ≠ .unbound →
    mapAddr a.toNat s = .done xy s →
    ∃ t u, exec (.wsReadWord a) s = .next t ∧ t.result.toNat < 2 ^ 7 ∧
      exec (.wsWriteWord a (t.result.setWidth 7)) t = .next u ∧ u.rspCode = .ok ∧
      ∀ b, Memory.read u.pix b = Memory.read s.pix b

/-- R155: (a) an address reaches a pixel if and only if it is below H² on a non-empty grid, and the pixel
lies in the grid; (b) for W = H the mapping is row-major and reaches every pixel exactly once; (c) for W > H
different addresses reach different pixels, and row y's pixels reached are the columns
(y·H .. y·H + H - 1) mod W; (d) for W < H, a and a + W in one row block map to the same pixel, and (e) on
0 .. N - 1 the mapping is one-to-one if and only if N ≤ CAP. -/
def Obligations.MappingReachAndCapacity : Prop :=
  ∀ s : State,
    let W := s.imgW.toNat
    let H := s.imgH.toNat
    (∀ a, (∃ x y t, mapAddr a s = .done (x, y) t) ↔ W ≠ 0 ∧ a < H * H) ∧
    (∀ a x y t, mapAddr a s = .done (x, y) t → x < W ∧ y < H ∧ t = s) ∧
    (W = H → (∀ a, a < W * H → ∃ x y, mapAddr a s = .done (x, y) s ∧ a = y * W + x) ∧
      ∀ x y, x < W → y < H → ∃ a, a < W * H ∧ mapAddr a s = .done (x, y) s) ∧
    (H < W → (∀ a b, a < H * H → b < H * H → mapAddr a s = mapAddr b s → a = b) ∧
      ∀ x y, x < W → y < H → ((∃ a, mapAddr a s = .done (x, y) s) ↔ ∃ k < H, x = (y * H + k) % W)) ∧
    (W ≠ 0 → W < H → ∀ a y, y < H → y * H ≤ a → a + W < y * H + H → mapAddr (a + W) s = mapAddr a s) ∧
    (W ≠ 0 → H ≠ 0 → ∀ N, N ≤ H * H →
      ((∀ a b, a < N → b < N → mapAddr a s = mapAddr b s → a = b) ↔ N ≤ capacity W H))

/-! ## Header/body framing (43_stream.md) -/

/-- R171, R181: the count/remainder split of n bytes, the number of words it uses, and the bounds of the
counts and addresses. -/
def Obligations.SplitOfThePayload : Prop :=
  ∀ n, 7 * splitCount n + splitRem n = 8 * n ∧ splitRem n = n % 7 ∧ splitRem n ≤ 6 ∧
    9 + splitCount n + (if splitRem n ≠ 0 then 1 else 0) = wordsUsed n ∧
    (n < 2 ^ 63 → splitCount n < 2 ^ 64 ∧ 9 + splitCount n < 2 ^ 64) ∧
    (n < 2 ^ 64 → splitCount n < 2 ^ 65 ∧ 9 + splitCount n < 2 ^ 65)

/-- R173, R179, R185: a source of 2^63 bytes or more under REJECT raises HDR_OVERFLOW, and no word is
written. -/
def Obligations.OversizedSourceIsRejected : Prop :=
  ∀ s : State, s.ready → s.wsState = .idle → s.brState = .open → s.hdrOvf = .reject →
    2 ^ 63 ≤ s.srcSize.toNat →
    exec .wsWriteStream s = .next (faultEntry .hdrOverflow .ws 0 s.srcSize.toNat s)

/-- R179: writing n as the header and reading it back yields n, whenever words 0..8 reach nine distinct
pixels; nothing but PIX changes. -/
def Obligations.HeaderFidelity : Prop :=
  ∀ (s : State) (h : BitVec 63), 9 ≤ capacity s.imgW.toNat s.imgH.toNat →
    ∃ t, writeHeaderFrom Config.headerWords 0 h s = .done () t ∧ t = { s with pix := t.pix } ∧
      readHeaderFrom Config.headerWords 0 0 t = .done h t ∧
      ∀ i < 9, (wordAt t i).toNat = h.toNat / 2 ^ (7 * i) % 2 ^ 7

/-- R173, R174, R175, R237: the end state of an embed whose N words exist, with the reader at bit 0 (from a
later bit the source runs out, R239) and no port failing. It answers OK with RESULT and the header n. Of the
words that alias one pixel the later wins: the pixel holds the word of the last used address that maps to it,
header bits or source bits, and in the last word of all the unused bits are zero, or under KEEP what the pixel
held just before: the bits of the last word written there earlier, or the carrier's. Every other channel bit
and every other pixel is unchanged, and so is everything else. Where no two of the words alias (N ≤ CAP,
R155 e), that is R175: the header is n and payload bit j is source bit j. -/
def Obligations.EmbedEndState : Prop :=
  ∀ s : State, s.ready → s.wsState = .idle → s.brState = .open → s.srcSize.toNat < 2 ^ 63 →
    s.imgW ≠ 0 → wordsUsed s.srcSize.toNat ≤ s.imgH.toNat * s.imgH.toNat →
    s.rdPos = 0 → s.portsAnswer (8 * s.srcSize.toNat) →
    let n := s.srcSize.toNat
    let N := wordsUsed n
    ∃ t, exec .wsWriteStream s = .next t ∧
      t = { s.afterDraws (8 * n) with
            pix := t.pix
            rdPos := BitVec.ofNat 67 (8 * n)
            wsState := .bodyWritten
            hdrLen := BitVec.ofNat 63 n
            xferCount := BitVec.ofNat 65 (splitCount n)
            xferRem := BitVec.ofNat 3 (splitRem n)
            xferIdx := t.xferIdx
            rspCode := .ok
            result := s.srcSize } ∧
      (∀ a j, a < N → j < 7 → (∀ b, a < b → b < N → ¬ s.samePixel b a) → a < 9 ∨ 7 * (a - 9) + j < 8 * n →
        (wordAt t a).getLsbD j = embeddedBit s n a j) ∧
      (∀ j, splitRem n ≠ 0 → splitRem n ≤ j → j < 7 →
        let a := 9 + splitCount n
        match s.finalFill with
        | .zero => (wordAt t a).getLsbD j = false
        | .keep =>
          ((∀ b < a, ¬ s.samePixel b a) → (wordAt t a).getLsbD j = (wordAt s a).getLsbD j) ∧
          ∀ b < a, s.samePixel b a → (∀ c, b < c → c < a → ¬ s.samePixel c a) →
            (wordAt t a).getLsbD j = embeddedBit s n b j) ∧
      (N ≤ capacity s.imgW.toNat s.imgH.toNat →
        (∀ i < 9, (wordAt t i).toNat = n / 2 ^ (7 * i) % 2 ^ 7) ∧
        (∀ j < 8 * n, payloadBit t j = srcBit s j) ∧
        ∀ j, splitRem n ≠ 0 → splitRem n ≤ j → j < 7 →
          (wordAt t (9 + splitCount n)).getLsbD j =
            match s.finalFill with
            | .zero => false
            | .keep => (wordAt s (9 + splitCount n)).getLsbD j) ∧
      (∀ a < N,
        (pixelAt t a).r.toNat / 8 = (pixelAt s a).r.toNat / 8 ∧
        (pixelAt t a).g.toNat / 4 = (pixelAt s a).g.toNat / 4 ∧
        (pixelAt t a).b.toNat / 4 = (pixelAt s a).b.toNat / 4) ∧
      ∀ b, (∀ a < N, b < pixelAddr (a % s.imgW.toNat) (a / s.imgH.toNat) ∨
          pixelAddr (a % s.imgW.toNat) (a / s.imgH.toNat) + 3 ≤ b) →
        Memory.read t.pix b = Memory.read s.pix b

/-- R176, R177, R207: the end states of an extraction, h being the header that words 0..8 hold.
The premise on WR_ACC is the writer's invariant (10_state.md R27 b). What PIX and DST hold after a fault is
not relied on (93 U1, log 7), but for PIX, which no micro-step of an extraction writes.
(1) The words exist, no port fails and WR_POS has room: RESULT is h, the bits appended from WR_POS on are the
payload bits in order, WR_POS advances by 8·h, h bytes are appended, PIX is unchanged, and so is everything
else. (2), (3) On an empty grid, or with fewer than 9 words in reach, the header phase raises ADDR_RANGE and
nothing else changes. (4) With the header but not all words in reach, the body raises ADDR_RANGE at word H²
after the bits of the words before it were written. (5) The m-th append (from 0) fails while the words up to
there exist: IO_ERROR(DST_WRITE) with info the WR_POS reached, and WR_ACC holds the completed byte. -/
def Obligations.ExtractEndState : Prop :=
  ∀ s : State, s.ready → s.wsState = .idle → s.bwState = .open → s.wrAcc.toNat < 2 ^ (s.wrPos.toNat % 8) →
    let h := headerOf s
    let off := s.wrPos.toNat % 8
    let reach := s.imgH.toNat * s.imgH.toNat
    let bit (p : Nat) : Bool := if p < off then s.wrAcc.getLsbD p else payloadBit s (p - off)
    (s.imgW ≠ 0 → wordsUsed h ≤ reach → s.wrPos.toNat + 8 * h < 2 ^ 67 → s.portsAnswer h →
      ∃ t new, exec .wsReadStream s = .next t ∧
        t = { s.afterDraws h with
              dst := s.dst ++ new
              wrPos := BitVec.ofNat 67 (s.wrPos.toNat + 8 * h)
              wrAcc := t.wrAcc
              wsState := .bodyStreamed
              hdrLen := BitVec.ofNat 63 h
              xferCount := BitVec.ofNat 65 (splitCount h)
              xferRem := BitVec.ofNat 3 (splitRem h)
              xferIdx := t.xferIdx
              rspCode := .ok
              result := BitVec.ofNat 64 h } ∧
        new.length = h ∧ h < 2 ^ 63 ∧ t.wrAcc.toNat < 2 ^ off ∧
        ∀ p < off + 8 * h, dstBit (new ++ [t.wrAcc]) p = bit p) ∧
    (s.imgW = 0 ∨ s.imgH = 0 → exec .wsReadStream s = .next (faultEntry .addrRange .ws 1 0 s)) ∧
    (s.imgW ≠ 0 → s.imgH ≠ 0 → reach < 9 →
      exec .wsReadStream s = .next (faultEntry .addrRange .ws 0 reach s)) ∧
    (s.imgW ≠ 0 → 9 ≤ reach → reach < wordsUsed h →
      let k := 7 * (reach - 9)
      s.wrPos.toNat + k < 2 ^ 67 → s.portsAnswer ((off + k) / 8) →
      ∃ t, exec .wsReadStream s = .next t ∧
        t = faultEntry .addrRange .ws 0 reach
          { s.afterDraws ((off + k) / 8) with
            dst := t.dst
            wrPos := BitVec.ofNat 67 (s.wrPos.toNat + k)
            wrAcc := t.wrAcc
            wsState := .hdrRead
            hdrLen := BitVec.ofNat 63 h
            xferCount := BitVec.ofNat 65 (splitCount h)
            xferRem := BitVec.ofNat 3 (splitRem h)
            xferIdx := t.xferIdx } ∧
        ∀ j < 8, t.wrAcc.getLsbD j = (decide (j < (off + k) % 8) && bit ((off + k) / 8 * 8 + j))) ∧
    (∀ m, let k := 8 * (m + 1) - off
      s.imgW ≠ 0 → 9 ≤ reach → k ≤ 8 * h → 9 + (k - 1) / 7 < reach → s.wrPos.toNat + k < 2 ^ 67 →
      s.portsAnswer m → s.ioAnswer m = false →
      ∃ t, exec .wsReadStream s = .next t ∧
        t = faultEntry .ioError .bw 3 (s.wrPos.toNat + k)
          { s.afterDraws (m + 1) with
            dst := t.dst
            wrPos := BitVec.ofNat 67 (s.wrPos.toNat + k)
            wrAcc := t.wrAcc
            wsState := .hdrRead
            hdrLen := BitVec.ofNat 63 h
            xferCount := BitVec.ofNat 65 (splitCount h)
            xferRem := BitVec.ofNat 3 (splitRem h)
            xferIdx := t.xferIdx } ∧
        ∀ j < 8, t.wrAcc.getLsbD j = bit (8 * m + j))

/-- R180: the round trip. An embed of n bytes into an image with capacity ≥ 63 + 8·n bits, then an extraction of an image
with the same dimensions whose used words are the embedded ones, by a fresh writer, gives RESULT n, and
after BW_FINISH the destination is the source, byte for byte, for both values of FINAL_FILL. -/
def Obligations.EmbedThenExtractRoundTrip : Prop :=
  ∀ s : State, s.ready → s.wsState = .idle → s.brState = .open → s.rdPos = 0 →
    s.srcSize.toNat < 2 ^ 63 →
    63 + 8 * s.srcSize.toNat ≤ 7 * capacity s.imgW.toNat s.imgH.toNat →
    s.portsAnswer (8 * s.srcSize.toNat) →
    let n := s.srcSize.toNat
    ∃ t, exec .wsWriteStream s = .next t ∧ t.rspCode = .ok ∧ t.result = s.srcSize ∧
      ∀ u : State, u.ready → u.wsState = .idle → u.bwState = .open → u.wrPos = 0 → u.wrAcc = 0 →
        u.dst = [] → u.imgW = s.imgW → u.imgH = s.imgH →
        (∀ a < wordsUsed n, wordAt u a = wordAt t a) → u.portsAnswer n →
        ∃ v w, exec .wsReadStream u = .next v ∧ v.rspCode = .ok ∧ v.result = s.srcSize ∧
          exec .bwFinish v = .next w ∧ w.rspCode = .ok ∧ w.dst.length = n ∧
          ∀ i < n, w.dst.getD i 0 = Memory.read s.src i

/-- R178, R207, R238: no capacity pre-check: an embed of n bytes faults at its first word that does not
exist, for every n that HDR_OVF admits (R173, R185: under TRUNCATE the header is n mod 2^63 and the body still
8·n bits). On an empty grid that is header word 0, with fewer than 9 words in reach header word H²: nothing
but PIX is touched. With the header in reach it is body word H²: the header is written, and the source bits up
to and with those of that word are consumed. (What PIX holds after a fault is not relied on, 93 U1, log 7.) -/
def Obligations.EmbedFaultsAtTheFirstMissingWord : Prop :=
  ∀ s : State, s.ready → s.wsState = .idle → s.brState = .open →
    s.srcSize.toNat < 2 ^ 63 ∨ s.hdrOvf = .truncate →
    let n := s.srcSize.toNat
    let reach := s.imgH.toNat * s.imgH.toNat
    (s.imgW = 0 ∨ s.imgH = 0 → exec .wsWriteStream s = .next (faultEntry .addrRange .ws 1 0 s)) ∧
    (s.imgW ≠ 0 → s.imgH ≠ 0 → reach < 9 → ∃ t, exec .wsWriteStream s = .next t ∧
      t = { faultEntry .addrRange .ws 0 reach s with pix := t.pix }) ∧
    (s.imgW ≠ 0 → 9 ≤ reach → reach < wordsUsed n →
      let k := min (8 * n) (7 * (reach - 8))
      s.rdPos.toNat + k ≤ 8 * n → s.portsAnswer k →
      ∃ t, exec .wsWriteStream s = .next t ∧
        t = faultEntry .addrRange .ws 0 reach
          { s.afterDraws k with
            pix := t.pix
            rdPos := BitVec.ofNat 67 (s.rdPos.toNat + k)
            wsState := .hdrWritten
            hdrLen := BitVec.ofNat 63 n
            xferCount := BitVec.ofNat 65 (splitCount n)
            xferRem := BitVec.ofNat 3 (splitRem n)
            xferIdx := t.xferIdx })

/-- R173, R207, R239: an embed of n bytes whose k-th body bit is past the end of the file, or cannot be read,
while the words before that bit exist, faults there with the header written and k bits consumed: IO_ERROR
(EOF) with info 8·n, which is where an embed ends up whose reader is not at bit 0 (R239), or
IO_ERROR(SRC_READ). For every n that HDR_OVF admits (R185). -/
def Obligations.EmbedFaultsAtTheFirstMissingSourceBit : Prop :=
  ∀ (s : State) (k : Nat), s.ready → s.wsState = .idle → s.brState = .open →
    s.srcSize.toNat < 2 ^ 63 ∨ s.hdrOvf = .truncate →
    s.imgW ≠ 0 → k < 8 * s.srcSize.toNat → 9 + k / 7 ≤ s.imgH.toNat * s.imgH.toNat → s.portsAnswer k →
    let n := s.srcSize.toNat
    (s.rdPos.toNat + k = 8 * n →
      ∃ t, exec .wsWriteStream s = .next t ∧
        t = faultEntry .ioError .br 1 (8 * n)
          { s.afterDraws k with
            pix := t.pix
            rdPos := BitVec.ofNat 67 (8 * n)
            wsState := .hdrWritten
            hdrLen := BitVec.ofNat 63 n
            xferCount := BitVec.ofNat 65 (splitCount n)
            xferRem := BitVec.ofNat 3 (splitRem n)
            xferIdx := t.xferIdx }) ∧
    (s.rdPos.toNat + k < 8 * n → s.ioAnswer k = false →
      ∃ t, exec .wsWriteStream s = .next t ∧
        t = faultEntry .ioError .br 2 (s.rdPos.toNat + k)
          { s.afterDraws (k + 1) with
            pix := t.pix
            rdPos := BitVec.ofNat 67 (s.rdPos.toNat + k)
            wsState := .hdrWritten
            hdrLen := BitVec.ofNat 63 n
            xferCount := BitVec.ofNat 65 (splitCount n)
            xferRem := BitVec.ofNat 3 (splitRem n)
            xferIdx := t.xferIdx })

/-! ## Frames and rules of the whole machine -/

/-- R20, R111, R113 to R117: what the reader's commands leave unchanged, whatever they answer. -/
def Obligations.ReaderCommandsFrame : Prop :=
  ∀ (s t : State) (len : BitVec 4),
    (exec .brOpen s = .next t → t = { (s.withOutcome t).withDraws t with
      brState := t.brState, rdPos := t.rdPos, srcSize := t.srcSize }) ∧
    (exec .brSize s = .next t → t = s.withOutcome t) ∧
    (exec .brReadBit s = .next t → t = { (s.withOutcome t).withDraws t with rdPos := t.rdPos }) ∧
    (exec (.brReadBits len) s = .next t → t = { (s.withOutcome t).withDraws t with rdPos := t.rdPos }) ∧
    (exec .brClose s = .next t → t = { s.withOutcome t with brState := t.brState })

/-- R20, R131 to R136, R53: what the writer's commands leave unchanged, whatever they answer; a write
that answers OK takes no byte away from the destination. -/
def Obligations.WriterCommandsFrame : Prop :=
  ∀ (s t : State) (bit : Bool) (byte : Byte) (len : BitVec 4),
    (exec .bwOpen s = .next t → t = { (s.withOutcome t).withDraws t with
      bwState := t.bwState, wrPos := t.wrPos, wrAcc := t.wrAcc, dst := t.dst }) ∧
    (exec (.bwWriteBit bit) s = .next t → t = { (s.withOutcome t).withDraws t with
      wrPos := t.wrPos, wrAcc := t.wrAcc, dst := t.dst } ∧ (t.rspCode = .ok → s.dst <+: t.dst)) ∧
    (exec (.bwWriteBits byte len) s = .next t → t = { (s.withOutcome t).withDraws t with
      wrPos := t.wrPos, wrAcc := t.wrAcc, dst := t.dst } ∧ (t.rspCode = .ok → s.dst <+: t.dst)) ∧
    (exec .bwFinish s = .next t → t = { (s.withOutcome t).withDraws t with
      bwState := t.bwState, wrAcc := t.wrAcc, dst := t.dst, fatal := t.fatal } ∧ (t.rspCode = .ok → s.dst <+: t.dst))

/-- R20, R156 to R159, R63: what the word commands leave unchanged, whatever they answer; WS_WRITE_WORD
changes no byte of PIX but the three of the pixel its address maps to. -/
def Obligations.WordCommandsFrame : Prop :=
  ∀ (s t : State) (addr : ArgWord) (word : PixWord),
    (exec .wsBind s = .next t → t = { s.withOutcome t with
      imgW := t.imgW, imgH := t.imgH, hdrLen := t.hdrLen, xferCount := t.xferCount,
      xferRem := t.xferRem, xferIdx := t.xferIdx, wsState := t.wsState }) ∧
    (exec (.wsReadWord addr) s = .next t → t = s.withOutcome t) ∧
    (exec (.wsWriteWord addr word) s = .next t → t = { s.withOutcome t with pix := t.pix } ∧
      ∀ a, a < pixelAddr (addr.toNat % s.imgW.toNat) (addr.toNat / s.imgH.toNat) ∨
          pixelAddr (addr.toNat % s.imgW.toNat) (addr.toNat / s.imgH.toNat) + 3 ≤ a →
        Memory.read t.pix a = Memory.read s.pix a) ∧
    (exec .wsIntoInner s = .next t → t = { s.withOutcome t with wsState := t.wsState })

/-- R20, R173, R176: what the stream commands leave unchanged, whatever they answer; an embed never touches
the writer, its destination or the source, an extraction never touches the reader or a pixel. An embed that
answers OK changes no byte of PIX outside the pixels of the words it writes. -/
def Obligations.StreamCommandsFrame : Prop :=
  ∀ s t : State,
    (exec .wsWriteStream s = .next t → t = { (s.withOutcome t).withDraws t with
      pix := t.pix, rdPos := t.rdPos, wsState := t.wsState, hdrLen := t.hdrLen,
      xferCount := t.xferCount, xferRem := t.xferRem, xferIdx := t.xferIdx } ∧
      (t.rspCode = .ok → ∀ b, (∀ a < wordsUsed s.srcSize.toNat,
          b < pixelAddr (a % s.imgW.toNat) (a / s.imgH.toNat) ∨
          pixelAddr (a % s.imgW.toNat) (a / s.imgH.toNat) + 3 ≤ b) →
        Memory.read t.pix b = Memory.read s.pix b)) ∧
    (exec .wsReadStream s = .next t → t = { (s.withOutcome t).withDraws t with
      dst := t.dst, wrPos := t.wrPos, wrAcc := t.wrAcc, wsState := t.wsState, hdrLen := t.hdrLen,
      xferCount := t.xferCount, xferRem := t.xferRem, xferIdx := t.xferIdx } ∧ (t.rspCode = .ok → s.dst <+: t.dst))

/-- R57: "Channel bits red[7:3], green[7:2] and blue[7:2] are never part of a word. Word access leaves
them untouched." For every command that answers OK and every pixel of the address space. -/
def Obligations.NoCommandTouchesHighChannelBits : Prop :=
  ∀ (i : Instr) (s t : State), exec i s = .next t → t.rspCode = .ok →
    ∀ x y, x < 2 ^ 32 →
      (pixRead x y t).r.toNat / 8 = (pixRead x y s).r.toNat / 8 ∧
      (pixRead x y t).g.toNat / 4 = (pixRead x y s).g.toNat / 4 ∧
      (pixRead x y t).b.toNat / 4 = (pixRead x y s).b.toNat / 4

/-- R28, R182: every change of WS_STATE is an edge of the table, made by its command; a stream command that
answers OK ends in its last state. -/
def Obligations.StreamStateIsOneWay : Prop :=
  ∀ (i : Instr) (s t : State), exec i s = .next t →
    (t.wsState ≠ s.wsState →
      (i = .wsBind ∧ s.wsState = .unbound ∧ t.wsState = .idle) ∨
      (i = .wsWriteStream ∧ s.wsState = .idle ∧
        ((t.wsState = .bodyWritten ∧ t.rspCode = .ok) ∨ (t.wsState = .hdrWritten ∧ t.rspCode ≠ .ok))) ∨
      (i = .wsReadStream ∧ s.wsState = .idle ∧
        ((t.wsState = .bodyStreamed ∧ t.rspCode = .ok) ∨ (t.wsState = .hdrRead ∧ t.rspCode ≠ .ok))) ∨
      (i = .wsIntoInner ∧ t.wsState = .unbound)) ∧
    (i = .wsWriteStream → t.rspCode = .ok → s.wsState = .idle ∧ t.wsState = .bodyWritten) ∧
    (i = .wsReadStream → t.rspCode = .ok → s.wsState = .idle ∧ t.wsState = .bodyStreamed)

/-- R22, R25: the positions are "never decremented or reset" but by an open. -/
def Obligations.PositionsNeverGoBack : Prop :=
  ∀ (i : Instr) (s t : State), exec i s = .next t →
    (i ≠ .brOpen → s.rdPos.toNat ≤ t.rdPos.toNat) ∧ (i ≠ .bwOpen → s.wrPos.toNat ≤ t.wrPos.toNat)

/-- R31: XFER_* are hidden: two states that differ only in them answer every command alike, up to them. -/
def Obligations.TransferRegistersAreHidden : Prop :=
  ∀ (i : Instr) (s t : State) (count : BitVec 65) (rem : BitVec 3) (idx : BitVec 65),
    exec i s = .next t →
    ∃ u, exec i { s with xferCount := count, xferRem := rem, xferIdx := idx } = .next u ∧
      u = { t with xferCount := u.xferCount, xferRem := u.xferRem, xferIdx := u.xferIdx }

/-- The machine right after reset meets the invariant (10_state.md R41). -/
def Obligations.ResetMeetsTheInvariant : Prop := State.reset.Inv

/-- R22, R23, R27, R29, R34, R35, R36: the invariant is kept by every step, whatever the host's move and the
ports' answers, from every state that meets it. -/
def Obligations.EveryStepKeepsTheInvariant : Prop :=
  ∀ s t : State, s.Inv → step s = .next t → t.Inv
end

