-- ==== Sys2Proof/Laws/State.lean ====
section
/-! SUPPORT. One lemma per field of State and named update, each true by unfolding, and the same for the
frames of Safety.lean. -/

namespace Sys2Proof.Machine

section
variable (s t : State)


/-! ### respond -/

@[simp] theorem respond_brState (v : BitVec 64) : (respond v s).brState = s.brState := rfl
@[simp] theorem respond_rdPos (v : BitVec 64) : (respond v s).rdPos = s.rdPos := rfl
@[simp] theorem respond_srcSize (v : BitVec 64) : (respond v s).srcSize = s.srcSize := rfl
@[simp] theorem respond_bwState (v : BitVec 64) : (respond v s).bwState = s.bwState := rfl
@[simp] theorem respond_wrPos (v : BitVec 64) : (respond v s).wrPos = s.wrPos := rfl
@[simp] theorem respond_wrAcc (v : BitVec 64) : (respond v s).wrAcc = s.wrAcc := rfl
@[simp] theorem respond_wsState (v : BitVec 64) : (respond v s).wsState = s.wsState := rfl
@[simp] theorem respond_imgW (v : BitVec 64) : (respond v s).imgW = s.imgW := rfl
@[simp] theorem respond_imgH (v : BitVec 64) : (respond v s).imgH = s.imgH := rfl
@[simp] theorem respond_hdrLen (v : BitVec 64) : (respond v s).hdrLen = s.hdrLen := rfl
@[simp] theorem respond_xferCount (v : BitVec 64) : (respond v s).xferCount = s.xferCount := rfl
@[simp] theorem respond_xferRem (v : BitVec 64) : (respond v s).xferRem = s.xferRem := rfl
@[simp] theorem respond_xferIdx (v : BitVec 64) : (respond v s).xferIdx = s.xferIdx := rfl
@[simp] theorem respond_cmd (v : BitVec 64) : (respond v s).cmd = s.cmd := rfl
@[simp] theorem respond_arg (v : BitVec 64) : (respond v s).arg = s.arg := rfl
@[simp] theorem respond_rspCode (v : BitVec 64) : (respond v s).rspCode = .ok := rfl
@[simp] theorem respond_result (v : BitVec 64) : (respond v s).result = v := rfl
@[simp] theorem respond_fltValid (v : BitVec 64) : (respond v s).fltValid = s.fltValid := rfl
@[simp] theorem respond_fltCode (v : BitVec 64) : (respond v s).fltCode = s.fltCode := rfl
@[simp] theorem respond_fltUnit (v : BitVec 64) : (respond v s).fltUnit = s.fltUnit := rfl
@[simp] theorem respond_fltSub (v : BitVec 64) : (respond v s).fltSub = s.fltSub := rfl
@[simp] theorem respond_fltOpc (v : BitVec 64) : (respond v s).fltOpc = s.fltOpc := rfl
@[simp] theorem respond_fltInfo (v : BitVec 64) : (respond v s).fltInfo = s.fltInfo := rfl
@[simp] theorem respond_fatal (v : BitVec 64) : (respond v s).fatal = s.fatal := rfl
@[simp] theorem respond_pixW (v : BitVec 64) : (respond v s).pixW = s.pixW := rfl
@[simp] theorem respond_pixH (v : BitVec 64) : (respond v s).pixH = s.pixH := rfl
@[simp] theorem respond_pix (v : BitVec 64) : (respond v s).pix = s.pix := rfl
@[simp] theorem respond_srcLen (v : BitVec 64) : (respond v s).srcLen = s.srcLen := rfl
@[simp] theorem respond_src (v : BitVec 64) : (respond v s).src = s.src := rfl
@[simp] theorem respond_dst (v : BitVec 64) : (respond v s).dst = s.dst := rfl
@[simp] theorem respond_hdrOvf (v : BitVec 64) : (respond v s).hdrOvf = s.hdrOvf := rfl
@[simp] theorem respond_finalFill (v : BitVec 64) : (respond v s).finalFill = s.finalFill := rfl
@[simp] theorem respond_port (v : BitVec 64) : (respond v s).port = s.port := rfl
@[simp] theorem respond_ioAnswers (v : BitVec 64) : (respond v s).ioAnswers = s.ioAnswers := rfl
@[simp] theorem respond_ioDraws (v : BitVec 64) : (respond v s).ioDraws = s.ioDraws := rfl

/-! ### answerOnly -/

@[simp] theorem answerOnly_brState (c : RspCode) : (answerOnly c s).brState = s.brState := rfl
@[simp] theorem answerOnly_rdPos (c : RspCode) : (answerOnly c s).rdPos = s.rdPos := rfl
@[simp] theorem answerOnly_srcSize (c : RspCode) : (answerOnly c s).srcSize = s.srcSize := rfl
@[simp] theorem answerOnly_bwState (c : RspCode) : (answerOnly c s).bwState = s.bwState := rfl
@[simp] theorem answerOnly_wrPos (c : RspCode) : (answerOnly c s).wrPos = s.wrPos := rfl
@[simp] theorem answerOnly_wrAcc (c : RspCode) : (answerOnly c s).wrAcc = s.wrAcc := rfl
@[simp] theorem answerOnly_wsState (c : RspCode) : (answerOnly c s).wsState = s.wsState := rfl
@[simp] theorem answerOnly_imgW (c : RspCode) : (answerOnly c s).imgW = s.imgW := rfl
@[simp] theorem answerOnly_imgH (c : RspCode) : (answerOnly c s).imgH = s.imgH := rfl
@[simp] theorem answerOnly_hdrLen (c : RspCode) : (answerOnly c s).hdrLen = s.hdrLen := rfl
@[simp] theorem answerOnly_xferCount (c : RspCode) : (answerOnly c s).xferCount = s.xferCount := rfl
@[simp] theorem answerOnly_xferRem (c : RspCode) : (answerOnly c s).xferRem = s.xferRem := rfl
@[simp] theorem answerOnly_xferIdx (c : RspCode) : (answerOnly c s).xferIdx = s.xferIdx := rfl
@[simp] theorem answerOnly_cmd (c : RspCode) : (answerOnly c s).cmd = s.cmd := rfl
@[simp] theorem answerOnly_arg (c : RspCode) : (answerOnly c s).arg = s.arg := rfl
@[simp] theorem answerOnly_rspCode (c : RspCode) : (answerOnly c s).rspCode = c := rfl
@[simp] theorem answerOnly_result (c : RspCode) : (answerOnly c s).result = 0 := rfl
@[simp] theorem answerOnly_fltValid (c : RspCode) : (answerOnly c s).fltValid = s.fltValid := rfl
@[simp] theorem answerOnly_fltCode (c : RspCode) : (answerOnly c s).fltCode = s.fltCode := rfl
@[simp] theorem answerOnly_fltUnit (c : RspCode) : (answerOnly c s).fltUnit = s.fltUnit := rfl
@[simp] theorem answerOnly_fltSub (c : RspCode) : (answerOnly c s).fltSub = s.fltSub := rfl
@[simp] theorem answerOnly_fltOpc (c : RspCode) : (answerOnly c s).fltOpc = s.fltOpc := rfl
@[simp] theorem answerOnly_fltInfo (c : RspCode) : (answerOnly c s).fltInfo = s.fltInfo := rfl
@[simp] theorem answerOnly_fatal (c : RspCode) : (answerOnly c s).fatal = s.fatal := rfl
@[simp] theorem answerOnly_pixW (c : RspCode) : (answerOnly c s).pixW = s.pixW := rfl
@[simp] theorem answerOnly_pixH (c : RspCode) : (answerOnly c s).pixH = s.pixH := rfl
@[simp] theorem answerOnly_pix (c : RspCode) : (answerOnly c s).pix = s.pix := rfl
@[simp] theorem answerOnly_srcLen (c : RspCode) : (answerOnly c s).srcLen = s.srcLen := rfl
@[simp] theorem answerOnly_src (c : RspCode) : (answerOnly c s).src = s.src := rfl
@[simp] theorem answerOnly_dst (c : RspCode) : (answerOnly c s).dst = s.dst := rfl
@[simp] theorem answerOnly_hdrOvf (c : RspCode) : (answerOnly c s).hdrOvf = s.hdrOvf := rfl
@[simp] theorem answerOnly_finalFill (c : RspCode) : (answerOnly c s).finalFill = s.finalFill := rfl
@[simp] theorem answerOnly_port (c : RspCode) : (answerOnly c s).port = s.port := rfl
@[simp] theorem answerOnly_ioAnswers (c : RspCode) : (answerOnly c s).ioAnswers = s.ioAnswers := rfl
@[simp] theorem answerOnly_ioDraws (c : RspCode) : (answerOnly c s).ioDraws = s.ioDraws := rfl

/-! ### faultEntry -/

@[simp] theorem faultEntry_brState (c : RspCode) (u : FltUnit) (b : BitVec 2) (i : Nat) : (faultEntry c u b i s).brState = s.brState := rfl
@[simp] theorem faultEntry_rdPos (c : RspCode) (u : FltUnit) (b : BitVec 2) (i : Nat) : (faultEntry c u b i s).rdPos = s.rdPos := rfl
@[simp] theorem faultEntry_srcSize (c : RspCode) (u : FltUnit) (b : BitVec 2) (i : Nat) : (faultEntry c u b i s).srcSize = s.srcSize := rfl
@[simp] theorem faultEntry_bwState (c : RspCode) (u : FltUnit) (b : BitVec 2) (i : Nat) : (faultEntry c u b i s).bwState = s.bwState := rfl
@[simp] theorem faultEntry_wrPos (c : RspCode) (u : FltUnit) (b : BitVec 2) (i : Nat) : (faultEntry c u b i s).wrPos = s.wrPos := rfl
@[simp] theorem faultEntry_wrAcc (c : RspCode) (u : FltUnit) (b : BitVec 2) (i : Nat) : (faultEntry c u b i s).wrAcc = s.wrAcc := rfl
@[simp] theorem faultEntry_wsState (c : RspCode) (u : FltUnit) (b : BitVec 2) (i : Nat) : (faultEntry c u b i s).wsState = s.wsState := rfl
@[simp] theorem faultEntry_imgW (c : RspCode) (u : FltUnit) (b : BitVec 2) (i : Nat) : (faultEntry c u b i s).imgW = s.imgW := rfl
@[simp] theorem faultEntry_imgH (c : RspCode) (u : FltUnit) (b : BitVec 2) (i : Nat) : (faultEntry c u b i s).imgH = s.imgH := rfl
@[simp] theorem faultEntry_hdrLen (c : RspCode) (u : FltUnit) (b : BitVec 2) (i : Nat) : (faultEntry c u b i s).hdrLen = s.hdrLen := rfl
@[simp] theorem faultEntry_xferCount (c : RspCode) (u : FltUnit) (b : BitVec 2) (i : Nat) : (faultEntry c u b i s).xferCount = s.xferCount := rfl
@[simp] theorem faultEntry_xferRem (c : RspCode) (u : FltUnit) (b : BitVec 2) (i : Nat) : (faultEntry c u b i s).xferRem = s.xferRem := rfl
@[simp] theorem faultEntry_xferIdx (c : RspCode) (u : FltUnit) (b : BitVec 2) (i : Nat) : (faultEntry c u b i s).xferIdx = s.xferIdx := rfl
@[simp] theorem faultEntry_cmd (c : RspCode) (u : FltUnit) (b : BitVec 2) (i : Nat) : (faultEntry c u b i s).cmd = s.cmd := rfl
@[simp] theorem faultEntry_arg (c : RspCode) (u : FltUnit) (b : BitVec 2) (i : Nat) : (faultEntry c u b i s).arg = s.arg := rfl
@[simp] theorem faultEntry_rspCode (c : RspCode) (u : FltUnit) (b : BitVec 2) (i : Nat) : (faultEntry c u b i s).rspCode = c := rfl
@[simp] theorem faultEntry_result (c : RspCode) (u : FltUnit) (b : BitVec 2) (i : Nat) : (faultEntry c u b i s).result = 0 := rfl
@[simp] theorem faultEntry_fltValid (c : RspCode) (u : FltUnit) (b : BitVec 2) (i : Nat) : (faultEntry c u b i s).fltValid = true := rfl
@[simp] theorem faultEntry_fltCode (c : RspCode) (u : FltUnit) (b : BitVec 2) (i : Nat) : (faultEntry c u b i s).fltCode = if s.fltValid then s.fltCode else c := rfl
@[simp] theorem faultEntry_fltUnit (c : RspCode) (u : FltUnit) (b : BitVec 2) (i : Nat) : (faultEntry c u b i s).fltUnit = if s.fltValid then s.fltUnit else u := rfl
@[simp] theorem faultEntry_fltSub (c : RspCode) (u : FltUnit) (b : BitVec 2) (i : Nat) : (faultEntry c u b i s).fltSub = if s.fltValid then s.fltSub else b := rfl
@[simp] theorem faultEntry_fltOpc (c : RspCode) (u : FltUnit) (b : BitVec 2) (i : Nat) : (faultEntry c u b i s).fltOpc = if s.fltValid then s.fltOpc else s.cmd.extractLsb' 0 8 := rfl
@[simp] theorem faultEntry_fltInfo (c : RspCode) (u : FltUnit) (b : BitVec 2) (i : Nat) : (faultEntry c u b i s).fltInfo = if s.fltValid then s.fltInfo else BitVec.ofNat 67 i := rfl
@[simp] theorem faultEntry_fatal (c : RspCode) (u : FltUnit) (b : BitVec 2) (i : Nat) : (faultEntry c u b i s).fatal = s.fatal := rfl
@[simp] theorem faultEntry_pixW (c : RspCode) (u : FltUnit) (b : BitVec 2) (i : Nat) : (faultEntry c u b i s).pixW = s.pixW := rfl
@[simp] theorem faultEntry_pixH (c : RspCode) (u : FltUnit) (b : BitVec 2) (i : Nat) : (faultEntry c u b i s).pixH = s.pixH := rfl
@[simp] theorem faultEntry_pix (c : RspCode) (u : FltUnit) (b : BitVec 2) (i : Nat) : (faultEntry c u b i s).pix = s.pix := rfl
@[simp] theorem faultEntry_srcLen (c : RspCode) (u : FltUnit) (b : BitVec 2) (i : Nat) : (faultEntry c u b i s).srcLen = s.srcLen := rfl
@[simp] theorem faultEntry_src (c : RspCode) (u : FltUnit) (b : BitVec 2) (i : Nat) : (faultEntry c u b i s).src = s.src := rfl
@[simp] theorem faultEntry_dst (c : RspCode) (u : FltUnit) (b : BitVec 2) (i : Nat) : (faultEntry c u b i s).dst = s.dst := rfl
@[simp] theorem faultEntry_hdrOvf (c : RspCode) (u : FltUnit) (b : BitVec 2) (i : Nat) : (faultEntry c u b i s).hdrOvf = s.hdrOvf := rfl
@[simp] theorem faultEntry_finalFill (c : RspCode) (u : FltUnit) (b : BitVec 2) (i : Nat) : (faultEntry c u b i s).finalFill = s.finalFill := rfl
@[simp] theorem faultEntry_port (c : RspCode) (u : FltUnit) (b : BitVec 2) (i : Nat) : (faultEntry c u b i s).port = s.port := rfl
@[simp] theorem faultEntry_ioAnswers (c : RspCode) (u : FltUnit) (b : BitVec 2) (i : Nat) : (faultEntry c u b i s).ioAnswers = s.ioAnswers := rfl
@[simp] theorem faultEntry_ioDraws (c : RspCode) (u : FltUnit) (b : BitVec 2) (i : Nat) : (faultEntry c u b i s).ioDraws = s.ioDraws := rfl

/-! ### pixWrite -/

@[simp] theorem pixWrite_brState (x y : Nat) (p : Pixel) : (pixWrite x y p s).brState = s.brState := rfl
@[simp] theorem pixWrite_rdPos (x y : Nat) (p : Pixel) : (pixWrite x y p s).rdPos = s.rdPos := rfl
@[simp] theorem pixWrite_srcSize (x y : Nat) (p : Pixel) : (pixWrite x y p s).srcSize = s.srcSize := rfl
@[simp] theorem pixWrite_bwState (x y : Nat) (p : Pixel) : (pixWrite x y p s).bwState = s.bwState := rfl
@[simp] theorem pixWrite_wrPos (x y : Nat) (p : Pixel) : (pixWrite x y p s).wrPos = s.wrPos := rfl
@[simp] theorem pixWrite_wrAcc (x y : Nat) (p : Pixel) : (pixWrite x y p s).wrAcc = s.wrAcc := rfl
@[simp] theorem pixWrite_wsState (x y : Nat) (p : Pixel) : (pixWrite x y p s).wsState = s.wsState := rfl
@[simp] theorem pixWrite_imgW (x y : Nat) (p : Pixel) : (pixWrite x y p s).imgW = s.imgW := rfl
@[simp] theorem pixWrite_imgH (x y : Nat) (p : Pixel) : (pixWrite x y p s).imgH = s.imgH := rfl
@[simp] theorem pixWrite_hdrLen (x y : Nat) (p : Pixel) : (pixWrite x y p s).hdrLen = s.hdrLen := rfl
@[simp] theorem pixWrite_xferCount (x y : Nat) (p : Pixel) : (pixWrite x y p s).xferCount = s.xferCount := rfl
@[simp] theorem pixWrite_xferRem (x y : Nat) (p : Pixel) : (pixWrite x y p s).xferRem = s.xferRem := rfl
@[simp] theorem pixWrite_xferIdx (x y : Nat) (p : Pixel) : (pixWrite x y p s).xferIdx = s.xferIdx := rfl
@[simp] theorem pixWrite_cmd (x y : Nat) (p : Pixel) : (pixWrite x y p s).cmd = s.cmd := rfl
@[simp] theorem pixWrite_arg (x y : Nat) (p : Pixel) : (pixWrite x y p s).arg = s.arg := rfl
@[simp] theorem pixWrite_rspCode (x y : Nat) (p : Pixel) : (pixWrite x y p s).rspCode = s.rspCode := rfl
@[simp] theorem pixWrite_result (x y : Nat) (p : Pixel) : (pixWrite x y p s).result = s.result := rfl
@[simp] theorem pixWrite_fltValid (x y : Nat) (p : Pixel) : (pixWrite x y p s).fltValid = s.fltValid := rfl
@[simp] theorem pixWrite_fltCode (x y : Nat) (p : Pixel) : (pixWrite x y p s).fltCode = s.fltCode := rfl
@[simp] theorem pixWrite_fltUnit (x y : Nat) (p : Pixel) : (pixWrite x y p s).fltUnit = s.fltUnit := rfl
@[simp] theorem pixWrite_fltSub (x y : Nat) (p : Pixel) : (pixWrite x y p s).fltSub = s.fltSub := rfl
@[simp] theorem pixWrite_fltOpc (x y : Nat) (p : Pixel) : (pixWrite x y p s).fltOpc = s.fltOpc := rfl
@[simp] theorem pixWrite_fltInfo (x y : Nat) (p : Pixel) : (pixWrite x y p s).fltInfo = s.fltInfo := rfl
@[simp] theorem pixWrite_fatal (x y : Nat) (p : Pixel) : (pixWrite x y p s).fatal = s.fatal := rfl
@[simp] theorem pixWrite_pixW (x y : Nat) (p : Pixel) : (pixWrite x y p s).pixW = s.pixW := rfl
@[simp] theorem pixWrite_pixH (x y : Nat) (p : Pixel) : (pixWrite x y p s).pixH = s.pixH := rfl
@[simp] theorem pixWrite_pix (x y : Nat) (p : Pixel) : (pixWrite x y p s).pix = Memory.setPixel s.pix (pixelAddr x y) p := rfl
@[simp] theorem pixWrite_srcLen (x y : Nat) (p : Pixel) : (pixWrite x y p s).srcLen = s.srcLen := rfl
@[simp] theorem pixWrite_src (x y : Nat) (p : Pixel) : (pixWrite x y p s).src = s.src := rfl
@[simp] theorem pixWrite_dst (x y : Nat) (p : Pixel) : (pixWrite x y p s).dst = s.dst := rfl
@[simp] theorem pixWrite_hdrOvf (x y : Nat) (p : Pixel) : (pixWrite x y p s).hdrOvf = s.hdrOvf := rfl
@[simp] theorem pixWrite_finalFill (x y : Nat) (p : Pixel) : (pixWrite x y p s).finalFill = s.finalFill := rfl
@[simp] theorem pixWrite_port (x y : Nat) (p : Pixel) : (pixWrite x y p s).port = s.port := rfl
@[simp] theorem pixWrite_ioAnswers (x y : Nat) (p : Pixel) : (pixWrite x y p s).ioAnswers = s.ioAnswers := rfl
@[simp] theorem pixWrite_ioDraws (x y : Nat) (p : Pixel) : (pixWrite x y p s).ioDraws = s.ioDraws := rfl

/-! ### modifyPixel -/

@[simp] theorem modifyPixel_brState (x y : Nat) (f : Pixel → PixWord) : (modifyPixel x y f s).brState = s.brState := rfl
@[simp] theorem modifyPixel_rdPos (x y : Nat) (f : Pixel → PixWord) : (modifyPixel x y f s).rdPos = s.rdPos := rfl
@[simp] theorem modifyPixel_srcSize (x y : Nat) (f : Pixel → PixWord) : (modifyPixel x y f s).srcSize = s.srcSize := rfl
@[simp] theorem modifyPixel_bwState (x y : Nat) (f : Pixel → PixWord) : (modifyPixel x y f s).bwState = s.bwState := rfl
@[simp] theorem modifyPixel_wrPos (x y : Nat) (f : Pixel → PixWord) : (modifyPixel x y f s).wrPos = s.wrPos := rfl
@[simp] theorem modifyPixel_wrAcc (x y : Nat) (f : Pixel → PixWord) : (modifyPixel x y f s).wrAcc = s.wrAcc := rfl
@[simp] theorem modifyPixel_wsState (x y : Nat) (f : Pixel → PixWord) : (modifyPixel x y f s).wsState = s.wsState := rfl
@[simp] theorem modifyPixel_imgW (x y : Nat) (f : Pixel → PixWord) : (modifyPixel x y f s).imgW = s.imgW := rfl
@[simp] theorem modifyPixel_imgH (x y : Nat) (f : Pixel → PixWord) : (modifyPixel x y f s).imgH = s.imgH := rfl
@[simp] theorem modifyPixel_hdrLen (x y : Nat) (f : Pixel → PixWord) : (modifyPixel x y f s).hdrLen = s.hdrLen := rfl
@[simp] theorem modifyPixel_xferCount (x y : Nat) (f : Pixel → PixWord) : (modifyPixel x y f s).xferCount = s.xferCount := rfl
@[simp] theorem modifyPixel_xferRem (x y : Nat) (f : Pixel → PixWord) : (modifyPixel x y f s).xferRem = s.xferRem := rfl
@[simp] theorem modifyPixel_xferIdx (x y : Nat) (f : Pixel → PixWord) : (modifyPixel x y f s).xferIdx = s.xferIdx := rfl
@[simp] theorem modifyPixel_cmd (x y : Nat) (f : Pixel → PixWord) : (modifyPixel x y f s).cmd = s.cmd := rfl
@[simp] theorem modifyPixel_arg (x y : Nat) (f : Pixel → PixWord) : (modifyPixel x y f s).arg = s.arg := rfl
@[simp] theorem modifyPixel_rspCode (x y : Nat) (f : Pixel → PixWord) : (modifyPixel x y f s).rspCode = s.rspCode := rfl
@[simp] theorem modifyPixel_result (x y : Nat) (f : Pixel → PixWord) : (modifyPixel x y f s).result = s.result := rfl
@[simp] theorem modifyPixel_fltValid (x y : Nat) (f : Pixel → PixWord) : (modifyPixel x y f s).fltValid = s.fltValid := rfl
@[simp] theorem modifyPixel_fltCode (x y : Nat) (f : Pixel → PixWord) : (modifyPixel x y f s).fltCode = s.fltCode := rfl
@[simp] theorem modifyPixel_fltUnit (x y : Nat) (f : Pixel → PixWord) : (modifyPixel x y f s).fltUnit = s.fltUnit := rfl
@[simp] theorem modifyPixel_fltSub (x y : Nat) (f : Pixel → PixWord) : (modifyPixel x y f s).fltSub = s.fltSub := rfl
@[simp] theorem modifyPixel_fltOpc (x y : Nat) (f : Pixel → PixWord) : (modifyPixel x y f s).fltOpc = s.fltOpc := rfl
@[simp] theorem modifyPixel_fltInfo (x y : Nat) (f : Pixel → PixWord) : (modifyPixel x y f s).fltInfo = s.fltInfo := rfl
@[simp] theorem modifyPixel_fatal (x y : Nat) (f : Pixel → PixWord) : (modifyPixel x y f s).fatal = s.fatal := rfl
@[simp] theorem modifyPixel_pixW (x y : Nat) (f : Pixel → PixWord) : (modifyPixel x y f s).pixW = s.pixW := rfl
@[simp] theorem modifyPixel_pixH (x y : Nat) (f : Pixel → PixWord) : (modifyPixel x y f s).pixH = s.pixH := rfl
@[simp] theorem modifyPixel_pix (x y : Nat) (f : Pixel → PixWord) : (modifyPixel x y f s).pix = Memory.setPixel s.pix (pixelAddr x y) (unpack (pixRead x y s) (f (pixRead x y s))) := rfl
@[simp] theorem modifyPixel_srcLen (x y : Nat) (f : Pixel → PixWord) : (modifyPixel x y f s).srcLen = s.srcLen := rfl
@[simp] theorem modifyPixel_src (x y : Nat) (f : Pixel → PixWord) : (modifyPixel x y f s).src = s.src := rfl
@[simp] theorem modifyPixel_dst (x y : Nat) (f : Pixel → PixWord) : (modifyPixel x y f s).dst = s.dst := rfl
@[simp] theorem modifyPixel_hdrOvf (x y : Nat) (f : Pixel → PixWord) : (modifyPixel x y f s).hdrOvf = s.hdrOvf := rfl
@[simp] theorem modifyPixel_finalFill (x y : Nat) (f : Pixel → PixWord) : (modifyPixel x y f s).finalFill = s.finalFill := rfl
@[simp] theorem modifyPixel_port (x y : Nat) (f : Pixel → PixWord) : (modifyPixel x y f s).port = s.port := rfl
@[simp] theorem modifyPixel_ioAnswers (x y : Nat) (f : Pixel → PixWord) : (modifyPixel x y f s).ioAnswers = s.ioAnswers := rfl
@[simp] theorem modifyPixel_ioDraws (x y : Nat) (f : Pixel → PixWord) : (modifyPixel x y f s).ioDraws = s.ioDraws := rfl

/-! ### accumulate -/

@[simp] theorem accumulate_brState (bit : Bool) : (accumulate bit s).brState = s.brState := rfl
@[simp] theorem accumulate_rdPos (bit : Bool) : (accumulate bit s).rdPos = s.rdPos := rfl
@[simp] theorem accumulate_srcSize (bit : Bool) : (accumulate bit s).srcSize = s.srcSize := rfl
@[simp] theorem accumulate_bwState (bit : Bool) : (accumulate bit s).bwState = s.bwState := rfl
@[simp] theorem accumulate_wrPos (bit : Bool) : (accumulate bit s).wrPos = s.wrPos + 1 := rfl
@[simp] theorem accumulate_wrAcc (bit : Bool) : (accumulate bit s).wrAcc = s.wrAcc ||| bitAt bit (s.wrPos.toNat % 8) := rfl
@[simp] theorem accumulate_wsState (bit : Bool) : (accumulate bit s).wsState = s.wsState := rfl
@[simp] theorem accumulate_imgW (bit : Bool) : (accumulate bit s).imgW = s.imgW := rfl
@[simp] theorem accumulate_imgH (bit : Bool) : (accumulate bit s).imgH = s.imgH := rfl
@[simp] theorem accumulate_hdrLen (bit : Bool) : (accumulate bit s).hdrLen = s.hdrLen := rfl
@[simp] theorem accumulate_xferCount (bit : Bool) : (accumulate bit s).xferCount = s.xferCount := rfl
@[simp] theorem accumulate_xferRem (bit : Bool) : (accumulate bit s).xferRem = s.xferRem := rfl
@[simp] theorem accumulate_xferIdx (bit : Bool) : (accumulate bit s).xferIdx = s.xferIdx := rfl
@[simp] theorem accumulate_cmd (bit : Bool) : (accumulate bit s).cmd = s.cmd := rfl
@[simp] theorem accumulate_arg (bit : Bool) : (accumulate bit s).arg = s.arg := rfl
@[simp] theorem accumulate_rspCode (bit : Bool) : (accumulate bit s).rspCode = s.rspCode := rfl
@[simp] theorem accumulate_result (bit : Bool) : (accumulate bit s).result = s.result := rfl
@[simp] theorem accumulate_fltValid (bit : Bool) : (accumulate bit s).fltValid = s.fltValid := rfl
@[simp] theorem accumulate_fltCode (bit : Bool) : (accumulate bit s).fltCode = s.fltCode := rfl
@[simp] theorem accumulate_fltUnit (bit : Bool) : (accumulate bit s).fltUnit = s.fltUnit := rfl
@[simp] theorem accumulate_fltSub (bit : Bool) : (accumulate bit s).fltSub = s.fltSub := rfl
@[simp] theorem accumulate_fltOpc (bit : Bool) : (accumulate bit s).fltOpc = s.fltOpc := rfl
@[simp] theorem accumulate_fltInfo (bit : Bool) : (accumulate bit s).fltInfo = s.fltInfo := rfl
@[simp] theorem accumulate_fatal (bit : Bool) : (accumulate bit s).fatal = s.fatal := rfl
@[simp] theorem accumulate_pixW (bit : Bool) : (accumulate bit s).pixW = s.pixW := rfl
@[simp] theorem accumulate_pixH (bit : Bool) : (accumulate bit s).pixH = s.pixH := rfl
@[simp] theorem accumulate_pix (bit : Bool) : (accumulate bit s).pix = s.pix := rfl
@[simp] theorem accumulate_srcLen (bit : Bool) : (accumulate bit s).srcLen = s.srcLen := rfl
@[simp] theorem accumulate_src (bit : Bool) : (accumulate bit s).src = s.src := rfl
@[simp] theorem accumulate_dst (bit : Bool) : (accumulate bit s).dst = s.dst := rfl
@[simp] theorem accumulate_hdrOvf (bit : Bool) : (accumulate bit s).hdrOvf = s.hdrOvf := rfl
@[simp] theorem accumulate_finalFill (bit : Bool) : (accumulate bit s).finalFill = s.finalFill := rfl
@[simp] theorem accumulate_port (bit : Bool) : (accumulate bit s).port = s.port := rfl
@[simp] theorem accumulate_ioAnswers (bit : Bool) : (accumulate bit s).ioAnswers = s.ioAnswers := rfl
@[simp] theorem accumulate_ioDraws (bit : Bool) : (accumulate bit s).ioDraws = s.ioDraws := rfl

/-! ### enterBody -/

@[simp] theorem enterBody_brState (st : WsState) (h : BitVec 63) (n : Nat) : (enterBody st h n s).brState = s.brState := rfl
@[simp] theorem enterBody_rdPos (st : WsState) (h : BitVec 63) (n : Nat) : (enterBody st h n s).rdPos = s.rdPos := rfl
@[simp] theorem enterBody_srcSize (st : WsState) (h : BitVec 63) (n : Nat) : (enterBody st h n s).srcSize = s.srcSize := rfl
@[simp] theorem enterBody_bwState (st : WsState) (h : BitVec 63) (n : Nat) : (enterBody st h n s).bwState = s.bwState := rfl
@[simp] theorem enterBody_wrPos (st : WsState) (h : BitVec 63) (n : Nat) : (enterBody st h n s).wrPos = s.wrPos := rfl
@[simp] theorem enterBody_wrAcc (st : WsState) (h : BitVec 63) (n : Nat) : (enterBody st h n s).wrAcc = s.wrAcc := rfl
@[simp] theorem enterBody_wsState (st : WsState) (h : BitVec 63) (n : Nat) : (enterBody st h n s).wsState = st := rfl
@[simp] theorem enterBody_imgW (st : WsState) (h : BitVec 63) (n : Nat) : (enterBody st h n s).imgW = s.imgW := rfl
@[simp] theorem enterBody_imgH (st : WsState) (h : BitVec 63) (n : Nat) : (enterBody st h n s).imgH = s.imgH := rfl
@[simp] theorem enterBody_hdrLen (st : WsState) (h : BitVec 63) (n : Nat) : (enterBody st h n s).hdrLen = h := rfl
@[simp] theorem enterBody_xferCount (st : WsState) (h : BitVec 63) (n : Nat) : (enterBody st h n s).xferCount = BitVec.ofNat 65 (splitCount n) := rfl
@[simp] theorem enterBody_xferRem (st : WsState) (h : BitVec 63) (n : Nat) : (enterBody st h n s).xferRem = BitVec.ofNat 3 (splitRem n) := rfl
@[simp] theorem enterBody_xferIdx (st : WsState) (h : BitVec 63) (n : Nat) : (enterBody st h n s).xferIdx = s.xferIdx := rfl
@[simp] theorem enterBody_cmd (st : WsState) (h : BitVec 63) (n : Nat) : (enterBody st h n s).cmd = s.cmd := rfl
@[simp] theorem enterBody_arg (st : WsState) (h : BitVec 63) (n : Nat) : (enterBody st h n s).arg = s.arg := rfl
@[simp] theorem enterBody_rspCode (st : WsState) (h : BitVec 63) (n : Nat) : (enterBody st h n s).rspCode = s.rspCode := rfl
@[simp] theorem enterBody_result (st : WsState) (h : BitVec 63) (n : Nat) : (enterBody st h n s).result = s.result := rfl
@[simp] theorem enterBody_fltValid (st : WsState) (h : BitVec 63) (n : Nat) : (enterBody st h n s).fltValid = s.fltValid := rfl
@[simp] theorem enterBody_fltCode (st : WsState) (h : BitVec 63) (n : Nat) : (enterBody st h n s).fltCode = s.fltCode := rfl
@[simp] theorem enterBody_fltUnit (st : WsState) (h : BitVec 63) (n : Nat) : (enterBody st h n s).fltUnit = s.fltUnit := rfl
@[simp] theorem enterBody_fltSub (st : WsState) (h : BitVec 63) (n : Nat) : (enterBody st h n s).fltSub = s.fltSub := rfl
@[simp] theorem enterBody_fltOpc (st : WsState) (h : BitVec 63) (n : Nat) : (enterBody st h n s).fltOpc = s.fltOpc := rfl
@[simp] theorem enterBody_fltInfo (st : WsState) (h : BitVec 63) (n : Nat) : (enterBody st h n s).fltInfo = s.fltInfo := rfl
@[simp] theorem enterBody_fatal (st : WsState) (h : BitVec 63) (n : Nat) : (enterBody st h n s).fatal = s.fatal := rfl
@[simp] theorem enterBody_pixW (st : WsState) (h : BitVec 63) (n : Nat) : (enterBody st h n s).pixW = s.pixW := rfl
@[simp] theorem enterBody_pixH (st : WsState) (h : BitVec 63) (n : Nat) : (enterBody st h n s).pixH = s.pixH := rfl
@[simp] theorem enterBody_pix (st : WsState) (h : BitVec 63) (n : Nat) : (enterBody st h n s).pix = s.pix := rfl
@[simp] theorem enterBody_srcLen (st : WsState) (h : BitVec 63) (n : Nat) : (enterBody st h n s).srcLen = s.srcLen := rfl
@[simp] theorem enterBody_src (st : WsState) (h : BitVec 63) (n : Nat) : (enterBody st h n s).src = s.src := rfl
@[simp] theorem enterBody_dst (st : WsState) (h : BitVec 63) (n : Nat) : (enterBody st h n s).dst = s.dst := rfl
@[simp] theorem enterBody_hdrOvf (st : WsState) (h : BitVec 63) (n : Nat) : (enterBody st h n s).hdrOvf = s.hdrOvf := rfl
@[simp] theorem enterBody_finalFill (st : WsState) (h : BitVec 63) (n : Nat) : (enterBody st h n s).finalFill = s.finalFill := rfl
@[simp] theorem enterBody_port (st : WsState) (h : BitVec 63) (n : Nat) : (enterBody st h n s).port = s.port := rfl
@[simp] theorem enterBody_ioAnswers (st : WsState) (h : BitVec 63) (n : Nat) : (enterBody st h n s).ioAnswers = s.ioAnswers := rfl
@[simp] theorem enterBody_ioDraws (st : WsState) (h : BitVec 63) (n : Nat) : (enterBody st h n s).ioDraws = s.ioDraws := rfl

/-! ### latch -/

@[simp] theorem latch_brState (c : CmdWord) (a : ArgWord) : (latch c a s).brState = s.brState := rfl
@[simp] theorem latch_rdPos (c : CmdWord) (a : ArgWord) : (latch c a s).rdPos = s.rdPos := rfl
@[simp] theorem latch_srcSize (c : CmdWord) (a : ArgWord) : (latch c a s).srcSize = s.srcSize := rfl
@[simp] theorem latch_bwState (c : CmdWord) (a : ArgWord) : (latch c a s).bwState = s.bwState := rfl
@[simp] theorem latch_wrPos (c : CmdWord) (a : ArgWord) : (latch c a s).wrPos = s.wrPos := rfl
@[simp] theorem latch_wrAcc (c : CmdWord) (a : ArgWord) : (latch c a s).wrAcc = s.wrAcc := rfl
@[simp] theorem latch_wsState (c : CmdWord) (a : ArgWord) : (latch c a s).wsState = s.wsState := rfl
@[simp] theorem latch_imgW (c : CmdWord) (a : ArgWord) : (latch c a s).imgW = s.imgW := rfl
@[simp] theorem latch_imgH (c : CmdWord) (a : ArgWord) : (latch c a s).imgH = s.imgH := rfl
@[simp] theorem latch_hdrLen (c : CmdWord) (a : ArgWord) : (latch c a s).hdrLen = s.hdrLen := rfl
@[simp] theorem latch_xferCount (c : CmdWord) (a : ArgWord) : (latch c a s).xferCount = s.xferCount := rfl
@[simp] theorem latch_xferRem (c : CmdWord) (a : ArgWord) : (latch c a s).xferRem = s.xferRem := rfl
@[simp] theorem latch_xferIdx (c : CmdWord) (a : ArgWord) : (latch c a s).xferIdx = s.xferIdx := rfl
@[simp] theorem latch_cmd (c : CmdWord) (a : ArgWord) : (latch c a s).cmd = c := rfl
@[simp] theorem latch_arg (c : CmdWord) (a : ArgWord) : (latch c a s).arg = a := rfl
@[simp] theorem latch_rspCode (c : CmdWord) (a : ArgWord) : (latch c a s).rspCode = s.rspCode := rfl
@[simp] theorem latch_result (c : CmdWord) (a : ArgWord) : (latch c a s).result = s.result := rfl
@[simp] theorem latch_fltValid (c : CmdWord) (a : ArgWord) : (latch c a s).fltValid = s.fltValid := rfl
@[simp] theorem latch_fltCode (c : CmdWord) (a : ArgWord) : (latch c a s).fltCode = s.fltCode := rfl
@[simp] theorem latch_fltUnit (c : CmdWord) (a : ArgWord) : (latch c a s).fltUnit = s.fltUnit := rfl
@[simp] theorem latch_fltSub (c : CmdWord) (a : ArgWord) : (latch c a s).fltSub = s.fltSub := rfl
@[simp] theorem latch_fltOpc (c : CmdWord) (a : ArgWord) : (latch c a s).fltOpc = s.fltOpc := rfl
@[simp] theorem latch_fltInfo (c : CmdWord) (a : ArgWord) : (latch c a s).fltInfo = s.fltInfo := rfl
@[simp] theorem latch_fatal (c : CmdWord) (a : ArgWord) : (latch c a s).fatal = s.fatal := rfl
@[simp] theorem latch_pixW (c : CmdWord) (a : ArgWord) : (latch c a s).pixW = s.pixW := rfl
@[simp] theorem latch_pixH (c : CmdWord) (a : ArgWord) : (latch c a s).pixH = s.pixH := rfl
@[simp] theorem latch_pix (c : CmdWord) (a : ArgWord) : (latch c a s).pix = s.pix := rfl
@[simp] theorem latch_srcLen (c : CmdWord) (a : ArgWord) : (latch c a s).srcLen = s.srcLen := rfl
@[simp] theorem latch_src (c : CmdWord) (a : ArgWord) : (latch c a s).src = s.src := rfl
@[simp] theorem latch_dst (c : CmdWord) (a : ArgWord) : (latch c a s).dst = s.dst := rfl
@[simp] theorem latch_hdrOvf (c : CmdWord) (a : ArgWord) : (latch c a s).hdrOvf = s.hdrOvf := rfl
@[simp] theorem latch_finalFill (c : CmdWord) (a : ArgWord) : (latch c a s).finalFill = s.finalFill := rfl
@[simp] theorem latch_port (c : CmdWord) (a : ArgWord) : (latch c a s).port = s.port := rfl
@[simp] theorem latch_ioAnswers (c : CmdWord) (a : ArgWord) : (latch c a s).ioAnswers = s.ioAnswers := rfl
@[simp] theorem latch_ioDraws (c : CmdWord) (a : ArgWord) : (latch c a s).ioDraws = s.ioDraws := rfl

/-! ### afterDraws -/

@[simp] theorem afterDraws_brState (n : Nat) : (s.afterDraws n).brState = s.brState := rfl
@[simp] theorem afterDraws_rdPos (n : Nat) : (s.afterDraws n).rdPos = s.rdPos := rfl
@[simp] theorem afterDraws_srcSize (n : Nat) : (s.afterDraws n).srcSize = s.srcSize := rfl
@[simp] theorem afterDraws_bwState (n : Nat) : (s.afterDraws n).bwState = s.bwState := rfl
@[simp] theorem afterDraws_wrPos (n : Nat) : (s.afterDraws n).wrPos = s.wrPos := rfl
@[simp] theorem afterDraws_wrAcc (n : Nat) : (s.afterDraws n).wrAcc = s.wrAcc := rfl
@[simp] theorem afterDraws_wsState (n : Nat) : (s.afterDraws n).wsState = s.wsState := rfl
@[simp] theorem afterDraws_imgW (n : Nat) : (s.afterDraws n).imgW = s.imgW := rfl
@[simp] theorem afterDraws_imgH (n : Nat) : (s.afterDraws n).imgH = s.imgH := rfl
@[simp] theorem afterDraws_hdrLen (n : Nat) : (s.afterDraws n).hdrLen = s.hdrLen := rfl
@[simp] theorem afterDraws_xferCount (n : Nat) : (s.afterDraws n).xferCount = s.xferCount := rfl
@[simp] theorem afterDraws_xferRem (n : Nat) : (s.afterDraws n).xferRem = s.xferRem := rfl
@[simp] theorem afterDraws_xferIdx (n : Nat) : (s.afterDraws n).xferIdx = s.xferIdx := rfl
@[simp] theorem afterDraws_cmd (n : Nat) : (s.afterDraws n).cmd = s.cmd := rfl
@[simp] theorem afterDraws_arg (n : Nat) : (s.afterDraws n).arg = s.arg := rfl
@[simp] theorem afterDraws_rspCode (n : Nat) : (s.afterDraws n).rspCode = s.rspCode := rfl
@[simp] theorem afterDraws_result (n : Nat) : (s.afterDraws n).result = s.result := rfl
@[simp] theorem afterDraws_fltValid (n : Nat) : (s.afterDraws n).fltValid = s.fltValid := rfl
@[simp] theorem afterDraws_fltCode (n : Nat) : (s.afterDraws n).fltCode = s.fltCode := rfl
@[simp] theorem afterDraws_fltUnit (n : Nat) : (s.afterDraws n).fltUnit = s.fltUnit := rfl
@[simp] theorem afterDraws_fltSub (n : Nat) : (s.afterDraws n).fltSub = s.fltSub := rfl
@[simp] theorem afterDraws_fltOpc (n : Nat) : (s.afterDraws n).fltOpc = s.fltOpc := rfl
@[simp] theorem afterDraws_fltInfo (n : Nat) : (s.afterDraws n).fltInfo = s.fltInfo := rfl
@[simp] theorem afterDraws_fatal (n : Nat) : (s.afterDraws n).fatal = s.fatal := rfl
@[simp] theorem afterDraws_pixW (n : Nat) : (s.afterDraws n).pixW = s.pixW := rfl
@[simp] theorem afterDraws_pixH (n : Nat) : (s.afterDraws n).pixH = s.pixH := rfl
@[simp] theorem afterDraws_pix (n : Nat) : (s.afterDraws n).pix = s.pix := rfl
@[simp] theorem afterDraws_srcLen (n : Nat) : (s.afterDraws n).srcLen = s.srcLen := rfl
@[simp] theorem afterDraws_src (n : Nat) : (s.afterDraws n).src = s.src := rfl
@[simp] theorem afterDraws_dst (n : Nat) : (s.afterDraws n).dst = s.dst := rfl
@[simp] theorem afterDraws_hdrOvf (n : Nat) : (s.afterDraws n).hdrOvf = s.hdrOvf := rfl
@[simp] theorem afterDraws_finalFill (n : Nat) : (s.afterDraws n).finalFill = s.finalFill := rfl
@[simp] theorem afterDraws_port (n : Nat) : (s.afterDraws n).port = s.port := rfl
@[simp] theorem afterDraws_ioAnswers (n : Nat) : (s.afterDraws n).ioAnswers = s.ioAnswers.drop n := rfl
@[simp] theorem afterDraws_ioDraws (n : Nat) : (s.afterDraws n).ioDraws = s.ioDraws + n := rfl

/-! ### withResponse -/

@[simp] theorem withResponse_brState : (s.withResponse t).brState = s.brState := rfl
@[simp] theorem withResponse_rdPos : (s.withResponse t).rdPos = s.rdPos := rfl
@[simp] theorem withResponse_srcSize : (s.withResponse t).srcSize = s.srcSize := rfl
@[simp] theorem withResponse_bwState : (s.withResponse t).bwState = s.bwState := rfl
@[simp] theorem withResponse_wrPos : (s.withResponse t).wrPos = s.wrPos := rfl
@[simp] theorem withResponse_wrAcc : (s.withResponse t).wrAcc = s.wrAcc := rfl
@[simp] theorem withResponse_wsState : (s.withResponse t).wsState = s.wsState := rfl
@[simp] theorem withResponse_imgW : (s.withResponse t).imgW = s.imgW := rfl
@[simp] theorem withResponse_imgH : (s.withResponse t).imgH = s.imgH := rfl
@[simp] theorem withResponse_hdrLen : (s.withResponse t).hdrLen = s.hdrLen := rfl
@[simp] theorem withResponse_xferCount : (s.withResponse t).xferCount = s.xferCount := rfl
@[simp] theorem withResponse_xferRem : (s.withResponse t).xferRem = s.xferRem := rfl
@[simp] theorem withResponse_xferIdx : (s.withResponse t).xferIdx = s.xferIdx := rfl
@[simp] theorem withResponse_cmd : (s.withResponse t).cmd = s.cmd := rfl
@[simp] theorem withResponse_arg : (s.withResponse t).arg = s.arg := rfl
@[simp] theorem withResponse_rspCode : (s.withResponse t).rspCode = t.rspCode := rfl
@[simp] theorem withResponse_result : (s.withResponse t).result = t.result := rfl
@[simp] theorem withResponse_fltValid : (s.withResponse t).fltValid = s.fltValid := rfl
@[simp] theorem withResponse_fltCode : (s.withResponse t).fltCode = s.fltCode := rfl
@[simp] theorem withResponse_fltUnit : (s.withResponse t).fltUnit = s.fltUnit := rfl
@[simp] theorem withResponse_fltSub : (s.withResponse t).fltSub = s.fltSub := rfl
@[simp] theorem withResponse_fltOpc : (s.withResponse t).fltOpc = s.fltOpc := rfl
@[simp] theorem withResponse_fltInfo : (s.withResponse t).fltInfo = s.fltInfo := rfl
@[simp] theorem withResponse_fatal : (s.withResponse t).fatal = s.fatal := rfl
@[simp] theorem withResponse_pixW : (s.withResponse t).pixW = s.pixW := rfl
@[simp] theorem withResponse_pixH : (s.withResponse t).pixH = s.pixH := rfl
@[simp] theorem withResponse_pix : (s.withResponse t).pix = s.pix := rfl
@[simp] theorem withResponse_srcLen : (s.withResponse t).srcLen = s.srcLen := rfl
@[simp] theorem withResponse_src : (s.withResponse t).src = s.src := rfl
@[simp] theorem withResponse_dst : (s.withResponse t).dst = s.dst := rfl
@[simp] theorem withResponse_hdrOvf : (s.withResponse t).hdrOvf = s.hdrOvf := rfl
@[simp] theorem withResponse_finalFill : (s.withResponse t).finalFill = s.finalFill := rfl
@[simp] theorem withResponse_port : (s.withResponse t).port = s.port := rfl
@[simp] theorem withResponse_ioAnswers : (s.withResponse t).ioAnswers = s.ioAnswers := rfl
@[simp] theorem withResponse_ioDraws : (s.withResponse t).ioDraws = s.ioDraws := rfl

/-! ### withOutcome -/

@[simp] theorem withOutcome_brState : (s.withOutcome t).brState = s.brState := rfl
@[simp] theorem withOutcome_rdPos : (s.withOutcome t).rdPos = s.rdPos := rfl
@[simp] theorem withOutcome_srcSize : (s.withOutcome t).srcSize = s.srcSize := rfl
@[simp] theorem withOutcome_bwState : (s.withOutcome t).bwState = s.bwState := rfl
@[simp] theorem withOutcome_wrPos : (s.withOutcome t).wrPos = s.wrPos := rfl
@[simp] theorem withOutcome_wrAcc : (s.withOutcome t).wrAcc = s.wrAcc := rfl
@[simp] theorem withOutcome_wsState : (s.withOutcome t).wsState = s.wsState := rfl
@[simp] theorem withOutcome_imgW : (s.withOutcome t).imgW = s.imgW := rfl
@[simp] theorem withOutcome_imgH : (s.withOutcome t).imgH = s.imgH := rfl
@[simp] theorem withOutcome_hdrLen : (s.withOutcome t).hdrLen = s.hdrLen := rfl
@[simp] theorem withOutcome_xferCount : (s.withOutcome t).xferCount = s.xferCount := rfl
@[simp] theorem withOutcome_xferRem : (s.withOutcome t).xferRem = s.xferRem := rfl
@[simp] theorem withOutcome_xferIdx : (s.withOutcome t).xferIdx = s.xferIdx := rfl
@[simp] theorem withOutcome_cmd : (s.withOutcome t).cmd = s.cmd := rfl
@[simp] theorem withOutcome_arg : (s.withOutcome t).arg = s.arg := rfl
@[simp] theorem withOutcome_rspCode : (s.withOutcome t).rspCode = t.rspCode := rfl
@[simp] theorem withOutcome_result : (s.withOutcome t).result = t.result := rfl
@[simp] theorem withOutcome_fltValid : (s.withOutcome t).fltValid = t.fltValid := rfl
@[simp] theorem withOutcome_fltCode : (s.withOutcome t).fltCode = t.fltCode := rfl
@[simp] theorem withOutcome_fltUnit : (s.withOutcome t).fltUnit = t.fltUnit := rfl
@[simp] theorem withOutcome_fltSub : (s.withOutcome t).fltSub = t.fltSub := rfl
@[simp] theorem withOutcome_fltOpc : (s.withOutcome t).fltOpc = t.fltOpc := rfl
@[simp] theorem withOutcome_fltInfo : (s.withOutcome t).fltInfo = t.fltInfo := rfl
@[simp] theorem withOutcome_fatal : (s.withOutcome t).fatal = s.fatal := rfl
@[simp] theorem withOutcome_pixW : (s.withOutcome t).pixW = s.pixW := rfl
@[simp] theorem withOutcome_pixH : (s.withOutcome t).pixH = s.pixH := rfl
@[simp] theorem withOutcome_pix : (s.withOutcome t).pix = s.pix := rfl
@[simp] theorem withOutcome_srcLen : (s.withOutcome t).srcLen = s.srcLen := rfl
@[simp] theorem withOutcome_src : (s.withOutcome t).src = s.src := rfl
@[simp] theorem withOutcome_dst : (s.withOutcome t).dst = s.dst := rfl
@[simp] theorem withOutcome_hdrOvf : (s.withOutcome t).hdrOvf = s.hdrOvf := rfl
@[simp] theorem withOutcome_finalFill : (s.withOutcome t).finalFill = s.finalFill := rfl
@[simp] theorem withOutcome_port : (s.withOutcome t).port = s.port := rfl
@[simp] theorem withOutcome_ioAnswers : (s.withOutcome t).ioAnswers = s.ioAnswers := rfl
@[simp] theorem withOutcome_ioDraws : (s.withOutcome t).ioDraws = s.ioDraws := rfl

/-! ### withDraws -/

@[simp] theorem withDraws_brState : (s.withDraws t).brState = s.brState := rfl
@[simp] theorem withDraws_rdPos : (s.withDraws t).rdPos = s.rdPos := rfl
@[simp] theorem withDraws_srcSize : (s.withDraws t).srcSize = s.srcSize := rfl
@[simp] theorem withDraws_bwState : (s.withDraws t).bwState = s.bwState := rfl
@[simp] theorem withDraws_wrPos : (s.withDraws t).wrPos = s.wrPos := rfl
@[simp] theorem withDraws_wrAcc : (s.withDraws t).wrAcc = s.wrAcc := rfl
@[simp] theorem withDraws_wsState : (s.withDraws t).wsState = s.wsState := rfl
@[simp] theorem withDraws_imgW : (s.withDraws t).imgW = s.imgW := rfl
@[simp] theorem withDraws_imgH : (s.withDraws t).imgH = s.imgH := rfl
@[simp] theorem withDraws_hdrLen : (s.withDraws t).hdrLen = s.hdrLen := rfl
@[simp] theorem withDraws_xferCount : (s.withDraws t).xferCount = s.xferCount := rfl
@[simp] theorem withDraws_xferRem : (s.withDraws t).xferRem = s.xferRem := rfl
@[simp] theorem withDraws_xferIdx : (s.withDraws t).xferIdx = s.xferIdx := rfl
@[simp] theorem withDraws_cmd : (s.withDraws t).cmd = s.cmd := rfl
@[simp] theorem withDraws_arg : (s.withDraws t).arg = s.arg := rfl
@[simp] theorem withDraws_rspCode : (s.withDraws t).rspCode = s.rspCode := rfl
@[simp] theorem withDraws_result : (s.withDraws t).result = s.result := rfl
@[simp] theorem withDraws_fltValid : (s.withDraws t).fltValid = s.fltValid := rfl
@[simp] theorem withDraws_fltCode : (s.withDraws t).fltCode = s.fltCode := rfl
@[simp] theorem withDraws_fltUnit : (s.withDraws t).fltUnit = s.fltUnit := rfl
@[simp] theorem withDraws_fltSub : (s.withDraws t).fltSub = s.fltSub := rfl
@[simp] theorem withDraws_fltOpc : (s.withDraws t).fltOpc = s.fltOpc := rfl
@[simp] theorem withDraws_fltInfo : (s.withDraws t).fltInfo = s.fltInfo := rfl
@[simp] theorem withDraws_fatal : (s.withDraws t).fatal = s.fatal := rfl
@[simp] theorem withDraws_pixW : (s.withDraws t).pixW = s.pixW := rfl
@[simp] theorem withDraws_pixH : (s.withDraws t).pixH = s.pixH := rfl
@[simp] theorem withDraws_pix : (s.withDraws t).pix = s.pix := rfl
@[simp] theorem withDraws_srcLen : (s.withDraws t).srcLen = s.srcLen := rfl
@[simp] theorem withDraws_src : (s.withDraws t).src = s.src := rfl
@[simp] theorem withDraws_dst : (s.withDraws t).dst = s.dst := rfl
@[simp] theorem withDraws_hdrOvf : (s.withDraws t).hdrOvf = s.hdrOvf := rfl
@[simp] theorem withDraws_finalFill : (s.withDraws t).finalFill = s.finalFill := rfl
@[simp] theorem withDraws_port : (s.withDraws t).port = s.port := rfl
@[simp] theorem withDraws_ioAnswers : (s.withDraws t).ioAnswers = t.ioAnswers := rfl
@[simp] theorem withDraws_ioDraws : (s.withDraws t).ioDraws = t.ioDraws := rfl

/-! ### hostReset -/

@[simp] theorem hostReset_brState : (hostReset s).brState = State.reset.brState := rfl
@[simp] theorem hostReset_rdPos : (hostReset s).rdPos = State.reset.rdPos := rfl
@[simp] theorem hostReset_srcSize : (hostReset s).srcSize = State.reset.srcSize := rfl
@[simp] theorem hostReset_bwState : (hostReset s).bwState = State.reset.bwState := rfl
@[simp] theorem hostReset_wrPos : (hostReset s).wrPos = State.reset.wrPos := rfl
@[simp] theorem hostReset_wrAcc : (hostReset s).wrAcc = State.reset.wrAcc := rfl
@[simp] theorem hostReset_wsState : (hostReset s).wsState = State.reset.wsState := rfl
@[simp] theorem hostReset_imgW : (hostReset s).imgW = State.reset.imgW := rfl
@[simp] theorem hostReset_imgH : (hostReset s).imgH = State.reset.imgH := rfl
@[simp] theorem hostReset_hdrLen : (hostReset s).hdrLen = State.reset.hdrLen := rfl
@[simp] theorem hostReset_xferCount : (hostReset s).xferCount = State.reset.xferCount := rfl
@[simp] theorem hostReset_xferRem : (hostReset s).xferRem = State.reset.xferRem := rfl
@[simp] theorem hostReset_xferIdx : (hostReset s).xferIdx = State.reset.xferIdx := rfl
@[simp] theorem hostReset_cmd : (hostReset s).cmd = State.reset.cmd := rfl
@[simp] theorem hostReset_arg : (hostReset s).arg = State.reset.arg := rfl
@[simp] theorem hostReset_rspCode : (hostReset s).rspCode = State.reset.rspCode := rfl
@[simp] theorem hostReset_result : (hostReset s).result = State.reset.result := rfl
@[simp] theorem hostReset_fltValid : (hostReset s).fltValid = State.reset.fltValid := rfl
@[simp] theorem hostReset_fltCode : (hostReset s).fltCode = State.reset.fltCode := rfl
@[simp] theorem hostReset_fltUnit : (hostReset s).fltUnit = State.reset.fltUnit := rfl
@[simp] theorem hostReset_fltSub : (hostReset s).fltSub = State.reset.fltSub := rfl
@[simp] theorem hostReset_fltOpc : (hostReset s).fltOpc = State.reset.fltOpc := rfl
@[simp] theorem hostReset_fltInfo : (hostReset s).fltInfo = State.reset.fltInfo := rfl
@[simp] theorem hostReset_fatal : (hostReset s).fatal = State.reset.fatal := rfl
@[simp] theorem hostReset_pixW : (hostReset s).pixW = s.pixW := rfl
@[simp] theorem hostReset_pixH : (hostReset s).pixH = s.pixH := rfl
@[simp] theorem hostReset_pix : (hostReset s).pix = s.pix := rfl
@[simp] theorem hostReset_srcLen : (hostReset s).srcLen = s.srcLen := rfl
@[simp] theorem hostReset_src : (hostReset s).src = s.src := rfl
@[simp] theorem hostReset_dst : (hostReset s).dst = s.dst := rfl
@[simp] theorem hostReset_hdrOvf : (hostReset s).hdrOvf = s.hdrOvf := rfl
@[simp] theorem hostReset_finalFill : (hostReset s).finalFill = s.finalFill := rfl
@[simp] theorem hostReset_port : (hostReset s).port = s.port := rfl
@[simp] theorem hostReset_ioAnswers : (hostReset s).ioAnswers = s.ioAnswers := rfl
@[simp] theorem hostReset_ioDraws : (hostReset s).ioDraws = s.ioDraws := rfl

end

end Sys2Proof.Machine
end

