-- ==== Sys2Proof/Laws/Checks.lean ====
section
/-! SUPPORT. The common checks: what a command answers when they pass, and everything they can answer. -/

namespace Sys2Proof.Machine

/-! ## Which unit state each command requires (10_state.md R33) -/

theorem firstUnmet_brOpen (s : State) : firstUnmet .brOpen s = none ↔ s.brState = .closed := by
  simp [firstUnmet, requirements, Requirement.met]
theorem firstUnmet_brSize (s : State) : firstUnmet .brSize s = none ↔ s.brState = .open := by
  simp [firstUnmet, requirements, Requirement.met]
theorem firstUnmet_brReadBit (s : State) : firstUnmet .brReadBit s = none ↔ s.brState = .open := by
  simp [firstUnmet, requirements, Requirement.met]
theorem firstUnmet_brReadBits (s : State) : firstUnmet .brReadBits s = none ↔ s.brState = .open := by
  simp [firstUnmet, requirements, Requirement.met]
theorem firstUnmet_brClose (s : State) : firstUnmet .brClose s = none ↔ s.brState = .open := by
  simp [firstUnmet, requirements, Requirement.met]
theorem firstUnmet_bwOpen (s : State) : firstUnmet .bwOpen s = none ↔ s.bwState = .closed := by
  simp [firstUnmet, requirements, Requirement.met]
theorem firstUnmet_bwWriteBit (s : State) : firstUnmet .bwWriteBit s = none ↔ s.bwState = .open := by
  simp [firstUnmet, requirements, Requirement.met]
theorem firstUnmet_bwWriteBits (s : State) : firstUnmet .bwWriteBits s = none ↔ s.bwState = .open := by
  simp [firstUnmet, requirements, Requirement.met]
theorem firstUnmet_bwFinish (s : State) : firstUnmet .bwFinish s = none ↔ s.bwState = .open := by
  simp [firstUnmet, requirements, Requirement.met]
theorem firstUnmet_wsBind (s : State) : firstUnmet .wsBind s = none ↔ s.wsState = .unbound := by
  simp [firstUnmet, requirements, Requirement.met]
theorem firstUnmet_wsReadWord (s : State) : firstUnmet .wsReadWord s = none ↔ s.wsState ≠ .unbound := by
  simp [firstUnmet, requirements, Requirement.met]
theorem firstUnmet_wsWriteWord (s : State) : firstUnmet .wsWriteWord s = none ↔ s.wsState ≠ .unbound := by
  simp [firstUnmet, requirements, Requirement.met]
theorem firstUnmet_wsWriteStream (s : State) :
    firstUnmet .wsWriteStream s = none ↔ s.wsState = .idle ∧ s.brState = .open := by
  simp [firstUnmet, requirements, Requirement.met]
theorem firstUnmet_wsReadStream (s : State) :
    firstUnmet .wsReadStream s = none ↔ s.wsState = .idle ∧ s.bwState = .open := by
  simp [firstUnmet, requirements, Requirement.met]
theorem firstUnmet_wsIntoInner (s : State) : firstUnmet .wsIntoInner s = none ↔ s.wsState ≠ .unbound := by
  simp [firstUnmet, requirements, Requirement.met]

/-! ## The checks -/

/-- When the checks pass the command runs. -/
theorem withChecks_pass {op : Op} {s : State} (body : Result) (hf : s.fatal = false)
    (hv : s.fltValid = false ∨ isCleanup op = true) (hu : firstUnmet op s = none) :
    withChecks op s body = body := by
  rcases hv with hv | hv <;> simp [withChecks, hf, hv, hu]

/-- FATAL = 1: HALTED (60_exceptions.md R209). -/
theorem withChecks_halted {op : Op} {s : State} (body : Result) (hf : s.fatal = true) :
    withChecks op s body = .next (answerOnly .halted s) := by
  simp [withChecks, hf]

/-- A fault is recorded and the command is no cleanup command: REFUSED (60_exceptions.md R208). -/
theorem withChecks_refused {op : Op} {s : State} (body : Result) (hf : s.fatal = false)
    (hv : s.fltValid = true) (hc : isCleanup op = false) :
    withChecks op s body = .next (answerOnly .refused s) := by
  simp [withChecks, hf, hv, hc]

/-- A unit is not in the state required: STATE_ERROR (60_exceptions.md R205, step 4). -/
theorem withChecks_stateError {op : Op} {s : State} (body : Result) (hf : s.fatal = false)
    (hv : s.fltValid = false ∨ isCleanup op = true) {r : Requirement} (hu : firstUnmet op s = some r) :
    withChecks op s body = .next (faultEntry .stateError r.unit 0 (r.code s) s) := by
  rcases hv with hv | hv <;> simp [withChecks, hf, hv, hu]

/-- Everything a command can do before its own effect (60_exceptions.md R205, steps 1, 3 and 4). -/
theorem withChecks_cases {op : Op} {s : State} {body : Result} {out : Result}
    (h : withChecks op s body = out) :
    (s.fatal = true ∧ out = .next (answerOnly .halted s)) ∨
    (s.fatal = false ∧ s.fltValid = true ∧ isCleanup op = false ∧ out = .next (answerOnly .refused s)) ∨
    (s.fatal = false ∧ (s.fltValid = false ∨ isCleanup op = true) ∧
      ∃ r, firstUnmet op s = some r ∧ out = .next (faultEntry .stateError r.unit 0 (r.code s) s)) ∨
    (s.fatal = false ∧ (s.fltValid = false ∨ isCleanup op = true) ∧ firstUnmet op s = none ∧
      out = body) := by
  subst h
  cases hf : s.fatal with
  | true => exact .inl ⟨rfl, withChecks_halted body hf⟩
  | false =>
    cases hv : s.fltValid with
    | true =>
      cases hc : isCleanup op with
      | false => exact .inr (.inl ⟨rfl, rfl, rfl, withChecks_refused body hf hv hc⟩)
      | true =>
        cases hu : firstUnmet op s with
        | none => exact .inr (.inr (.inr ⟨rfl, .inr rfl, rfl, withChecks_pass body hf (.inr hc) hu⟩))
        | some r =>
          exact .inr (.inr (.inl ⟨rfl, .inr rfl, r, rfl, withChecks_stateError body hf (.inr hc) hu⟩))
    | false =>
      cases hu : firstUnmet op s with
      | none => exact .inr (.inr (.inr ⟨rfl, .inl rfl, rfl, withChecks_pass body hf (.inl hv) hu⟩))
      | some r =>
        exact .inr (.inr (.inl ⟨rfl, .inl rfl, r, rfl, withChecks_stateError body hf (.inl hv) hu⟩))

end Sys2Proof.Machine
end

