-- ==== Sys2Proof/Laws/Encoding.lean ====
section
/-! SUPPORT. The fields of a CMD laid out by cmdWord (30_encoding.md R91). -/

namespace Sys2Proof

@[simp] theorem opcOf_cmdWord (data : Byte) (len : BitVec 4) (opc : BitVec 8) :
    opcOf (cmdWord data len opc) = opc := by
  apply BitVec.eq_of_getLsbD_eq
  intro j hj
  simp only [opcOf, cmdWord, BitVec.getLsbD_extractLsb', BitVec.getLsbD_append]
  simp [hj]

@[simp] theorem lenOf_cmdWord (data : Byte) (len : BitVec 4) (opc : BitVec 8) :
    lenOf (cmdWord data len opc) = len := by
  apply BitVec.eq_of_getLsbD_eq
  intro j hj
  simp only [lenOf, cmdWord, BitVec.getLsbD_extractLsb', BitVec.getLsbD_append]
  simp [hj]

@[simp] theorem dataOf_cmdWord (data : Byte) (len : BitVec 4) (opc : BitVec 8) :
    dataOf (cmdWord data len opc) = data := by
  apply BitVec.eq_of_getLsbD_eq
  intro j hj
  simp only [dataOf, cmdWord, BitVec.getLsbD_extractLsb', BitVec.getLsbD_append]
  have h1 : ¬ 16 + j < 8 := by omega
  have h2 : ¬ 16 + j - 8 < 4 := by omega
  have h3 : ¬ 16 + j - 8 - 4 < 4 := by omega
  have h4 : 16 + j - 8 - 4 - 4 = j := by omega
  simp [hj, h1, h2, h3, h4]

@[simp] theorem bitOf_cmdWord (data : Byte) (len : BitVec 4) (opc : BitVec 8) :
    bitOf (cmdWord data len opc) = data.getLsbD 0 := by
  simp only [bitOf, cmdWord, BitVec.getLsbD_append]
  simp

@[simp] theorem wordOf_cmdWord (data : Byte) (len : BitVec 4) (opc : BitVec 8) :
    wordOf (cmdWord data len opc) = data.setWidth 7 := by
  apply BitVec.eq_of_getLsbD_eq
  intro j hj
  have hd := congrArg (fun b : BitVec 8 => b.getLsbD j) (dataOf_cmdWord data len opc)
  have hj8 : j < 8 := by omega
  simp only [dataOf, BitVec.getLsbD_extractLsb', hj8, decide_true, Bool.true_and] at hd
  simp only [wordOf, BitVec.getLsbD_extractLsb', BitVec.getLsbD_setWidth, hd, hj, decide_true, Bool.true_and]

end Sys2Proof
end

