-- ==== Sys2Proof/Laws/Memory.lean ====
section
/-! SUPPORT. Memory cells: a read after a write, what a write leaves alone, and that every memory
operation keeps the canonical form. -/

namespace Sys2Proof.Machine

@[simp] theorem Memory.read_nil (a : Nat) : Memory.read [] a = Memory.unlisted := rfl

theorem Memory.read_cons (c : Host.Cell) (m : Memory) (a : Nat) :
    Memory.read (c :: m) a = if c.1 = a then c.2 else Memory.read m a := by
  by_cases h : c.1 = a
  · simp [Memory.read, h]
  · have hb : (c.1 == a) = false := by simpa using h
    simp [Memory.read, hb, h]

theorem Memory.read_insert_same (a : Nat) (v : Byte) (m : Memory) (h : ∀ c ∈ m, c.1 ≠ a) :
    Memory.read (Memory.insert a v m) a = v := by
  induction m with
  | nil => simp [Memory.insert, Memory.read_cons]
  | cons c m ih =>
    have hc : c.1 ≠ a := h c (by simp)
    have ih := ih (fun d hd => h d (by simp [hd]))
    unfold Memory.insert
    split
    · simp [Memory.read_cons]
    · simp [Memory.read_cons, hc, ih]

theorem Memory.read_insert_other (a b : Nat) (v : Byte) (m : Memory) (h : b ≠ a) :
    Memory.read (Memory.insert a v m) b = Memory.read m b := by
  induction m with
  | nil => simp [Memory.insert, Memory.read_cons, Ne.symm h]
  | cons c m ih =>
    unfold Memory.insert
    split
    · simp [Memory.read_cons, Ne.symm h]
    · simp [Memory.read_cons, ih]

theorem Memory.read_filter_same (a : Nat) (m : Memory) :
    Memory.read (m.filter (fun c => !(c.1 == a))) a = Memory.unlisted := by
  have : (m.filter (fun c => !(c.1 == a))).find? (fun c => c.1 == a) = none := by
    simp [List.find?_eq_none]
  simp [Memory.read, this]

theorem Memory.read_filter_other (a b : Nat) (m : Memory) (h : b ≠ a) :
    Memory.read (m.filter (fun c => !(c.1 == a))) b = Memory.read m b := by
  induction m with
  | nil => rfl
  | cons c m ih =>
    rw [List.filter_cons]
    by_cases hc : c.1 = a
    · have hcb : c.1 ≠ b := by omega
      simp only [Memory.read_cons, hc, beq_self_eq_true, Bool.not_true, Bool.false_eq_true, if_false, ih]
      simp [Ne.symm h]
    · have hb : (!(c.1 == a)) = true := by simpa using hc
      rw [if_pos hb, Memory.read_cons, Memory.read_cons, ih]

/-- A read after a write to the same address gives the value written. -/
@[simp] theorem Memory.read_write_same (m : Memory) (a : Nat) (v : Byte) :
    Memory.read (Memory.write m a v) a = v := by
  unfold Memory.write
  by_cases hv : v = Memory.unlisted
  · simp [hv, Memory.read_filter_same]
  · simp only [beq_iff_eq, hv, if_false]
    exact Memory.read_insert_same a v _ (by simp)

/-- A write leaves every other address alone. -/
theorem Memory.read_write_other (m : Memory) (a b : Nat) (v : Byte) (h : b ≠ a) :
    Memory.read (Memory.write m a v) b = Memory.read m b := by
  unfold Memory.write
  by_cases hv : v = Memory.unlisted
  · simp [hv, Memory.read_filter_other a b m h]
  · simp only [beq_iff_eq, hv, if_false]
    rw [Memory.read_insert_other a b v _ h, Memory.read_filter_other a b m h]

/-- The two laws of a write in one. -/
theorem Memory.read_write (m : Memory) (a b : Nat) (v : Byte) :
    Memory.read (Memory.write m a v) b = if b = a then v else Memory.read m b := by
  split
  · next h => subst h; simp
  · next h => exact Memory.read_write_other m a b v h

theorem Memory.mem_insert (a : Nat) (v : Byte) (m : Memory) (d : Host.Cell) :
    d ∈ Memory.insert a v m ↔ d = (a, v) ∨ d ∈ m := by
  induction m with
  | nil => simp [Memory.insert]
  | cons c m ih =>
    unfold Memory.insert
    split <;> simp [ih]
    tauto

theorem Memory.insert_rising (a : Nat) (v : Byte) (m : Memory)
    (hm : m.Pairwise (fun c d => c.1 < d.1)) (ha : ∀ c ∈ m, c.1 ≠ a) :
    (Memory.insert a v m).Pairwise (fun c d => c.1 < d.1) := by
  induction m with
  | nil => simp [Memory.insert]
  | cons c m ih =>
    have hc := List.pairwise_cons.mp hm
    have hca : c.1 ≠ a := ha c (by simp)
    unfold Memory.insert
    split
    · next h =>
      refine List.pairwise_cons.mpr ⟨?_, hm⟩
      intro d hd
      rcases List.mem_cons.mp hd with rfl | hd
      · exact h
      · exact lt_trans h (hc.1 d hd)
    · next h =>
      refine List.pairwise_cons.mpr ⟨?_, ih hc.2 (fun d hd => ha d (by simp [hd]))⟩
      intro d hd
      rcases (Memory.mem_insert a v m d).mp hd with rfl | hd
      · show c.1 < a
        omega
      · exact hc.1 d hd

/-- A write keeps the canonical form. -/
theorem Memory.write_wf (m : Memory) (a : Nat) (v : Byte) (h : Memory.wf m) :
    Memory.wf (Memory.write m a v) := by
  have hf : (m.filter (fun c => !(c.1 == a))).Pairwise (fun c d => c.1 < d.1) := h.1.filter _
  unfold Memory.write
  by_cases hv : v = Memory.unlisted
  · simp only [beq_iff_eq, hv, if_true]
    exact ⟨hf, fun c hc => h.2 c (List.mem_of_mem_filter hc)⟩
  · simp only [beq_iff_eq, hv, if_false]
    refine ⟨Memory.insert_rising a v _ hf (by simp), ?_⟩
    intro c hc
    rcases (Memory.mem_insert a v _ c).mp hc with rfl | hc
    · exact hv
    · exact h.2 c (List.mem_of_mem_filter hc)

/-- The memory with nothing listed is canonical. -/
theorem Memory.nil_wf : Memory.wf [] := ⟨List.Pairwise.nil, by simp⟩

/-- The memory of a list of cells is canonical. -/
theorem Memory.ofCells_wf (keep : Nat → Bool) (cells : List Host.Cell) :
    Memory.wf (Memory.ofCells keep cells) := by
  unfold Memory.ofCells
  suffices ∀ m, Memory.wf m → Memory.wf (cells.foldl
      (fun m c => if keep c.1 then Memory.write m c.1 c.2 else m) m) from this [] Memory.nil_wf
  induction cells with
  | nil => exact fun m h => h
  | cons c cs ih =>
    intro m h
    refine ih _ ?_
    dsimp only
    split
    · exact Memory.write_wf m _ _ h
    · exact h

/-- The memory of a list of cells reads as the last cell listed, where `keep` admits one (log 18). -/
theorem Memory.read_ofCells (keep : Nat → Bool) (cells : List Host.Cell) (a : Nat) :
    Memory.read (Memory.ofCells keep cells) a = if keep a then lastListed cells a else 0 := by
  induction cells using List.reverseRecOn with
  | nil => simp [Memory.ofCells, lastListed, Memory.unlisted]
  | append_singleton cells c ih =>
    have hl : lastListed (cells ++ [c]) a = if c.1 = a then c.2 else lastListed cells a := by
      unfold lastListed
      by_cases h : c.1 = a <;> simp [h]
    have ho : Memory.ofCells keep (cells ++ [c]) =
        if keep c.1 then Memory.write (Memory.ofCells keep cells) c.1 c.2 else Memory.ofCells keep cells := by
      simp [Memory.ofCells]
    rw [ho, hl]
    by_cases hk : keep c.1
    · rw [if_pos hk, Memory.read_write, ih]
      by_cases h : c.1 = a
      · subst h; simp [hk]
      · simp [h, Ne.symm h]
    · rw [if_neg hk, ih]
      by_cases h : c.1 = a
      · subst h; simp [hk]
      · simp [h]

/-- Storing a pixel keeps the canonical form. -/
theorem Memory.setPixel_wf (m : Memory) (a : Nat) (p : Pixel) (h : Memory.wf m) :
    Memory.wf (Memory.setPixel m a p) :=
  Memory.write_wf _ _ _ (Memory.write_wf _ _ _ (Memory.write_wf _ _ _ h))

/-- A byte outside the pixel stored is unchanged. -/
theorem Memory.read_setPixel_outside (m : Memory) (a b : Nat) (p : Pixel) (h : b < a ∨ a + 3 ≤ b) :
    Memory.read (Memory.setPixel m a p) b = Memory.read m b := by
  unfold Memory.setPixel
  rw [Memory.read_write_other _ _ _ _ (by omega), Memory.read_write_other _ _ _ _ (by omega),
    Memory.read_write_other _ _ _ _ (by omega)]

/-- The pixel read after it was stored. -/
theorem Memory.pixel_setPixel_same (m : Memory) (a : Nat) (p : Pixel) :
    Memory.pixel (Memory.setPixel m a p) a = p := by
  simp [Memory.pixel, Memory.setPixel, Memory.read_write]

/-- A pixel apart from the one stored is unchanged. -/
theorem Memory.pixel_setPixel_apart (m : Memory) (a b : Nat) (p : Pixel) (h : b + 3 ≤ a ∨ a + 3 ≤ b) :
    Memory.pixel (Memory.setPixel m a p) b = Memory.pixel m b := by
  unfold Memory.pixel
  rw [Memory.read_setPixel_outside _ _ _ _ (by omega), Memory.read_setPixel_outside _ _ _ _ (by omega),
    Memory.read_setPixel_outside _ _ _ _ (by omega)]

/-- Two coordinates with columns below 2^32 have one cell address only if they are equal. -/
theorem pixelAddr_inj {x y x' y' : Nat} (hx : x < 2 ^ 32) (hx' : x' < 2 ^ 32)
    (h : pixelAddr x y = pixelAddr x' y') : x = x' ∧ y = y' := by
  unfold pixelAddr at h
  omega

/-- The cells of two different pixels do not overlap. -/
theorem pixelAddr_apart {x y x' y' : Nat} (h : pixelAddr x y ≠ pixelAddr x' y') :
    pixelAddr x y + 3 ≤ pixelAddr x' y' ∨ pixelAddr x' y' + 3 ≤ pixelAddr x y := by
  unfold pixelAddr at *
  omega

end Sys2Proof.Machine
end

