-- ==== Sys2Proof/Laws/Micro.lean ====
section
/-! SUPPORT. Sequencing of micro-steps: what holds of every way a micro-operation can end, and how it is
carried through andThen and finish. -/

namespace Sys2Proof.Machine

variable {α β : Type}

@[simp] theorem Micro.andThen_done (a : α) (s : State) (f : α → State → Micro β) :
    (Micro.done a s).andThen f = f a s := rfl
@[simp] theorem Micro.andThen_ended (s : State) (f : α → State → Micro β) :
    (Micro.ended s : Micro α).andThen f = .ended s := rfl
@[simp] theorem Micro.andThen_refused (r : Refusal) (f : α → State → Micro β) :
    (Micro.refused r : Micro α).andThen f = .refused r := rfl
@[simp] theorem Micro.finish_done (a : α) (s : State) (v : α → BitVec 64) :
    (Micro.done a s).finish v = .next (respond (v a) s) := rfl
@[simp] theorem Micro.finish_ended (s : State) (v : α → BitVec 64) :
    (Micro.ended s : Micro α).finish v = .next s := rfl
@[simp] theorem Micro.finish_refused (r : Refusal) (v : α → BitVec 64) :
    (Micro.refused r : Micro α).finish v = .refused r := rfl

/-- `done` holds of the value and state of a completed micro-operation, `ended` of the state of one that
ended in fault entry. -/
def Micro.Post (m : Micro α) (done : α → State → Prop) (ended : State → Prop) : Prop :=
  match m with
  | .done a s => done a s
  | .ended s => ended s
  | .refused _ => True

/-- The micro-operation does not refuse. -/
def Micro.Answers (m : Micro α) : Prop :=
  match m with
  | .done _ _ => True
  | .ended _ => True
  | .refused _ => False

theorem Micro.Post.mono {m : Micro α} {d d' : α → State → Prop} {e e' : State → Prop}
    (h : m.Post d e) (hd : ∀ a s, d a s → d' a s) (he : ∀ s, e s → e' s) : m.Post d' e' := by
  cases m with
  | done a s => exact hd a s h
  | ended s => exact he s h
  | refused r => trivial

theorem Micro.Post.andThen {m : Micro α} {f : α → State → Micro β} {d : α → State → Prop}
    {d' : β → State → Prop} {e : State → Prop} (h : m.Post d e)
    (hf : ∀ a s, d a s → (f a s).Post d' e) : (m.andThen f).Post d' e := by
  cases m with
  | done a s => exact hf a s h
  | ended s => exact h
  | refused r => trivial

theorem Micro.Post.finish {m : Micro α} {v : α → BitVec 64} {d : α → State → Prop} {e : State → Prop}
    {t : State} (h : m.Post d e) (ht : m.finish v = .next t) :
    (∃ a s, d a s ∧ t = respond (v a) s) ∨ e t := by
  cases m with
  | done a s => exact .inl ⟨a, s, h, by simpa using ht.symm⟩
  | ended s =>
    simp only [Micro.finish_ended, Host.Outcome.next.injEq] at ht
    exact .inr (ht ▸ h)
  | refused r => simp at ht

/-- Answering is carried through andThen, with what the first part guarantees. -/
theorem Micro.Answers.andThen {m : Micro α} {f : α → State → Micro β} {d : α → State → Prop}
    {e : State → Prop} (hm : m.Answers) (h : m.Post d e) (hf : ∀ a s, d a s → (f a s).Answers) :
    (m.andThen f).Answers := by
  cases m with
  | done a s => exact hf a s h
  | ended s => trivial
  | refused r => exact hm.elim

theorem Micro.Answers.finish {m : Micro α} (h : m.Answers) (v : α → BitVec 64) :
    ∃ t, m.finish v = .next t := by
  cases m with
  | done a s => exact ⟨_, rfl⟩
  | ended s => exact ⟨_, rfl⟩
  | refused r => exact h.elim

theorem Micro.andThen_assoc {γ : Type} (m : Micro α) (f : α → State → Micro β) (g : β → State → Micro γ) :
    (m.andThen f).andThen g = m.andThen fun a s => (f a s).andThen g := by
  cases m <;> rfl

/-- Fault entry ends a command in the faulted state. -/
theorem raise_post (d : α → State → Prop) (e : State → Prop) (c : RspCode) (u : FltUnit) (b : BitVec 2)
    (i : Nat) (s : State) (h : e (faultEntry c u b i s)) : (raise c u b i s : Micro α).Post d e := h

end Sys2Proof.Machine
end

