-- ==== Sys2Proof/Laws/Words.lean ====
section
/-! SUPPORT. The address mapping, the word layout of a pixel, ReadWord and WriteWord, and which word
addresses share a pixel. -/

namespace Sys2Proof.Machine

/-! ## Pack and Unpack, bit by bit -/

theorem pack_getLsbD (p : Pixel) (j : Nat) : (pack p).getLsbD j =
    (if j < 2 then p.b.getLsbD j else if j < 4 then p.g.getLsbD (j - 2)
      else decide (j < 7) && p.r.getLsbD (j - 4)) := by
  simp only [pack, BitVec.getLsbD_append, BitVec.getLsbD_extractLsb']
  by_cases h2 : j < 2
  · simp [h2]
  · by_cases h4 : j < 4
    · have : j - 2 < 2 := by omega
      simp [h2, h4, this]
    · have h : ¬ j - 2 < 2 := by omega
      have e : j - 2 - 2 = j - 4 := by omega
      have d : decide (j - 4 < 3) = decide (j < 7) := by
        apply decide_eq_decide.mpr; omega
      simp [h2, h4, h, e, d]

theorem unpack_r_getLsbD (p : Pixel) (w : PixWord) (j : Nat) : (unpack p w).r.getLsbD j =
    if j < 3 then w.getLsbD (j + 4) else p.r.getLsbD j := by
  simp only [unpack, BitVec.getLsbD_append, BitVec.getLsbD_extractLsb']
  by_cases h : j < 3
  · simp [h, Nat.add_comm]
  · by_cases h8 : j < 8
    · have e : 3 + (j - 3) = j := by omega
      have d : j - 3 < 5 := by omega
      simp [h, e, d]
    · have d : ¬ j - 3 < 5 := by omega
      simp [h, d, BitVec.getLsbD_of_ge p.r j (by omega)]

theorem unpack_g_getLsbD (p : Pixel) (w : PixWord) (j : Nat) : (unpack p w).g.getLsbD j =
    if j < 2 then w.getLsbD (j + 2) else p.g.getLsbD j := by
  simp only [unpack, BitVec.getLsbD_append, BitVec.getLsbD_extractLsb']
  by_cases h : j < 2
  · simp [h, Nat.add_comm]
  · by_cases h8 : j < 8
    · have e : 2 + (j - 2) = j := by omega
      have d : j - 2 < 6 := by omega
      simp [h, e, d]
    · have d : ¬ j - 2 < 6 := by omega
      simp [h, d, BitVec.getLsbD_of_ge p.g j (by omega)]

theorem unpack_b_getLsbD (p : Pixel) (w : PixWord) (j : Nat) : (unpack p w).b.getLsbD j =
    if j < 2 then w.getLsbD j else p.b.getLsbD j := by
  simp only [unpack, BitVec.getLsbD_append, BitVec.getLsbD_extractLsb']
  by_cases h : j < 2
  · simp [h]
  · by_cases h8 : j < 8
    · have e : 2 + (j - 2) = j := by omega
      have d : j - 2 < 6 := by omega
      simp [h, e, d]
    · have d : ¬ j - 2 < 6 := by omega
      simp [h, d, BitVec.getLsbD_of_ge p.b j (by omega)]

/-- The high bits of the channels are left alone (42_word_access.md R152). -/
theorem unpack_high (p : Pixel) (w : PixWord) :
    (unpack p w).r.toNat / 8 = p.r.toNat / 8 ∧ (unpack p w).g.toNat / 4 = p.g.toNat / 4 ∧
      (unpack p w).b.toNat / 4 = p.b.toNat / 4 := by
  refine ⟨?_, ?_, ?_⟩
  · apply Nat.eq_of_testBit_eq; intro j
    have := unpack_r_getLsbD p w (j + 3)
    rw [if_neg (by omega)] at this
    simpa [Nat.testBit_div_two_pow (n := 3), BitVec.getLsbD, Nat.add_comm] using this
  · apply Nat.eq_of_testBit_eq; intro j
    have := unpack_g_getLsbD p w (j + 2)
    rw [if_neg (by omega)] at this
    simpa [Nat.testBit_div_two_pow (n := 2), BitVec.getLsbD, Nat.add_comm] using this
  · apply Nat.eq_of_testBit_eq; intro j
    have := unpack_b_getLsbD p w (j + 2)
    rw [if_neg (by omega)] at this
    simpa [Nat.testBit_div_two_pow (n := 2), BitVec.getLsbD, Nat.add_comm] using this

/-! ## The mapping -/

/-- A word address that reaches a pixel is mapped to it (42_word_access.md R150). -/
theorem mapAddr_ok {s : State} {a : Nat} (h : s.reaches a) :
    mapAddr a s = .done (a % s.imgW.toNat, a / s.imgH.toNat) s := by
  obtain ⟨hw, ha⟩ := h
  have hH : s.imgH.toNat ≠ 0 := by
    intro h0; rw [h0] at ha; omega
  have h1 : ¬ (s.imgW = 0 ∨ s.imgH = 0) := by
    rintro (h | h)
    · exact hw (by rw [h]; rfl)
    · exact hH (by rw [h]; rfl)
  have h2 : ¬ s.imgH.toNat ≤ a / s.imgH.toNat := by
    rw [Nat.not_le]
    exact Nat.div_lt_of_lt_mul ha
  rw [mapAddr, if_neg h1, if_neg h2]

/-- On an empty grid every address faults EMPTY_GRID. -/
theorem mapAddr_empty {s : State} {a : Nat} (h : s.imgW = 0 ∨ s.imgH = 0) :
    mapAddr a s = .ended (faultEntry .addrRange .ws subEmptyGrid a s) := by
  rw [mapAddr, if_pos h]
  rfl

/-- An address at H² or above faults ROW. -/
theorem mapAddr_row {s : State} {a : Nat} (hw : s.imgW ≠ 0) (hh : s.imgH ≠ 0)
    (h : s.imgH.toNat * s.imgH.toNat ≤ a) :
    mapAddr a s = .ended (faultEntry .addrRange .ws subRow a s) := by
  have h0 : 0 < s.imgH.toNat := by
    have : s.imgH.toNat ≠ 0 := fun h0 => hh (BitVec.eq_of_toNat_eq h0)
    omega
  have h2 : s.imgH.toNat ≤ a / s.imgH.toNat := (Nat.le_div_iff_mul_le h0).mpr h
  rw [mapAddr, if_neg (not_or.mpr ⟨hw, hh⟩), if_pos h2]
  rfl

/-- Everything MapAddr can do. -/
theorem mapAddr_cases (a : Nat) (s : State) :
    (s.reaches a ∧ mapAddr a s = .done (a % s.imgW.toNat, a / s.imgH.toNat) s) ∨
    (¬ s.reaches a ∧ ∃ sub, mapAddr a s = .ended (faultEntry .addrRange .ws sub a s)) := by
  by_cases h : s.reaches a
  · exact .inl ⟨h, mapAddr_ok h⟩
  · refine .inr ⟨h, ?_⟩
    by_cases h0 : s.imgW = 0 ∨ s.imgH = 0
    · exact ⟨_, mapAddr_empty h0⟩
    · simp only [not_or] at h0
      have hw : s.imgW.toNat ≠ 0 := fun h1 => h0.1 (BitVec.eq_of_toNat_eq h1)
      refine ⟨_, mapAddr_row h0.1 h0.2 ?_⟩
      rw [← Nat.not_lt]
      exact fun ha => h ⟨hw, ha⟩

theorem reaches_congr {s t : State} (hw : t.imgW = s.imgW) (hh : t.imgH = s.imgH) (a : Nat) :
    t.reaches a ↔ s.reaches a := by
  unfold State.reaches
  rw [hw, hh]

theorem wordAt_congr {s t : State} (hw : t.imgW = s.imgW) (hh : t.imgH = s.imgH) (hp : t.pix = s.pix)
    (a : Nat) : wordAt t a = wordAt s a := by
  unfold wordAt pixelAt pixRead
  rw [hw, hh, hp]

/-- The cell address of the pixel a word address selects. -/
def cellOf (s : State) (a : Nat) : Nat := pixelAddr (a % s.imgW.toNat) (a / s.imgH.toNat)

theorem pixelAt_eq (s : State) (a : Nat) : pixelAt s a = Memory.pixel s.pix (cellOf s a) := rfl

/-- ReadWord of an address that reaches a pixel (42_word_access.md R153). -/
theorem readWord_ok {s : State} {a : Nat} (h : s.reaches a) : readWord a s = .done (wordAt s a) s := by
  rw [readWord, mapAddr_ok h]
  rfl

/-- WriteWord of an address that reaches a pixel (42_word_access.md R154). -/
theorem writeWord_ok {s : State} {a : Nat} (w : PixWord) (h : s.reaches a) :
    writeWord a w s = .done ()
      { s with pix := Memory.setPixel s.pix (cellOf s a) (unpack (pixelAt s a) w) } := by
  rw [writeWord, mapAddr_ok h]
  rfl

theorem readWord_ended {s t : State} {a : Nat} (h : mapAddr a s = .ended t) : readWord a s = .ended t := by
  rw [readWord, h]; rfl

theorem writeWord_ended {s t : State} {a : Nat} (w : PixWord) (h : mapAddr a s = .ended t) :
    writeWord a w s = .ended t := by
  rw [writeWord, h]; rfl

/-! ## Which addresses share a pixel -/

theorem cellOf_inj {s : State} {a b : Nat} (ha : s.imgW.toNat ≠ 0) (h : cellOf s a = cellOf s b) :
    a % s.imgW.toNat = b % s.imgW.toNat ∧ a / s.imgH.toNat = b / s.imgH.toNat := by
  have hw := s.imgW.isLt
  exact pixelAddr_inj (Nat.lt_trans (Nat.mod_lt _ (by omega)) hw)
    (Nat.lt_trans (Nat.mod_lt _ (by omega)) hw) h

theorem cellOf_apart {s : State} {a b : Nat} (h : cellOf s a ≠ cellOf s b) :
    cellOf s a + 3 ≤ cellOf s b ∨ cellOf s b + 3 ≤ cellOf s a := pixelAddr_apart h

/-- Addresses below CAP reach distinct pixels (42_word_access.md R155 e). -/
theorem distinct_below_capacity {W H a b : Nat} (ha : a < capacity W H) (hb : b < capacity W H)
    (hm : a % W = b % W) (hd : a / H = b / H) : a = b := by
  unfold capacity at ha hb
  split at ha
  · next hle =>
    rw [if_pos hle] at hb
    have e1 := Nat.div_add_mod a H
    have e2 := Nat.div_add_mod b H
    have hH : 0 < H := by
      rcases Nat.eq_zero_or_pos H with h0 | h0
      · subst h0; omega
      · exact h0
    have m1 := Nat.mod_lt a hH
    have m2 := Nat.mod_lt b hH
    rw [hd] at e1
    have f1 := Nat.div_add_mod a W
    have f2 := Nat.div_add_mod b W
    rw [hm] at f1
    by_contra hne
    have key : ∀ x y qx qy : Nat, W * qx + b % W = x → W * qy + b % W = y → x < y → W ≤ y - x := by
      intro x y qx qy h1 h2 hlt
      have : qx < qy := by
        by_contra hq
        have := Nat.mul_le_mul_left W (Nat.not_lt.mp hq)
        omega
      have := Nat.mul_le_mul_left W (Nat.succ_le_of_lt this)
      rw [Nat.mul_succ] at this
      omega
    rcases Nat.lt_or_gt_of_ne hne with hlt | hlt
    · have := key _ _ _ _ f1 f2 hlt; omega
    · have := key _ _ _ _ f2 f1 hlt; omega
  · next hle =>
    rw [if_neg hle] at hb
    rwa [Nat.mod_eq_of_lt ha, Nat.mod_eq_of_lt hb] at hm

/-- Addresses below CAP reach pixels (42_word_access.md R155 a). -/
theorem reaches_below_capacity {s : State} {a : Nat}
    (ha : a < capacity s.imgW.toNat s.imgH.toNat) : s.reaches a := by
  unfold capacity at ha
  split at ha
  · next hle =>
    refine ⟨?_, ha⟩
    intro h0
    have : s.imgH.toNat = 0 := by omega
    rw [this] at ha
    omega
  · next hle =>
    refine ⟨by omega, ?_⟩
    have : s.imgH.toNat ≤ s.imgH.toNat * s.imgH.toNat := Nat.le_mul_of_pos_left _ (by omega)
    omega

/-- Two different addresses below CAP reach different cells. -/
theorem cellOf_ne_below_capacity {s : State} {a b : Nat}
    (ha : a < capacity s.imgW.toNat s.imgH.toNat) (hb : b < capacity s.imgW.toNat s.imgH.toNat)
    (h : a ≠ b) : cellOf s a ≠ cellOf s b := fun hc =>
  h (let ⟨hm, hd⟩ := cellOf_inj (reaches_below_capacity ha).1 hc
     distinct_below_capacity ha hb hm hd)

end Sys2Proof.Machine
end

