-- ==== Sys2Proof/Laws/Ports.lean ====
section
/-! SUPPORT. The answers of the port environment, the source port and the destination port. -/

namespace Sys2Proof.Machine

/-! ## Answers -/

theorem answerFrom_drop (xs : List Bool) (d n k : Nat) :
    answerFrom (xs.drop n) (d + n) k = answerFrom xs d (n + k) := by
  unfold answerFrom
  rw [List.getElem?_drop, Nat.add_assoc]

/-- After n draws the k-th answer is the (n + k)-th from before. -/
@[simp] theorem afterDraws_ioAnswer (s : State) (n k : Nat) :
    (s.afterDraws n).ioAnswer k = s.ioAnswer (n + k) :=
  answerFrom_drop s.ioAnswers s.ioDraws n k

/-- The answers depend on the two input fields only. -/
theorem ioAnswer_congr {s t : State} (ha : t.ioAnswers = s.ioAnswers) (hd : t.ioDraws = s.ioDraws)
    (k : Nat) : t.ioAnswer k = s.ioAnswer k := by
  unfold State.ioAnswer
  rw [ha, hd]

@[simp] theorem afterDraws_zero (s : State) : s.afterDraws 0 = s := rfl

theorem afterDraws_afterDraws (s : State) (m n : Nat) :
    (s.afterDraws m).afterDraws n = s.afterDraws (m + n) := by
  simp [State.afterDraws, List.drop_drop, Nat.add_assoc]

theorem portsAnswer_mono {s : State} {m n : Nat} (h : s.portsAnswer n) (hm : m ≤ n) : s.portsAnswer m :=
  fun k hk => h k (Nat.lt_of_lt_of_le hk hm)

theorem portsAnswer_afterDraws {s : State} {m n : Nat} (h : s.portsAnswer (m + n)) :
    (s.afterDraws m).portsAnswer n := fun k hk => by
  rw [afterDraws_ioAnswer]
  exact h _ (by omega)

/-! ## The ports -/

/-- A byte at or past the end of the file: EOF, and no answer is drawn (20_memory.md R52). -/
theorem srcByte_eof {s : State} {i : Nat} (h : s.srcSize.toNat ≤ i) : srcByte i s = (.failEof, s) := by
  simp [srcByte, h]

theorem srcByte_ok {s : State} {i : Nat} (h : i < s.srcSize.toNat) (ha : s.ioAnswer 0 = true) :
    srcByte i s = (.ok (Memory.read s.src i), s.afterDraws 1) := by
  simp [srcByte, Nat.not_le.mpr h, ha]

theorem srcByte_fail {s : State} {i : Nat} (h : i < s.srcSize.toNat) (ha : s.ioAnswer 0 = false) :
    srcByte i s = (.failPort, s.afterDraws 1) := by
  simp [srcByte, Nat.not_le.mpr h, ha]

theorem dstAppend_ok {s : State} (b : Byte) (ha : s.ioAnswer 0 = true) :
    dstAppend b s = (true, { s.afterDraws 1 with dst := s.dst ++ [b] }) := by
  simp [dstAppend, ha]

theorem dstAppend_fail {s : State} (b : Byte) (ha : s.ioAnswer 0 = false) :
    dstAppend b s = (false, s.afterDraws 1) := by
  simp [dstAppend, ha]

end Sys2Proof.Machine
end

