-- ==== Sys2Proof/Laws/Reader.lean ====
section
/-! SUPPORT. ReadBit and ReadBits: their three outcomes, the value of a group, and what they leave
unchanged. -/

namespace Sys2Proof.Machine

/-- The state after n source bits were read successfully. -/
def State.consumed (s : State) (n : Nat) : State :=
  { s.afterDraws n with rdPos := BitVec.ofNat 67 (s.rdPos.toNat + n) }

@[simp] theorem consumed_zero (s : State) : s.consumed 0 = s := by
  simp [State.consumed]

theorem sourceBits_lt (s : State) : 8 * s.srcSize.toNat < 2 ^ 67 - 7 := by
  have := s.srcSize.isLt
  omega

/-- With 67 bits RD_POS does not wrap below 8·SRC_SIZE (10_state.md R22). -/
theorem consumed_rdPos {s : State} {n : Nat} (h : s.rdPos.toNat + n ≤ 8 * s.srcSize.toNat) :
    (s.consumed n).rdPos.toNat = s.rdPos.toNat + n := by
  have := sourceBits_lt s
  simp only [State.consumed, BitVec.toNat_ofNat]
  omega

theorem consumed_consumed {s : State} {m n : Nat} (h : s.rdPos.toNat + m ≤ 8 * s.srcSize.toNat) :
    (s.consumed m).consumed n = s.consumed (m + n) := by
  have h1 := consumed_rdPos h
  unfold State.consumed at h1 ⊢
  rw [h1]
  simp [State.afterDraws, List.drop_drop, Nat.add_assoc]

/-- A ReadBit inside the file whose port answers (40_bit_reader.md R111). -/
theorem readBit_ok {s : State} (h : s.rdPos.toNat < 8 * s.srcSize.toNat) (ha : s.ioAnswer 0 = true) :
    readBit s = .done (srcBit s s.rdPos.toNat) (s.consumed 1) := by
  have hp : s.rdPos + 1 = BitVec.ofNat 67 (s.rdPos.toNat + 1) := by
    apply BitVec.eq_of_toNat_eq
    simp [BitVec.toNat_add]
  simp only [readBit, srcByte_ok (s := s) (i := s.rdPos.toNat / 8) (by omega) ha, srcBit, State.consumed, hp]

/-- A ReadBit at or past the end of the file. -/
theorem readBit_eof {s : State} (h : 8 * s.srcSize.toNat ≤ s.rdPos.toNat) :
    readBit s = .ended (faultEntry .ioError .br subEof s.rdPos.toNat s) := by
  simp only [readBit, srcByte_eof (s := s) (i := s.rdPos.toNat / 8) (by omega), raise]

/-- A ReadBit inside the file whose port fails. -/
theorem readBit_fail {s : State} (h : s.rdPos.toNat < 8 * s.srcSize.toNat) (ha : s.ioAnswer 0 = false) :
    readBit s = .ended (faultEntry .ioError .br subSrcRead s.rdPos.toNat (s.afterDraws 1)) := by
  simp only [readBit, srcByte_fail (s := s) (i := s.rdPos.toNat / 8) (by omega) ha, raise]

/-- Everything a ReadBit can do. -/
theorem readBit_cases (s : State) :
    (s.rdPos.toNat < 8 * s.srcSize.toNat ∧ s.ioAnswer 0 = true ∧
      readBit s = .done (srcBit s s.rdPos.toNat) (s.consumed 1)) ∨
    (8 * s.srcSize.toNat ≤ s.rdPos.toNat ∧
      readBit s = .ended (faultEntry .ioError .br subEof s.rdPos.toNat s)) ∨
    (s.rdPos.toNat < 8 * s.srcSize.toNat ∧ s.ioAnswer 0 = false ∧
      readBit s = .ended (faultEntry .ioError .br subSrcRead s.rdPos.toNat (s.afterDraws 1))) := by
  by_cases h : s.rdPos.toNat < 8 * s.srcSize.toNat
  · cases ha : s.ioAnswer 0 with
    | true => exact .inl ⟨h, rfl, readBit_ok h ha⟩
    | false => exact .inr (.inr ⟨h, rfl, readBit_fail h ha⟩)
  · exact .inr (.inl ⟨by omega, readBit_eof (by omega)⟩)

theorem bitAt_getLsbD (b : Bool) (k j : Nat) (hk : k < 8) :
    (bitAt b k).getLsbD j = (decide (j = k) && b) := by
  simp only [bitAt, BitVec.getLsbD_shiftLeft, BitVec.getLsbD_setWidth, BitVec.getLsbD_ofBool]
  by_cases h : j = k
  · subst h; simp [hk]
  · by_cases h' : j < k
    · simp [h, h']
    · have : j - k ≠ 0 := by omega
      simp [h, this]

/-- The first m bits of a group are read one by one, and the rest goes on from there. -/
theorem readBitsFrom_split (m : Nat) : ∀ (n k : Nat) (v : Byte) (s : State), m ≤ n → k + n ≤ 8 →
    s.rdPos.toNat + m ≤ 8 * s.srcSize.toNat → s.portsAnswer m →
    ∃ w, readBitsFrom n k v s = readBitsFrom (n - m) (k + m) w (s.consumed m) ∧
      ∀ j, w.getLsbD j =
        (v.getLsbD j || (decide (k ≤ j ∧ j < k + m) && srcBit s (s.rdPos.toNat + (j - k)))) := by
  induction m with
  | zero =>
    intro n k v s _ _ _ _
    refine ⟨v, by simp, fun j => ?_⟩
    simp
  | succ m ih =>
    intro n k v s hn hk hs hp
    obtain ⟨n, rfl⟩ : ∃ n', n = n' + 1 := ⟨n - 1, by omega⟩
    have h1 : s.rdPos.toNat + 1 ≤ 8 * s.srcSize.toNat := by omega
    have hr := consumed_rdPos h1
    have hsz : (s.consumed 1).srcSize = s.srcSize := rfl
    have hsrc : ∀ p, srcBit (s.consumed 1) p = srcBit s p := fun p => rfl
    have hp' : (s.consumed 1).portsAnswer m := portsAnswer_afterDraws (s := s) (m := 1) (n := m)
      (by rw [Nat.add_comm]; exact hp)
    obtain ⟨w, hw, hb⟩ := ih n (k + 1) (v ||| bitAt (srcBit s s.rdPos.toNat) k) (s.consumed 1)
      (by omega) (by omega) (by rw [hr, hsz]; omega) hp'
    refine ⟨w, ?_, fun j => ?_⟩
    · rw [readBitsFrom, readBit_ok (by omega) (hp 0 (by omega)), Micro.andThen_done, hw,
        consumed_consumed h1, Nat.add_sub_add_right, Nat.add_assoc, Nat.add_comm 1 m]
    · rw [hb j, hr, BitVec.getLsbD_or, bitAt_getLsbD _ _ _ (by omega), hsrc]
      by_cases hj : j = k
      · subst hj; simp
      · by_cases hj' : k + 1 ≤ j ∧ j < k + 1 + m
        · have e : s.rdPos.toNat + 1 + (j - (k + 1)) = s.rdPos.toNat + (j - k) := by omega
          have h2 : k ≤ j ∧ j < k + (m + 1) := by omega
          simp [hj, hj', h2, e]
        · have h2 : ¬ (k ≤ j ∧ j < k + (m + 1)) := by omega
          simp only [hj, hj', h2, decide_false, Bool.false_and, Bool.or_false]

/-- A group inside the file whose ports answer: "bit 0 of the result = first bit read"
(40_bit_reader.md R112). -/
theorem readBits_ok {s : State} {len : Nat} (hl : len ≤ 8)
    (hs : s.rdPos.toNat + len ≤ 8 * s.srcSize.toNat) (hp : s.portsAnswer len) :
    ∃ v, readBits len s = .done v (s.consumed len) ∧
      ∀ j, v.getLsbD j = (decide (j < len) && srcBit s (s.rdPos.toNat + j)) := by
  obtain ⟨w, hw, hb⟩ := readBitsFrom_split len len 0 0 s (le_refl _) (by omega) hs hp
  refine ⟨w, ?_, fun j => ?_⟩
  · rw [readBits, hw, Nat.sub_self, readBitsFrom]
  · rw [hb j]
    simp

/-- A group whose bit m faults: the bits before it stay consumed (40_bit_reader.md R112). -/
theorem readBits_ended {s t : State} {len m : Nat} (hl : len ≤ 8) (hm : m < len)
    (hs : s.rdPos.toNat + m ≤ 8 * s.srcSize.toNat) (hp : s.portsAnswer m)
    (ht : readBit (s.consumed m) = .ended t) : readBits len s = .ended t := by
  obtain ⟨w, hw, -⟩ := readBitsFrom_split m len 0 0 s (by omega) (by omega) hs hp
  obtain ⟨n, hn⟩ : ∃ n, len - m = n + 1 := ⟨len - m - 1, by omega⟩
  rw [readBits, hw, hn, readBitsFrom, ht, Micro.andThen_ended]

/-- Reading never refuses. -/
theorem readBitsFrom_answers : ∀ (n k : Nat) (v : Byte) (s : State), (readBitsFrom n k v s).Answers := by
  intro n
  induction n with
  | zero => exact fun k v s => trivial
  | succ n ih =>
    intro k v s
    rcases readBit_cases s with ⟨-, -, h⟩ | ⟨-, h⟩ | ⟨-, -, h⟩ <;> rw [readBitsFrom, h]
    · exact ih _ _ _
    · trivial
    · trivial

end Sys2Proof.Machine
end

