-- ==== Sys2Proof/Laws/Writer.lean ====
section
/-! SUPPORT. WriteBit and WriteBits: their outcomes, the bits a sequence of writes leaves in DST and
WR_ACC, and what they leave unchanged. -/

namespace Sys2Proof.Machine

/-- A value below 2^k has no bit at k or above. -/
theorem getLsbD_of_lt {w : Nat} {x : BitVec w} {k j : Nat} (h : x.toNat < 2 ^ k) (hj : k ≤ j) :
    x.getLsbD j = false :=
  Nat.testBit_lt_two_pow (Nat.lt_of_lt_of_le h (Nat.pow_le_pow_right (by omega) hj))

/-- A value without a bit at k or above is below 2^k. -/
theorem lt_of_getLsbD {w : Nat} {x : BitVec w} {k : Nat} (h : ∀ j, k ≤ j → x.getLsbD j = false) :
    x.toNat < 2 ^ k :=
  Nat.lt_pow_two_of_testBit _ fun j hj => h j hj

theorem accumulate_pos {s : State} (bit : Bool) (h : s.wrPos.toNat + 1 < 2 ^ 67) :
    (accumulate bit s).wrPos.toNat = s.wrPos.toNat + 1 := by
  have h1 : (1 : BitPos).toNat = 1 := rfl
  rw [accumulate_wrPos, BitVec.toNat_add, h1]
  omega

/-- A WriteBit that does not complete a byte (41_bit_writer.md R131). -/
theorem writeBit_inside {s : State} (bit : Bool) (h : s.wrPos.toNat % 8 ≠ 7) :
    writeBit bit s = .done () (accumulate bit s) := by
  have hl := s.wrPos.isLt
  have h1 : s.wrPos.toNat + 1 ≠ 2 ^ 67 := by omega
  have h2 : (accumulate bit s).wrPos.toNat % 8 ≠ 0 := by
    rw [accumulate_pos bit (by omega)]
    omega
  rw [writeBit, if_neg h1, if_neg h2]

/-- A WriteBit that completes a byte flushes it (41_bit_writer.md R131). -/
theorem writeBit_full {s : State} (bit : Bool) (h : s.wrPos.toNat % 8 = 7)
    (hl : s.wrPos.toNat + 1 < 2 ^ 67) : writeBit bit s = flush (accumulate bit s) := by
  have h1 : s.wrPos.toNat + 1 ≠ 2 ^ 67 := by omega
  have h2 : (accumulate bit s).wrPos.toNat % 8 = 0 := by
    rw [accumulate_pos bit hl]
    omega
  rw [writeBit, if_neg h1, if_pos h2]

/-- A flush whose append succeeds. -/
theorem flush_ok {s : State} (ha : s.ioAnswer 0 = true) :
    flush s = .done () { s.afterDraws 1 with dst := s.dst ++ [s.wrAcc], wrAcc := 0 } := by
  simp [flush, dstAppend_ok s.wrAcc ha]

/-- A flush whose append fails: WR_ACC keeps the byte. -/
theorem flush_fail {s : State} (ha : s.ioAnswer 0 = false) :
    flush s = .ended (faultEntry .ioError .bw subDstWrite s.wrPos.toNat (s.afterDraws 1)) := by
  simp [flush, dstAppend_fail s.wrAcc ha, raise]

/-- Everything a WriteBit can do. -/
theorem writeBit_cases (bit : Bool) (s : State) :
    (s.wrPos.toNat + 1 = 2 ^ 67 ∧ writeBit bit s = .refused .positionOverflow) ∨
    (s.wrPos.toNat + 1 < 2 ^ 67 ∧ s.wrPos.toNat % 8 ≠ 7 ∧ writeBit bit s = .done () (accumulate bit s)) ∨
    (s.wrPos.toNat + 1 < 2 ^ 67 ∧ s.wrPos.toNat % 8 = 7 ∧ s.ioAnswer 0 = true ∧
      writeBit bit s = .done ()
        { (accumulate bit s).afterDraws 1 with
          dst := s.dst ++ [(accumulate bit s).wrAcc], wrAcc := 0 }) ∨
    (s.wrPos.toNat + 1 < 2 ^ 67 ∧ s.wrPos.toNat % 8 = 7 ∧ s.ioAnswer 0 = false ∧
      writeBit bit s = .ended (faultEntry .ioError .bw subDstWrite (s.wrPos.toNat + 1)
        ((accumulate bit s).afterDraws 1))) := by
  have hl := s.wrPos.isLt
  by_cases h1 : s.wrPos.toNat + 1 = 2 ^ 67
  · exact .inl ⟨h1, by rw [writeBit, if_pos h1]⟩
  · have h1' : s.wrPos.toNat + 1 < 2 ^ 67 := by omega
    by_cases h2 : s.wrPos.toNat % 8 = 7
    · cases ha : s.ioAnswer 0 with
      | true =>
        refine .inr (.inr (.inl ⟨h1', h2, rfl, ?_⟩))
        rw [writeBit_full bit h2 h1', flush_ok (s := accumulate bit s) ha]
        rfl
      | false =>
        refine .inr (.inr (.inr ⟨h1', h2, rfl, ?_⟩))
        rw [writeBit_full bit h2 h1', flush_fail (s := accumulate bit s) ha, accumulate_pos bit h1']
    · exact .inr (.inl ⟨h1', h2, writeBit_inside bit h2⟩)

/-! ## Sequences of bits -/

/-- One WriteBit for each bit of a list, in order. -/
def writeAll : List Bool → State → Micro Unit
  | [], s => .done () s
  | b :: bs, s => (writeBit b s).andThen fun _ t => writeAll bs t

theorem writeAll_append (as bs : List Bool) (s : State) :
    writeAll (as ++ bs) s = (writeAll as s).andThen fun _ t => writeAll bs t := by
  induction as generalizing s with
  | nil => rfl
  | cons a as ih => simp only [List.cons_append, writeAll, ih, Micro.andThen_assoc]

/-- The n bits of a byte from bit k on. -/
def byteBits (n k : Nat) (byte : Byte) : List Bool := (List.range' k n).map byte.getLsbD

/-- WriteBits is "`len` consecutive calls to `write_bit`, least-significant bit first"
(41_bit_writer.md R132). -/
theorem writeBitsFrom_eq_writeAll (n : Nat) : ∀ (k : Nat) (byte : Byte) (s : State),
    writeBitsFrom n k byte s = writeAll (byteBits n k byte) s := by
  induction n with
  | zero => exact fun k byte s => rfl
  | succ n ih =>
    intro k byte s
    simp only [writeBitsFrom, byteBits, List.range'_succ, List.map_cons, writeAll, ih]

theorem byteBits_length (n k : Nat) (byte : Byte) : (byteBits n k byte).length = n := by
  simp [byteBits]

theorem byteBits_getD (n k : Nat) (byte : Byte) (j : Nat) :
    (byteBits n k byte).getD j false = (decide (j < n) && byte.getLsbD (k + j)) := by
  by_cases h : j < n
  · simp [byteBits, h]
  · simp [byteBits, h]

/-- WR_ACC after a WriteBit, bit by bit. -/
theorem accumulate_bit (bit : Bool) (s : State) (j : Nat) :
    (accumulate bit s).wrAcc.getLsbD j =
      (s.wrAcc.getLsbD j || (decide (j = s.wrPos.toNat % 8) && bit)) := by
  rw [accumulate_wrAcc, BitVec.getLsbD_or, bitAt_getLsbD _ _ _ (by omega)]

theorem dstBit_single (acc : Byte) (p : Nat) : dstBit [acc] p = acc.getLsbD p := by
  unfold dstBit
  by_cases h0 : p / 8 = 0
  · have h1 : p % 8 = p := by omega
    simp [h0, h1]
  · obtain ⟨q, hq⟩ : ∃ q, p / 8 = q + 1 := ⟨p / 8 - 1, by omega⟩
    rw [hq]
    simp [BitVec.getLsbD_of_ge acc p (by omega)]

theorem dstBit_cons (b : Byte) (bs : List Byte) (p : Nat) :
    dstBit (b :: bs) p = if p < 8 then b.getLsbD p else dstBit bs (p - 8) := by
  unfold dstBit
  split
  · have h0 : p / 8 = 0 := by omega
    have h1 : p % 8 = p := by omega
    simp [h0, h1]
  · have h0 : p / 8 = (p - 8) / 8 + 1 := by omega
    have h1 : p % 8 = (p - 8) % 8 := by omega
    rw [h0, h1]
    simp

/-- The bits of a sequence of writes: DST grows by the completed bytes, and the bits that WR_ACC held,
followed by the bits written, are the appended bytes followed by the new WR_ACC (41_bit_writer.md R131,
20_memory.md R55). -/
theorem writeAll_ok (bits : List Bool) : ∀ s : State,
    s.wrAcc.toNat < 2 ^ (s.wrPos.toNat % 8) → s.wrPos.toNat + bits.length < 2 ^ 67 →
    s.portsAnswer ((s.wrPos.toNat % 8 + bits.length) / 8) →
    ∃ new acc, writeAll bits s = .done ()
        { s.afterDraws ((s.wrPos.toNat % 8 + bits.length) / 8) with
          dst := s.dst ++ new
          wrAcc := acc
          wrPos := BitVec.ofNat 67 (s.wrPos.toNat + bits.length) } ∧
      new.length = (s.wrPos.toNat % 8 + bits.length) / 8 ∧
      acc.toNat < 2 ^ ((s.wrPos.toNat + bits.length) % 8) ∧
      ∀ p, dstBit (new ++ [acc]) p =
        if p < s.wrPos.toNat % 8 then s.wrAcc.getLsbD p else bits.getD (p - s.wrPos.toNat % 8) false := by
  induction bits with
  | nil =>
    intro s hacc hlen hp
    have hz : (s.wrPos.toNat % 8 + ([] : List Bool).length) / 8 = 0 := by
      simp only [List.length_nil]; omega
    refine ⟨[], s.wrAcc, ?_, ?_, ?_, fun p => ?_⟩
    · rw [hz]; simp [writeAll]
    · rw [hz]; rfl
    · simpa using hacc
    · rw [List.nil_append, dstBit_single]
      split
      · rfl
      · rw [getLsbD_of_lt hacc (by omega)]; simp
  | cons b bs ih =>
    intro s hacc hlen hp
    simp only [List.length_cons] at hlen hp ⊢
    have hpos := accumulate_pos (s := s) b (by omega)
    by_cases h7 : s.wrPos.toNat % 8 = 7
    · have ha : s.ioAnswer 0 = true := hp 0 (by omega)
      have hd : (s.wrPos.toNat % 8 + (bs.length + 1)) / 8 = 1 + (0 + bs.length) / 8 := by omega
      have h0 : (s.wrPos.toNat + 1) % 8 = 0 := by omega
      obtain ⟨new, acc, hw, hn, hacc', hb⟩ := ih
        { (accumulate b s).afterDraws 1 with dst := s.dst ++ [(accumulate b s).wrAcc], wrAcc := 0 }
        (by simp) (by simp only [afterDraws_wrPos, hpos]; omega)
        (by
          simp only [afterDraws_wrPos, hpos, h0]
          rw [hd] at hp
          exact portsAnswer_afterDraws (s := accumulate b s) hp)
      simp only [afterDraws_wrPos, hpos, h0] at hw hn hacc' hb
      refine ⟨(accumulate b s).wrAcc :: new, acc, ?_, ?_, ?_, fun p => ?_⟩
      · rw [writeAll, writeBit_full b h7 (by omega), flush_ok (s := accumulate b s) ha,
          Micro.andThen_done]
        refine hw.trans ?_
        rw [hd]
        simp [State.afterDraws, Nat.add_assoc, Nat.add_comm 1]
      · simp only [List.length_cons, hn]; omega
      · rw [show s.wrPos.toNat + (bs.length + 1) = s.wrPos.toNat + 1 + bs.length by omega]
        exact hacc'
      · rw [List.cons_append, dstBit_cons, hb]
        by_cases h8 : p < 8
        · rw [if_pos h8, accumulate_bit, h7]
          by_cases hp7 : p = 7
          · subst hp7
            rw [getLsbD_of_lt hacc (by omega)]
            simp
          · have : p < 7 := by omega
            simp [hp7, this]
        · obtain ⟨q, rfl⟩ : ∃ q, p = q + 8 := ⟨p - 8, by omega⟩
          have : ¬ q + 8 < s.wrPos.toNat % 8 := by omega
          simp [h7]
    · have hd : (s.wrPos.toNat % 8 + (bs.length + 1)) / 8 = (s.wrPos.toNat % 8 + 1 + bs.length) / 8 := by
        omega
      have h0 : (s.wrPos.toNat + 1) % 8 = s.wrPos.toNat % 8 + 1 := by omega
      have hlow : (accumulate b s).wrAcc.toNat < 2 ^ (s.wrPos.toNat % 8 + 1) := by
        apply lt_of_getLsbD
        intro j hj
        rw [accumulate_bit, getLsbD_of_lt hacc (by omega)]
        have : j ≠ s.wrPos.toNat % 8 := by omega
        simp [this]
      obtain ⟨new, acc, hw, hn, hacc', hb⟩ := ih (accumulate b s)
        (by rw [hpos, h0]; exact hlow) (by rw [hpos]; omega)
        (by
          rw [hpos, h0, ← hd]
          exact hp)
      rw [hpos, h0] at hw hn hb
      rw [hpos] at hacc'
      refine ⟨new, acc, ?_, ?_, ?_, fun p => ?_⟩
      · rw [writeAll, writeBit_inside b h7, Micro.andThen_done, hw, hd]
        simp [State.afterDraws, Nat.add_assoc, Nat.add_comm 1, accumulate]
      · rw [hn, hd]
      · rw [show s.wrPos.toNat + (bs.length + 1) = s.wrPos.toNat + 1 + bs.length by omega]
        exact hacc'
      · rw [hb]
        by_cases hlt : p < s.wrPos.toNat % 8
        · have h1 : p < s.wrPos.toNat % 8 + 1 := by omega
          have h2 : p ≠ s.wrPos.toNat % 8 := by omega
          rw [if_pos h1, if_pos hlt, accumulate_bit]
          simp [h2]
        · by_cases heq : p = s.wrPos.toNat % 8
          · rw [if_pos (by omega), if_neg hlt, accumulate_bit, getLsbD_of_lt hacc (by omega), heq]
            simp
          · obtain ⟨q, hq⟩ : ∃ q, p - s.wrPos.toNat % 8 = q + 1 := ⟨p - s.wrPos.toNat % 8 - 1, by omega⟩
            rw [if_neg (by omega), if_neg hlt, hq, List.getD_cons_succ]
            congr 1
            omega

/-- Writing does not refuse while the position stays below 2^67 (93 U6). -/
theorem writeAll_answers : ∀ (bs : List Bool) (s : State), s.wrPos.toNat + bs.length < 2 ^ 67 →
    (writeAll bs s).Answers := by
  intro bs
  induction bs with
  | nil => exact fun s _ => trivial
  | cons b bs ih =>
    intro s h
    simp only [List.length_cons] at h
    have hpos := accumulate_pos (s := s) b (by omega)
    rcases writeBit_cases b s with ⟨h1, -⟩ | ⟨-, -, hw⟩ | ⟨-, -, -, hw⟩ | ⟨-, -, -, hw⟩
    · omega
    · rw [writeAll, hw]
      exact ih _ (by rw [hpos]; omega)
    · rw [writeAll, hw]
      exact ih _ (by simp only [afterDraws_wrPos, hpos]; omega)
    · rw [writeAll, hw]
      trivial

end Sys2Proof.Machine
end

