-- ==== Sys2Proof/Laws/Frames.lean ====
section
/-! SUPPORT. What the micro-operations keep: a pair of relations between the state before and the states
after, shown of the smallest micro-operations, holds of the groups, the words and the two stream bodies. -/

namespace Sys2Proof.Machine

/-- `D` relates the state before to the state after a completed micro-operation, `E` to the state in which
one that raised a fault ended; both are carried through a sequence. -/
structure Carries (D E : State → State → Prop) : Prop where
  refl : ∀ s, D s s
  trans : ∀ {s t u}, D s t → D t u → D s u
  into : ∀ {s t u}, D s t → E t u → E s u

variable {D E : State → State → Prop}

/-- The first part keeps the pair, and so does the rest from wherever it starts. -/
theorem Carries.andThen {α β : Type} (c : Carries D E) {m : Micro α} {f : α → State → Micro β} {s : State}
    (hm : m.Post (fun _ t => D s t) (E s)) (hf : ∀ a t, (f a t).Post (fun _ u => D t u) (E t)) :
    (m.andThen f).Post (fun _ u => D s u) (E s) :=
  Micro.Post.andThen hm fun a t h => (hf a t).mono (fun _ _ h' => c.trans h h') (fun _ h' => c.into h h')

/-- A micro-operation that starts after a change of state. -/
theorem Carries.after {α : Type} (c : Carries D E) {m : Micro α} {s t : State} (h : D s t)
    (hm : m.Post (fun _ u => D t u) (E t)) : m.Post (fun _ u => D s u) (E s) :=
  hm.mono (fun _ _ h' => c.trans h h') (fun _ h' => c.into h h')

/-! ## Groups of bits -/

theorem Carries.readBitsFrom (c : Carries D E) (hb : ∀ s, (readBit s).Post (fun _ t => D s t) (E s)) :
    ∀ (n k : Nat) (v : Byte) (s : State), (readBitsFrom n k v s).Post (fun _ t => D s t) (E s)
  | 0, _, _, s => c.refl s
  | n + 1, k, _, s => c.andThen (hb s) fun _ t => c.readBitsFrom hb n (k + 1) _ t

theorem Carries.writeBitsFrom (c : Carries D E) (hb : ∀ b s, (writeBit b s).Post (fun _ t => D s t) (E s)) :
    ∀ (n k : Nat) (byte : Byte) (s : State), (writeBitsFrom n k byte s).Post (fun _ t => D s t) (E s)
  | 0, _, _, s => c.refl s
  | n + 1, k, byte, s => c.andThen (hb _ s) fun _ t => c.writeBitsFrom hb n (k + 1) byte t

/-! ## Words -/

/-- A MapAddr that finds a pixel changes nothing and gives a column inside the grid; one that does not
faults (42_word_access.md R150). -/
theorem mapAddr_post (a : Nat) (s : State) : (mapAddr a s).Post
    (fun xy t => t = s ∧ xy.1 = a % s.imgW.toNat ∧ xy.2 = a / s.imgH.toNat ∧ xy.1 < 2 ^ 32)
    (fun t => ∃ sub, t = faultEntry .addrRange .ws sub a s) := by
  rcases mapAddr_cases a s with ⟨h, he⟩ | ⟨-, sub, he⟩ <;> rw [he]
  · exact ⟨rfl, rfl, rfl, Nat.lt_trans (Nat.mod_lt _ (Nat.pos_of_ne_zero h.1)) s.imgW.isLt⟩
  · exact ⟨sub, rfl⟩

theorem Carries.readWord (c : Carries D E)
    (hf : ∀ (a : Nat) sub s, E s (faultEntry .addrRange .ws sub a s)) (a : Nat) (s : State) :
    (readWord a s).Post (fun _ t => D s t) (E s) :=
  Micro.Post.andThen (d := fun _ t => t = s)
    ((mapAddr_post a s).mono (fun _ _ h => h.1) (by rintro t ⟨sub, rfl⟩; exact hf a sub s))
    (by rintro _ t rfl; exact c.refl t)

theorem writeWord_keeps (hm : ∀ x y f s, x < 2 ^ 32 → D s (modifyPixel x y f s))
    (hf : ∀ (a : Nat) sub s, E s (faultEntry .addrRange .ws sub a s)) (a : Nat) (w : PixWord) (s : State) :
    (writeWord a w s).Post (fun _ t => D s t) (E s) :=
  Micro.Post.andThen (d := fun xy t => t = s ∧ xy.1 < 2 ^ 32)
    ((mapAddr_post a s).mono (fun _ _ h => ⟨h.1, h.2.2.2⟩) (by rintro t ⟨sub, rfl⟩; exact hf a sub s))
    (by rintro xy t ⟨rfl, hx⟩; exact hm _ _ _ _ hx)

theorem finalWrite_keeps (hm : ∀ x y f s, x < 2 ^ 32 → D s (modifyPixel x y f s))
    (hf : ∀ (a : Nat) sub s, E s (faultEntry .addrRange .ws sub a s)) (a : Nat) (w : PixWord) (rem : Nat)
    (s : State) : (finalWrite a w rem s).Post (fun _ t => D s t) (E s) := by
  unfold finalWrite
  split
  · exact writeWord_keeps hm hf a w s
  · exact Micro.Post.andThen (d := fun xy t => t = s ∧ xy.1 < 2 ^ 32)
      ((mapAddr_post a s).mono (fun _ _ h => ⟨h.1, h.2.2.2⟩) (by rintro t ⟨sub, rfl⟩; exact hf a sub s))
      (by rintro xy t ⟨rfl, hx⟩; exact hm _ _ _ _ hx)

/-! ## The streams -/

theorem Carries.writeHeaderFrom (c : Carries D E)
    (hw : ∀ a w s, (writeWord a w s).Post (fun _ t => D s t) (E s)) :
    ∀ (n i : Nat) (h : BitVec 63) (s : State), (writeHeaderFrom n i h s).Post (fun _ t => D s t) (E s)
  | 0, _, _, s => c.refl s
  | n + 1, i, h, s => c.andThen (hw _ _ s) fun _ t => c.writeHeaderFrom hw n (i + 1) h t

theorem Carries.embedBodyFrom (c : Carries D E) (hb : ∀ s, (readBit s).Post (fun _ t => D s t) (E s))
    (hw : ∀ a w s, (writeWord a w s).Post (fun _ t => D s t) (E s))
    (hi : ∀ idx s, D s { s with xferIdx := idx }) :
    ∀ (n idx : Nat) (s : State), (embedBodyFrom n idx s).Post (fun _ t => D s t) (E s)
  | 0, _, s => c.refl s
  | n + 1, idx, s =>
    c.andThen
      (c.after (hi (BitVec.ofNat 65 idx) s)
        (c.andThen (c.readBitsFrom hb 7 0 0 _) fun v t => hw (Config.bodyBase + idx) (v.setWidth 7) t))
      fun _ t => c.embedBodyFrom hb hw hi n (idx + 1) t

/-- What an embed keeps: what its reads, its word writes and its register updates keep
(43_stream.md R173). -/
theorem Carries.embed (c : Carries D E) (hb : ∀ s, (readBit s).Post (fun _ t => D s t) (E s))
    (hm : ∀ x y f s, x < 2 ^ 32 → D s (modifyPixel x y f s))
    (hf : ∀ (a : Nat) sub s, E s (faultEntry .addrRange .ws sub a s))
    (hi : ∀ idx s, D s { s with xferIdx := idx })
    (he : ∀ h n s, D s (enterBody .hdrWritten h n s))
    (hs : ∀ s, D s { s with wsState := .bodyWritten }) (h : BitVec 63) (n : Nat) (s : State) :
    (embed h n s).Post (fun _ t => D s t) (E s) := by
  have hw := fun a w s => writeWord_keeps (D := D) (E := E) hm hf a w s
  refine c.andThen (c.writeHeaderFrom hw _ 0 h s) fun _ t => ?_
  refine c.andThen (c.after (he h n t) (c.embedBodyFrom hb hw hi _ 0 _)) fun _ u => ?_
  refine c.andThen ?_ fun _ v => hs v
  unfold embedTail
  split
  · exact c.refl u
  · exact c.after (hi _ u) (c.andThen (c.readBitsFrom hb _ 0 0 _) fun v t => finalWrite_keeps hm hf _ _ _ t)

theorem Carries.readHeaderFrom (c : Carries D E)
    (hf : ∀ (a : Nat) sub s, E s (faultEntry .addrRange .ws sub a s)) :
    ∀ (n i : Nat) (h : BitVec 63) (s : State), (readHeaderFrom n i h s).Post (fun _ t => D s t) (E s)
  | 0, _, _, s => c.refl s
  | n + 1, i, _, s => c.andThen (c.readWord hf i s) fun _ t => c.readHeaderFrom hf n (i + 1) _ t

theorem Carries.extractStep (c : Carries D E) (hb : ∀ b s, (writeBit b s).Post (fun _ t => D s t) (E s))
    (hf : ∀ (a : Nat) sub s, E s (faultEntry .addrRange .ws sub a s))
    (hi : ∀ idx s, D s { s with xferIdx := idx }) (idx len : Nat) (s : State) :
    (extractStep idx len s).Post (fun _ t => D s t) (E s) :=
  c.after (hi (BitVec.ofNat 65 idx) s)
    (c.andThen (c.readWord hf _ _) fun w t => c.writeBitsFrom hb len 0 (w.setWidth 8) t)

theorem Carries.extractBodyFrom (c : Carries D E) (hb : ∀ b s, (writeBit b s).Post (fun _ t => D s t) (E s))
    (hf : ∀ (a : Nat) sub s, E s (faultEntry .addrRange .ws sub a s))
    (hi : ∀ idx s, D s { s with xferIdx := idx }) :
    ∀ (n idx : Nat) (s : State), (extractBodyFrom n idx s).Post (fun _ t => D s t) (E s)
  | 0, _, s => c.refl s
  | n + 1, idx, s =>
    c.andThen (c.extractStep hb hf hi idx 7 s) fun _ t => c.extractBodyFrom hb hf hi n (idx + 1) t

/-- What an extraction keeps: what its writes and its register updates keep (43_stream.md R176). -/
theorem Carries.extract (c : Carries D E) (hb : ∀ b s, (writeBit b s).Post (fun _ t => D s t) (E s))
    (hf : ∀ (a : Nat) sub s, E s (faultEntry .addrRange .ws sub a s))
    (hi : ∀ idx s, D s { s with xferIdx := idx })
    (he : ∀ h n s, D s (enterBody .hdrRead h n s))
    (hs : ∀ s, D s { s with wsState := .bodyStreamed }) (s : State) :
    (extract s).Post (fun _ t => D s t) (E s) := by
  refine c.andThen (c.readHeaderFrom hf _ 0 0 s) fun h t => ?_
  refine c.andThen (c.after (he h h.toNat t) (c.andThen (c.extractBodyFrom hb hf hi _ 0 _) fun _ u => ?_))
    fun _ v => hs v
  unfold extractTail
  split
  · exact c.refl u
  · exact c.extractStep hb hf hi _ _ u

end Sys2Proof.Machine
end

