-- ==== Sys2Proof/Laws/Streams.lean ====
section
/-! SUPPORT. The stream commands: the split of a payload, the words an embed writes, and the header and
bits an extraction reads. -/

namespace Sys2Proof.Machine

/-! ## The split (43_stream.md R171) -/

theorem split_total (n : Nat) : 7 * splitCount n + splitRem n = 8 * n := by
  unfold splitCount splitRem Config.bitsPerWord
  omega

theorem splitRem_le (n : Nat) : splitRem n ≤ 6 := by
  unfold splitRem Config.bitsPerWord
  omega

theorem wordsUsed_eq (n : Nat) : wordsUsed n = 9 + splitCount n + (if splitRem n = 0 then 0 else 1) := by
  unfold wordsUsed splitCount splitRem Config.headerWords Config.bitsPerWord
  split <;> omega

/-! ## Words written -/

/-- From s to t the n words from address lo on were replaced by `word 0`, `word 1`, …, and no other byte
of PIX was changed. -/
structure Wrote (s t : State) (lo n : Nat) (word : Nat → PixWord) : Prop where
  width : t.imgW = s.imgW
  height : t.imgH = s.imgH
  words : ∀ j < n, pixelAt t (lo + j) = unpack (pixelAt s (lo + j)) (word j)
  others : ∀ b, (∀ j < n, b < cellOf s (lo + j) ∨ cellOf s (lo + j) + 3 ≤ b) →
    Memory.read t.pix b = Memory.read s.pix b

theorem cellOf_congr {s t : State} (hw : t.imgW = s.imgW) (hh : t.imgH = s.imgH) (a : Nat) :
    cellOf t a = cellOf s a := by
  unfold cellOf
  rw [hw, hh]

theorem Wrote.cell {s t : State} {lo n : Nat} {word : Nat → PixWord} (h : Wrote s t lo n word) (a : Nat) :
    cellOf t a = cellOf s a := cellOf_congr h.width h.height a

/-- A pixel whose cells are apart from all the words written is unchanged. -/
theorem Wrote.pixel_apart {s t : State} {lo n : Nat} {word : Nat → PixWord} (h : Wrote s t lo n word)
    {a : Nat} (ha : ∀ j < n, cellOf s a ≠ cellOf s (lo + j)) : pixelAt t a = pixelAt s a := by
  rw [pixelAt_eq, pixelAt_eq, h.cell]
  unfold Memory.pixel
  have hc := fun j hj => cellOf_apart (ha j hj)
  rw [h.others _ fun j hj => by rcases hc j hj with h | h <;> omega,
    h.others _ fun j hj => by rcases hc j hj with h | h <;> omega,
    h.others _ fun j hj => by rcases hc j hj with h | h <;> omega]

theorem Wrote.none (s : State) (lo : Nat) (word : Nat → PixWord) : Wrote s s lo 0 word :=
  ⟨rfl, rfl, fun j hj => absurd hj (by omega), fun _ _ => rfl⟩

/-- Changes of other fields between the writes do not matter. -/
theorem Wrote.congr {s s' t t' : State} {lo n : Nat} {word : Nat → PixWord} (h : Wrote s t lo n word)
    (hsw : s'.imgW = s.imgW) (hsh : s'.imgH = s.imgH) (hsp : s'.pix = s.pix)
    (htw : t'.imgW = t.imgW) (hth : t'.imgH = t.imgH) (htp : t'.pix = t.pix) : Wrote s' t' lo n word := by
  have hc := cellOf_congr hsw hsh
  have hc' := cellOf_congr htw hth
  refine ⟨by rw [htw, hsw, h.width], by rw [hth, hsh, h.height], fun j hj => ?_, fun b hb => ?_⟩
  · have := h.words j hj
    rw [pixelAt_eq, pixelAt_eq] at this ⊢
    rwa [hc', hc, htp, hsp]
  · rw [htp, hsp]
    exact h.others b fun j hj => by have := hb j hj; rwa [hc] at this

/-- One WriteWord. -/
theorem Wrote.one (s : State) (a : Nat) (w : PixWord) :
    Wrote s { s with pix := Memory.setPixel s.pix (cellOf s a) (unpack (pixelAt s a) w) } a 1
      (fun _ => w) := by
  refine ⟨rfl, rfl, fun j hj => ?_, fun b hb => ?_⟩
  · obtain rfl : j = 0 := by omega
    exact Memory.pixel_setPixel_same _ _ _
  · exact Memory.read_setPixel_outside _ _ _ _ (hb 0 (by omega))

/-- Writes to distinct words compose. -/
theorem Wrote.append {s t u : State} {lo m n : Nat} {word word' : Nat → PixWord}
    (h : Wrote s t lo m word) (h' : Wrote t u (lo + m) n word')
    (hcap : lo + (m + n) ≤ capacity s.imgW.toNat s.imgH.toNat) :
    Wrote s u lo (m + n) (fun j => if j < m then word j else word' (j - m)) := by
  have hne : ∀ i < m, ∀ j < n, cellOf s (lo + i) ≠ cellOf s (lo + m + j) := fun i hi j hj =>
    cellOf_ne_below_capacity (by omega) (by omega) (by omega)
  refine ⟨h'.width.trans h.width, h'.height.trans h.height, fun j hj => ?_, fun b hb => ?_⟩
  · by_cases hjm : j < m
    · rw [if_pos hjm, ← h.words j hjm]
      exact h'.pixel_apart fun i hi => by rw [h.cell, h.cell]; exact hne j hjm i hi
    · obtain ⟨i, rfl⟩ : ∃ i, j = m + i := ⟨j - m, by omega⟩
      rw [if_neg hjm, Nat.add_sub_cancel_left, ← Nat.add_assoc, h'.words i (by omega)]
      rw [h.pixel_apart fun k hk => (hne k hk i (by omega)).symm]
  · rw [h'.others b fun j hj => ?_, h.others b fun j hj => hb j (by omega)]
    have := hb (m + j) (by omega)
    rw [h.cell]
    rwa [← Nat.add_assoc] at this

/-- The words written depend only on their values below n. -/
theorem Wrote.ext {s t : State} {lo n : Nat} {word word' : Nat → PixWord} (h : Wrote s t lo n word)
    (he : ∀ j < n, word j = word' j) : Wrote s t lo n word' :=
  ⟨h.width, h.height, fun j hj => he j hj ▸ h.words j hj, h.others⟩

/-! ## The header -/

/-- The header phase of an embed whose words are distinct and exist (43_stream.md R173). -/
theorem writeHeaderFrom_ok (h : BitVec 63) : ∀ (n i : Nat) (s : State),
    i + n ≤ capacity s.imgW.toNat s.imgH.toNat →
    ∃ t, writeHeaderFrom n i h s = .done () t ∧ t = { s with pix := t.pix } ∧
      Wrote s t i n (fun j => hdrWord h (i + j)) := by
  intro n
  induction n with
  | zero => exact fun i s _ => ⟨s, rfl, rfl, Wrote.none s i _⟩
  | succ n ih =>
    intro i s hcap
    have hw := writeWord_ok (hdrWord h i) (reaches_below_capacity (s := s) (a := i) (by omega))
    have h1 := Wrote.one s i (hdrWord h i)
    obtain ⟨t, ht, hf, hwr⟩ := ih (i + 1)
      { s with pix := Memory.setPixel s.pix (cellOf s i) (unpack (pixelAt s i) (hdrWord h i)) }
      (by show i + 1 + n ≤ capacity s.imgW.toNat s.imgH.toNat; omega)
    refine ⟨t, ?_, ?_, ?_⟩
    · rw [writeHeaderFrom, hw, Micro.andThen_done, ht]
    · rw [hf]
    · have := h1.append hwr (by omega)
      rw [Nat.add_comm 1 n] at this
      refine this.ext fun j hj => ?_
      split
      · next h0 =>
        have : j = 0 := by omega
        subst this; rfl
      · next h0 =>
        congr 1
        omega

/-- The header phase of an extraction whose words exist: nothing but the value (43_stream.md R176). -/
theorem readHeaderFrom_ok : ∀ (n i : Nat) (h : BitVec 63) (s : State), (∀ j < n, s.reaches (i + j)) →
    ∃ v, readHeaderFrom n i h s = .done v s ∧
      v = (List.range' i n).foldl (fun acc j => acc ||| hdrGroup (wordAt s j) j) h := by
  intro n
  induction n with
  | zero => exact fun i h s _ => ⟨h, rfl, rfl⟩
  | succ n ih =>
    intro i h s hr
    obtain ⟨v, hv, he⟩ := ih (i + 1) (h ||| hdrGroup (wordAt s i) i) s
      (fun j hj => by have := hr (j + 1) (by omega); rwa [show i + 1 + j = i + (j + 1) by omega])
    refine ⟨v, ?_, ?_⟩
    · rw [readHeaderFrom, readWord_ok (a := i) (hr 0 (by omega)), Micro.andThen_done, hv]
    · rw [he, List.range'_succ, List.foldl_cons]

theorem hdrGroup_getLsbD (w : PixWord) (i j : Nat) (hi : i < 9) : (hdrGroup w i).getLsbD j =
    (decide (j / 7 = i) && w.getLsbD (j % 7)) := by
  simp only [hdrGroup, Config.bitsPerWord, BitVec.getLsbD_shiftLeft, BitVec.getLsbD_setWidth]
  by_cases h : j / 7 = i
  · have h1 : j < 63 := by omega
    have h2 : ¬ j < 7 * i := by omega
    have h3 : j - 7 * i = j % 7 := by omega
    have h4 : j % 7 < 63 := by omega
    simp [h, h1, h2, h3, h4]
  · by_cases h2 : j < 7 * i
    · simp [h, h2]
    · have h5 : w.getLsbD (j - 7 * i) = false := BitVec.getLsbD_of_ge _ _ (by omega)
      simp [h, h5]

theorem foldl_hdrGroup_getLsbD (f : Nat → PixWord) : ∀ (l : List Nat) (h : BitVec 63) (j : Nat),
    (∀ i ∈ l, i < 9) →
    (l.foldl (fun acc i => acc ||| hdrGroup (f i) i) h).getLsbD j =
      (h.getLsbD j || (decide (j / 7 ∈ l) && (f (j / 7)).getLsbD (j % 7))) := by
  intro l
  induction l with
  | nil => simp
  | cons i l ih =>
    intro h j hl
    rw [List.foldl_cons, ih _ _ (fun k hk => hl k (by simp [hk])), BitVec.getLsbD_or,
      hdrGroup_getLsbD _ _ _ (hl i (by simp))]
    by_cases hj : j / 7 = i
    · subst hj
      cases (f (j / 7)).getLsbD (j % 7) <;> simp
    · simp [hj]

/-- The header value an extraction reads, bit by bit: bit j is bit (j mod 7) of word (j div 7). -/
theorem header_getLsbD (s : State) (j : Nat) (hj : j < 63) :
    ((List.range' 0 9).foldl (fun acc i => acc ||| hdrGroup (wordAt s i) i) (0 : BitVec 63)).getLsbD j =
      (wordAt s (j / 7)).getLsbD (j % 7) := by
  rw [foldl_hdrGroup_getLsbD _ _ _ _ (fun i hi => by simp at hi; omega)]
  have : j / 7 ∈ List.range' 0 9 := by simp; omega
  simp [this]

theorem foldl_add_words (f : Nat → PixWord) : ∀ n, n ≤ 9 →
    (List.range n).foldl (fun h i => h + (f i).toNat * 2 ^ (7 * i)) 0 < 2 ^ (7 * n) ∧
    (List.range n).foldl (fun h i => h + (f i).toNat * 2 ^ (7 * i)) 0 =
      ((List.range n).foldl (fun acc i => acc ||| hdrGroup (f i) i) (0 : BitVec 63)).toNat := by
  intro n
  induction n with
  | zero => simp
  | succ n ih =>
    intro hn
    obtain ⟨h1, h2⟩ := ih (by omega)
    rw [List.range_succ, List.foldl_append, List.foldl_append]
    simp only [List.foldl_cons, List.foldl_nil]
    have hw := (f n).isLt
    have hp : 2 ^ (7 * (n + 1)) = 2 ^ (7 * n) * 128 := by rw [Nat.mul_add, Nat.pow_add]
    have hg : (hdrGroup (f n) n).toNat = (f n).toNat * 2 ^ (7 * n) := by
      have h63 : 2 ^ (7 * (n + 1)) ≤ 2 ^ 63 := Nat.pow_le_pow_right (by omega) (by omega)
      have : (f n).toNat * 2 ^ (7 * n) < 2 ^ 63 := by
        have := Nat.mul_lt_mul_of_pos_right hw (Nat.two_pow_pos (7 * n))
        rw [hp] at h63
        omega
      simp only [hdrGroup, Config.bitsPerWord, BitVec.toNat_shiftLeft, BitVec.toNat_setWidth,
        Nat.shiftLeft_eq]
      rw [Nat.mod_eq_of_lt (a := (f n).toNat) (by omega), Nat.mod_eq_of_lt this]
    refine ⟨?_, ?_⟩
    · rw [hp]
      have := Nat.mul_le_mul_right (2 ^ (7 * n)) (Nat.le_of_lt_succ (show (f n).toNat < 127 + 1 from hw))
      omega
    · rw [BitVec.toNat_or, ← h2, hg, Nat.mul_comm (f n).toNat, Nat.or_comm,
        ← Nat.two_pow_add_eq_or_of_lt h1]
      omega

/-- The header as a sum is the header as the extraction collects it (43_stream.md R172). -/
theorem headerOf_eq (s : State) : headerOf s =
    ((List.range' 0 9).foldl (fun acc i => acc ||| hdrGroup (wordAt s i) i) (0 : BitVec 63)).toNat := by
  rw [← List.range_eq_range']
  exact (foldl_add_words (wordAt s) 9 (le_refl _)).2

theorem headerOf_lt (s : State) : headerOf s < 2 ^ 63 := (foldl_add_words (wordAt s) 9 (le_refl _)).1

/-- Header value from its words (43_stream.md R170, R172). -/
theorem hdrWord_getLsbD (h : BitVec 63) (i j : Nat) :
    (hdrWord h i).getLsbD j = (decide (j < 7) && h.getLsbD (7 * i + j)) := by
  simp only [hdrWord, Config.bitsPerWord, BitVec.getLsbD_extractLsb']

/-- If words 0..8 are the header words of h, then h is what an extraction reads (43_stream.md R179). -/
theorem header_of_words {s : State} {h : BitVec 63} (hw : ∀ i < 9, wordAt s i = hdrWord h i) :
    (List.range' 0 9).foldl (fun acc i => acc ||| hdrGroup (wordAt s i) i) (0 : BitVec 63) = h := by
  apply BitVec.eq_of_getLsbD_eq
  intro j hj
  rw [header_getLsbD s j hj, hw _ (by omega), hdrWord_getLsbD]
  have h1 : j % 7 < 7 := by omega
  have h2 : 7 * (j / 7) + j % 7 = j := by omega
  simp [h1, h2]

/-! ## The embed body -/

/-- The word that seven source bits from position p on make (20_memory.md R59). -/
def srcWord (s : State) (p len : Nat) : PixWord :=
  (List.range len).foldl (fun w j => w ||| (BitVec.ofBool (srcBit s (p + j))).setWidth 7 <<< j) 0

theorem srcWord_getLsbD (s : State) (p len j : Nat) (hl : len ≤ 7) :
    (srcWord s p len).getLsbD j = (decide (j < len) && srcBit s (p + j)) := by
  unfold srcWord
  induction len with
  | zero => simp
  | succ n ih =>
    rw [List.range_succ, List.foldl_append, List.foldl_cons, List.foldl_nil, BitVec.getLsbD_or,
      ih (by omega)]
    simp only [BitVec.getLsbD_shiftLeft, BitVec.getLsbD_setWidth, BitVec.getLsbD_ofBool]
    by_cases h : j = n
    · subst h
      have h7 : j < 7 := by omega
      simp [h7]
    · by_cases h2 : j < n
      · have h3 : j < n + 1 := by omega
        simp [h2, h3]
      · have h3 : ¬ j < n + 1 := by omega
        have h4 : j - n ≠ 0 := by omega
        simp [h2, h3, h4]

/-- A group of at most seven bits, as the word an embed writes. -/
theorem readBits_word {s : State} {len : Nat} (hl : len ≤ 7)
    (hs : s.rdPos.toNat + len ≤ 8 * s.srcSize.toNat) (hp : s.portsAnswer len) :
    ∃ v : Byte, readBits len s = .done v (s.consumed len) ∧
      v.setWidth 7 = srcWord s s.rdPos.toNat len := by
  obtain ⟨v, hv, hb⟩ := readBits_ok (by omega) hs hp
  refine ⟨v, hv, ?_⟩
  apply BitVec.eq_of_getLsbD_eq
  intro j hj
  rw [srcWord_getLsbD _ _ _ _ hl, BitVec.getLsbD_setWidth, hb j]
  simp [hj]

/-- The full words of an embed body (43_stream.md R173). -/
theorem embedBodyFrom_ok : ∀ (n idx : Nat) (s : State),
    9 + idx + n ≤ capacity s.imgW.toNat s.imgH.toNat →
    s.rdPos.toNat + 7 * n ≤ 8 * s.srcSize.toNat → s.portsAnswer (7 * n) →
    ∃ t, embedBodyFrom n idx s = .done () t ∧
      t = { s.consumed (7 * n) with pix := t.pix, xferIdx := t.xferIdx } ∧
      Wrote s t (9 + idx) n (fun j => srcWord s (s.rdPos.toNat + 7 * j) 7) := by
  intro n
  induction n with
  | zero => exact fun idx s _ _ _ => ⟨s, rfl, by simp, Wrote.none s _ _⟩
  | succ n ih =>
    intro idx s hcap hs hp
    have hp0 : ({ s with xferIdx := BitVec.ofNat 65 idx } : State).portsAnswer 7 :=
      portsAnswer_mono (s := s) hp (by omega)
    obtain ⟨v, hv, hw⟩ := readBits_word (s := { s with xferIdx := BitVec.ofNat 65 idx }) (len := 7)
      (by omega) (by show s.rdPos.toNat + 7 ≤ 8 * s.srcSize.toNat; omega) hp0
    have hr7 : (s.consumed 7).rdPos.toNat = s.rdPos.toNat + 7 := consumed_rdPos (by omega)
    have hreach := reaches_below_capacity (s := s) (a := 9 + idx) (by omega)
    obtain ⟨t, ht, hf, hwr⟩ := ih (idx + 1)
      { ({ s with xferIdx := BitVec.ofNat 65 idx } : State).consumed 7 with
        pix := Memory.setPixel s.pix (cellOf s (9 + idx))
          (unpack (pixelAt s (9 + idx)) (srcWord s s.rdPos.toNat 7)) }
      (by show 9 + (idx + 1) + n ≤ capacity s.imgW.toNat s.imgH.toNat; omega)
      (by
        show (s.consumed 7).rdPos.toNat + 7 * n ≤ 8 * s.srcSize.toNat
        rw [hr7]; omega)
      (portsAnswer_afterDraws (s := s) (m := 7) (n := 7 * n) (portsAnswer_mono hp (by omega)))
    refine ⟨t, ?_, ?_, ?_⟩
    · have hstep : embedStep idx s = .done ()
          { ({ s with xferIdx := BitVec.ofNat 65 idx } : State).consumed 7 with
            pix := Memory.setPixel s.pix (cellOf s (9 + idx))
              (unpack (pixelAt s (9 + idx)) (srcWord s s.rdPos.toNat 7)) } := by
        show (readBits 7 _).andThen _ = _
        rw [hv, Micro.andThen_done, hw]
        exact writeWord_ok (s := ({ s with xferIdx := BitVec.ofNat 65 idx } : State).consumed 7) _ hreach
      rw [embedBodyFrom, hstep, Micro.andThen_done, ht]
    · have e : (s.consumed 7).consumed (7 * n) = s.consumed (7 * (n + 1)) := by
        rw [consumed_consumed (by omega)]
        congr 1
        omega
      rw [hf, ← e]
      rfl
    · have h1 : Wrote s
          { ({ s with xferIdx := BitVec.ofNat 65 idx } : State).consumed 7 with
            pix := Memory.setPixel s.pix (cellOf s (9 + idx))
              (unpack (pixelAt s (9 + idx)) (srcWord s s.rdPos.toNat 7)) } (9 + idx) 1
          (fun _ => srcWord s s.rdPos.toNat 7) :=
        (Wrote.one s (9 + idx) (srcWord s s.rdPos.toNat 7)).congr rfl rfl rfl rfl rfl rfl
      have := h1.append hwr (by omega)
      rw [Nat.add_comm 1 n] at this
      refine this.ext fun j hj => ?_
      split
      · next h0 =>
        have : j = 0 := by omega
        subst this; rfl
      · next h0 =>
        show srcWord s ((s.consumed 7).rdPos.toNat + 7 * (j - 1)) 7 = _
        rw [hr7]
        congr 1
        omega

/-! ## The extraction body -/

theorem dstBit_append (xs ys : List Byte) (p : Nat) : dstBit (xs ++ ys) p =
    if p < 8 * xs.length then dstBit xs p else dstBit ys (p - 8 * xs.length) := by
  induction xs generalizing p with
  | nil => simp
  | cons x xs ih =>
    rw [List.cons_append, dstBit_cons, dstBit_cons, ih, List.length_cons]
    by_cases h8 : p < 8
    · rw [if_pos h8, if_pos (by omega), if_pos h8]
    · rw [if_neg h8, if_neg h8]
      by_cases h : p - 8 < 8 * xs.length
      · rw [if_pos h, if_pos (by omega)]
      · rw [if_neg h, if_neg (by omega)]
        congr 1
        omega

/-- From s to t the m bits `bit 0`, `bit 1`, … were written: DST grew by the completed bytes and WR_ACC
holds the rest (41_bit_writer.md R131). -/
structure Streamed (s t : State) (m : Nat) (bit : Nat → Bool) (new : List Byte) : Prop where
  appended : t.dst = s.dst ++ new
  count : new.length = (s.wrPos.toNat % 8 + m) / 8
  position : t.wrPos.toNat = s.wrPos.toNat + m
  low : t.wrAcc.toNat < 2 ^ ((s.wrPos.toNat + m) % 8)
  bits : ∀ p < s.wrPos.toNat % 8 + m, dstBit (new ++ [t.wrAcc]) p =
    if p < s.wrPos.toNat % 8 then s.wrAcc.getLsbD p else bit (p - s.wrPos.toNat % 8)

theorem Streamed.append {s t u : State} {m n : Nat} {f g : Nat → Bool} {new new' : List Byte}
    (h : Streamed s t m f new) (h' : Streamed t u n g new') :
    Streamed s u (m + n) (fun j => if j < m then f j else g (j - m)) (new ++ new') := by
  have hp := h.position
  have hc := h.count
  have hc' := h'.count
  rw [hp] at hc'
  refine ⟨?_, ?_, ?_, ?_, fun p hlt => ?_⟩
  · rw [h'.appended, h.appended, List.append_assoc]
  · rw [List.length_append]; omega
  · rw [h'.position, hp]; omega
  · have := h'.low
    rwa [hp, Nat.add_assoc] at this
  · rw [List.append_assoc, dstBit_append]
    by_cases hb : p < 8 * new.length
    · rw [if_pos hb]
      have := h.bits p (by omega)
      rw [dstBit_append, if_pos hb] at this
      rw [this]
      split
      · rfl
      · rw [if_pos (by omega)]
    · rw [if_neg hb, h'.bits _ (by rw [hp]; omega), hp]
      by_cases ho : p - 8 * new.length < (s.wrPos.toNat + m) % 8
      · rw [if_pos ho]
        have := h.bits p (by omega)
        rw [dstBit_append, if_neg hb, dstBit_single] at this
        rw [this]
        split
        · rfl
        · rw [if_pos (by omega)]
      · rw [if_neg ho, if_neg (by omega), if_neg (by omega)]
        congr 1
        omega

theorem Streamed.none {s : State} {bit : Nat → Bool} (hacc : s.wrAcc.toNat < 2 ^ (s.wrPos.toNat % 8)) :
    Streamed s s 0 bit [] := by
  refine ⟨by simp, by simp only [List.length_nil]; omega, by simp, by simpa using hacc, fun p hp => ?_⟩
  rw [List.nil_append, dstBit_single, if_pos (by omega)]

theorem Streamed.ext {s t : State} {m : Nat} {f g : Nat → Bool} {new : List Byte}
    (h : Streamed s t m f new) (he : ∀ j < m, f j = g j) : Streamed s t m g new := by
  refine ⟨h.appended, h.count, h.position, h.low, fun p hp => ?_⟩
  rw [h.bits p hp]
  split
  · rfl
  · exact he _ (by omega)

/-- A group written (41_bit_writer.md R132). -/
theorem writeBits_ok {s : State} (byte : Byte) {len : Nat}
    (hacc : s.wrAcc.toNat < 2 ^ (s.wrPos.toNat % 8)) (hl : s.wrPos.toNat + len < 2 ^ 67)
    (hp : s.portsAnswer ((s.wrPos.toNat % 8 + len) / 8)) :
    ∃ t new, writeBits byte len s = .done () t ∧ Streamed s t len byte.getLsbD new ∧
      t = { s.afterDraws ((s.wrPos.toNat % 8 + len) / 8) with
            dst := t.dst, wrAcc := t.wrAcc, wrPos := BitVec.ofNat 67 (s.wrPos.toNat + len) } := by
  have hb := byteBits_length len 0 byte
  obtain ⟨new, acc, hw, hn, ha, hbits⟩ := writeAll_ok (byteBits len 0 byte) s hacc (by rw [hb]; exact hl)
    (by rw [hb]; exact hp)
  rw [hb] at hw hn ha
  refine ⟨_, new, (writeBitsFrom_eq_writeAll len 0 byte s).trans hw, ⟨rfl, hn, ?_, ha, fun p hlt => ?_⟩, rfl⟩
  · simp only [BitVec.toNat_ofNat]
    omega
  · rw [hbits p]
    split
    · rfl
    · rw [byteBits_getD, Nat.zero_add]
      have : p - s.wrPos.toNat % 8 < len := by omega
      simp [this]

/-- One step of an extraction body (43_stream.md R176). -/
theorem extractStep_ok {s : State} {idx len : Nat} (hr : s.reaches (9 + idx)) (hlen : len ≤ 7)
    (hacc : s.wrAcc.toNat < 2 ^ (s.wrPos.toNat % 8)) (hl : s.wrPos.toNat + len < 2 ^ 67)
    (hp : s.portsAnswer ((s.wrPos.toNat % 8 + len) / 8)) :
    ∃ t new, extractStep idx len s = .done () t ∧
      Streamed s t len (fun j => (wordAt s (9 + idx)).getLsbD j) new ∧
      t = { s.afterDraws ((s.wrPos.toNat % 8 + len) / 8) with
            dst := t.dst, wrAcc := t.wrAcc, wrPos := BitVec.ofNat 67 (s.wrPos.toNat + len)
            xferIdx := t.xferIdx } := by
  obtain ⟨t, new, hw, hst, hf⟩ := writeBits_ok (s := { s with xferIdx := BitVec.ofNat 65 idx })
    ((wordAt s (9 + idx)).setWidth 8) (len := len) hacc hl hp
  refine ⟨t, new, ?_, ?_, ?_⟩
  · show (readWord (9 + idx) { s with xferIdx := BitVec.ofNat 65 idx }).andThen _ = _
    rw [readWord_ok (s := { s with xferIdx := BitVec.ofNat 65 idx }) hr, Micro.andThen_done]
    exact hw
  · have := hst.ext (g := fun j => (wordAt s (9 + idx)).getLsbD j) (fun j hj => by
      rw [BitVec.getLsbD_setWidth]
      have : j < 8 := by omega
      simp [this])
    exact ⟨this.appended, this.count, this.position, this.low, this.bits⟩
  · rw [hf]
    rfl

/-- The full words of an extraction body (43_stream.md R176, R177). -/
theorem extractBodyFrom_ok : ∀ (n idx : Nat) (s : State), (∀ j < n, s.reaches (9 + idx + j)) →
    s.wrAcc.toNat < 2 ^ (s.wrPos.toNat % 8) → s.wrPos.toNat + 7 * n < 2 ^ 67 →
    s.portsAnswer ((s.wrPos.toNat % 8 + 7 * n) / 8) →
    ∃ t new, extractBodyFrom n idx s = .done () t ∧
      Streamed s t (7 * n) (fun j => (wordAt s (9 + idx + j / 7)).getLsbD (j % 7)) new ∧
      t = { s.afterDraws ((s.wrPos.toNat % 8 + 7 * n) / 8) with
            dst := t.dst, wrAcc := t.wrAcc, wrPos := BitVec.ofNat 67 (s.wrPos.toNat + 7 * n)
            xferIdx := t.xferIdx } := by
  intro n
  induction n with
  | zero =>
    intro idx s _ hacc _ _
    refine ⟨s, [], rfl, Streamed.none hacc, ?_⟩
    have : (s.wrPos.toNat % 8 + 7 * 0) / 8 = 0 := by omega
    rw [this]
    simp
  | succ n ih =>
    intro idx s hr hacc hl hp
    obtain ⟨t, new, ht, hst, hf⟩ := extractStep_ok (s := s) (idx := idx) (len := 7) (hr 0 (by omega))
      (le_refl _) hacc (by omega) (portsAnswer_mono hp (by omega))
    have hpos := hst.position
    have hd : (s.wrPos.toNat % 8 + 7) / 8 + ((s.wrPos.toNat + 7) % 8 + 7 * n) / 8 =
        (s.wrPos.toNat % 8 + 7 * (n + 1)) / 8 := by omega
    have hw : t.imgW = s.imgW := by rw [hf]; rfl
    have hh : t.imgH = s.imgH := by rw [hf]; rfl
    have hpix : t.pix = s.pix := by rw [hf]; rfl
    have hans : t.portsAnswer ((t.wrPos.toNat % 8 + 7 * n) / 8) := by
      rw [hpos]
      rw [← hd] at hp
      intro k hk
      have := portsAnswer_afterDraws hp k hk
      rw [← this]
      exact ioAnswer_congr (by rw [hf]) (by rw [hf]) k
    obtain ⟨u, new', hu, hst', hf'⟩ := ih (idx + 1) t
      (fun j hj => (reaches_congr hw hh _).mpr (by
        have := hr (j + 1) (by omega)
        rwa [show 9 + (idx + 1) + j = 9 + idx + (j + 1) by omega]))
      (by rw [hpos]; exact hst.low) (by rw [hpos]; omega) hans
    refine ⟨u, new ++ new', ?_, ?_, ?_⟩
    · rw [extractBodyFrom, show Config.bitsPerWord = 7 from rfl, ht, Micro.andThen_done, hu]
    · have := hst.append hst'
      rw [show 7 + 7 * n = 7 * (n + 1) by omega] at this
      refine this.ext fun j hj => ?_
      split
      · next h7 =>
        have h1 : j / 7 = 0 := by omega
        have h2 : j % 7 = j := by omega
        rw [h1, h2, Nat.add_zero]
      · next h7 =>
        rw [wordAt_congr hw hh hpix]
        have h1 : 9 + (idx + 1) + (j - 7) / 7 = 9 + idx + j / 7 := by omega
        have h2 : (j - 7) % 7 = j % 7 := by omega
        rw [h1, h2]
    · rw [hpos] at hf'
      rw [hf', hf]
      simp only [State.afterDraws, List.drop_drop, ← hd]
      simp only [Nat.add_assoc, State.mk.injEq, true_and, and_true]
      congr 1
      omega

theorem pack_pixelAt (s : State) (a : Nat) : pack (pixelAt s a) = wordAt s a := rfl

/-! ## Cutting a stream where it faults -/

theorem writeHeaderFrom_add (h : BitVec 63) (k : Nat) : ∀ (m i : Nat) (s : State),
    writeHeaderFrom (m + k) i h s =
      (writeHeaderFrom m i h s).andThen fun _ t => writeHeaderFrom k (i + m) h t := by
  intro m
  induction m with
  | zero => intro i s; rw [Nat.zero_add]; rfl
  | succ m ih =>
    intro i s
    rw [Nat.succ_add, writeHeaderFrom, writeHeaderFrom, Micro.andThen_assoc]
    congr 1
    funext _ t
    rw [ih, Nat.add_assoc, Nat.add_comm 1 m]

theorem readHeaderFrom_add (k : Nat) : ∀ (m i : Nat) (h : BitVec 63) (s : State),
    readHeaderFrom (m + k) i h s =
      (readHeaderFrom m i h s).andThen fun v t => readHeaderFrom k (i + m) v t := by
  intro m
  induction m with
  | zero => intro i h s; rw [Nat.zero_add]; rfl
  | succ m ih =>
    intro i h s
    rw [Nat.succ_add, readHeaderFrom, readHeaderFrom, Micro.andThen_assoc]
    congr 1
    funext w t
    rw [ih, Nat.add_assoc, Nat.add_comm 1 m]

theorem embedBodyFrom_add (k : Nat) : ∀ (m idx : Nat) (s : State),
    embedBodyFrom (m + k) idx s =
      (embedBodyFrom m idx s).andThen fun _ t => embedBodyFrom k (idx + m) t := by
  intro m
  induction m with
  | zero => intro idx s; rw [Nat.zero_add]; rfl
  | succ m ih =>
    intro idx s
    rw [Nat.succ_add, embedBodyFrom, embedBodyFrom, Micro.andThen_assoc]
    congr 1
    funext _ t
    rw [ih, Nat.add_assoc, Nat.add_comm 1 m]

theorem extractBodyFrom_add (k : Nat) : ∀ (m idx : Nat) (s : State),
    extractBodyFrom (m + k) idx s =
      (extractBodyFrom m idx s).andThen fun _ t => extractBodyFrom k (idx + m) t := by
  intro m
  induction m with
  | zero => intro idx s; rw [Nat.zero_add]; rfl
  | succ m ih =>
    intro idx s
    rw [Nat.succ_add, extractBodyFrom, extractBodyFrom, Micro.andThen_assoc]
    congr 1
    funext _ t
    rw [ih, Nat.add_assoc, Nat.add_comm 1 m]

theorem writeBitsFrom_add (n : Nat) (byte : Byte) : ∀ (m k : Nat) (s : State),
    writeBitsFrom (m + n) k byte s =
      (writeBitsFrom m k byte s).andThen fun _ t => writeBitsFrom n (k + m) byte t := by
  intro m
  induction m with
  | zero => intro k s; rw [Nat.zero_add]; rfl
  | succ m ih =>
    intro k s
    rw [Nat.succ_add, writeBitsFrom, writeBitsFrom, Micro.andThen_assoc]
    congr 1
    funext _ t
    rw [ih, Nat.add_assoc, Nat.add_comm 1 m]

/-- Header words that exist, distinct or not, are written and change PIX only. -/
theorem writeHeaderFrom_reach (h : BitVec 63) : ∀ (n i : Nat) (s : State), (∀ j < n, s.reaches (i + j)) →
    ∃ p, writeHeaderFrom n i h s = .done () { s with pix := p } := by
  intro n
  induction n with
  | zero => exact fun i s _ => ⟨s.pix, rfl⟩
  | succ n ih =>
    intro i s hr
    obtain ⟨p, hp⟩ := ih (i + 1)
      { s with pix := Memory.setPixel s.pix (cellOf s i) (unpack (pixelAt s i) (hdrWord h i)) }
      (fun j hj => by
        have := hr (j + 1) (by omega)
        rwa [show i + 1 + j = i + (j + 1) by omega])
    have h0 : s.reaches i := hr 0 (by omega)
    exact ⟨p, by rw [writeHeaderFrom, writeWord_ok (s := s) _ h0, Micro.andThen_done, hp]⟩

/-- One body word that exists is embedded: its seven bits are consumed, and PIX and XFER_IDX change. -/
theorem embedStep_reach {s : State} {idx : Nat} (hr : s.reaches (9 + idx))
    (hs : s.rdPos.toNat + 7 ≤ 8 * s.srcSize.toNat) (hp : s.portsAnswer 7) :
    ∃ p x, embedStep idx s = .done () { s.consumed 7 with pix := p, xferIdx := x } := by
  obtain ⟨v, hv, -⟩ := readBits_ok (s := { s with xferIdx := BitVec.ofNat 65 idx }) (len := 7) (by omega) hs hp
  have hw := writeWord_ok (s := ({ s with xferIdx := BitVec.ofNat 65 idx } : State).consumed 7) (v.setWidth 7) hr
  exact ⟨_, _, by
    show (readBits 7 _).andThen _ = _
    rw [hv, Micro.andThen_done]
    exact hw⟩

/-- Body words that exist, distinct or not, are embedded (43_stream.md R173). -/
theorem embedBodyFrom_reach : ∀ (n idx : Nat) (s : State), (∀ j < n, s.reaches (9 + idx + j)) →
    s.rdPos.toNat + 7 * n ≤ 8 * s.srcSize.toNat → s.portsAnswer (7 * n) →
    ∃ p x, embedBodyFrom n idx s = .done () { s.consumed (7 * n) with pix := p, xferIdx := x } := by
  intro n
  induction n with
  | zero => exact fun idx s _ _ _ => ⟨s.pix, s.xferIdx, by simp [embedBodyFrom]⟩
  | succ n ih =>
    intro idx s hr hs hp
    have h0 : s.reaches (9 + idx) := hr 0 (by omega)
    obtain ⟨p, x, hst⟩ := embedStep_reach h0 (by omega) (portsAnswer_mono hp (by omega))
    have hr7 : (s.consumed 7).rdPos.toNat = s.rdPos.toNat + 7 := consumed_rdPos (by omega)
    obtain ⟨q, y, hb⟩ := ih (idx + 1) { s.consumed 7 with pix := p, xferIdx := x }
      (fun j hj => by
        have := hr (j + 1) (by omega)
        rwa [show 9 + idx + (j + 1) = 9 + (idx + 1) + j by omega] at this)
      (by
        show (s.consumed 7).rdPos.toNat + 7 * n ≤ 8 * s.srcSize.toNat
        rw [hr7]; omega)
      (portsAnswer_afterDraws (s := s) (m := 7) (n := 7 * n) (portsAnswer_mono hp (by omega)))
    refine ⟨q, y, ?_⟩
    have e : (s.consumed 7).consumed (7 * n) = s.consumed (7 * (n + 1)) := by
      rw [consumed_consumed (by omega)]
      congr 1
      omega
    rw [embedBodyFrom, hst, Micro.andThen_done, hb, ← e]
    rfl

/-- A group whose l-th bit (from 1) completes a byte that cannot be appended, after m appends that succeeded: WR_ACC
keeps the completed byte and WR_POS stands after the bit (41_bit_writer.md R131, R132). -/
theorem writeBits_fails {s : State} (byte : Byte) {len l m : Nat} (hl1 : 1 ≤ l) (hll : l ≤ len)
    (hacc : s.wrAcc.toNat < 2 ^ (s.wrPos.toNat % 8)) (hl : s.wrPos.toNat + l < 2 ^ 67)
    (hm : s.wrPos.toNat % 8 + l = 8 * (m + 1)) (hp : s.portsAnswer m) (hf : s.ioAnswer m = false) :
    ∃ t : State, writeBits byte len s = .ended (faultEntry .ioError .bw subDstWrite (s.wrPos.toNat + l)
        { s.afterDraws (m + 1) with
          dst := t.dst, wrAcc := t.wrAcc, wrPos := BitVec.ofNat 67 (s.wrPos.toNat + l) }) ∧
      ∀ j < 8, t.wrAcc.getLsbD j = if 8 * m + j < s.wrPos.toNat % 8 then s.wrAcc.getLsbD j
        else byte.getLsbD (8 * m + j - s.wrPos.toNat % 8) := by
  obtain ⟨n, rfl⟩ : ∃ n, l = n + 1 := ⟨l - 1, by omega⟩
  obtain ⟨r, rfl⟩ : ∃ r, len = n + (r + 1) := ⟨len - n - 1, by omega⟩
  have hd : (s.wrPos.toNat % 8 + n) / 8 = m := by omega
  obtain ⟨t, new, hw, hst, he⟩ := writeBits_ok (s := s) byte (len := n) hacc (by omega) (by rw [hd]; exact hp)
  rw [hd] at he
  have hpos := hst.position
  have h7 : t.wrPos.toNat % 8 = 7 := by omega
  have hans : (accumulate (byte.getLsbD n) t).ioAnswer 0 = false := by
    rw [← hf]
    rw [show (accumulate (byte.getLsbD n) t).ioAnswer 0 = t.ioAnswer 0 from rfl, he]
    exact afterDraws_ioAnswer s m 0
  refine ⟨{ s with dst := t.dst, wrAcc := (accumulate (byte.getLsbD n) t).wrAcc }, ?_, fun j hj => ?_⟩
  · have h0 : writeBitsFrom n 0 byte s = .done () t := hw
    rw [writeBits, writeBitsFrom_add, h0, Micro.andThen_done, writeBitsFrom, Nat.zero_add,
      writeBit_full _ h7 (by omega), flush_fail hans, Micro.andThen_ended]
    have hp1 : (accumulate (byte.getLsbD n) t).wrPos = BitVec.ofNat 67 (s.wrPos.toNat + (n + 1)) := by
      apply BitVec.eq_of_toNat_eq
      rw [accumulate_pos _ (by omega), BitVec.toNat_ofNat]
      omega
    have hp2 : (accumulate (byte.getLsbD n) t).wrPos.toNat = s.wrPos.toNat + (n + 1) := by
      rw [accumulate_pos _ (by omega)]
      omega
    rw [hp2]
    congr 2
    rw [show (accumulate (byte.getLsbD n) t).afterDraws 1 = { t.afterDraws 1 with
      wrAcc := (accumulate (byte.getLsbD n) t).wrAcc, wrPos := (accumulate (byte.getLsbD n) t).wrPos } from rfl,
      hp1, he]
    simp [State.afterDraws, Nat.add_assoc]
  · show (accumulate (byte.getLsbD n) t).wrAcc.getLsbD j = _
    rw [accumulate_bit, h7]
    have hb := hst.bits
    have hlow := hst.low
    by_cases hj7 : j = 7
    · have hz : t.wrAcc.getLsbD j = false := getLsbD_of_lt hlow (by omega)
      rw [hz, if_neg (by omega), show 8 * m + j - s.wrPos.toNat % 8 = n by omega]
      simp [hj7]
    · have := hb (8 * m + j) (by omega)
      rw [dstBit_append, if_neg (by rw [hst.count]; omega), dstBit_single, hst.count, hd,
        show 8 * m + j - 8 * m = j by omega] at this
      rw [this]
      simp only [hj7, decide_false, Bool.false_and, Bool.or_false]
      by_cases hlt : 8 * m + j < s.wrPos.toNat % 8
      · have : 8 * m + j = j := by omega
        rw [if_pos hlt, if_pos hlt, this]
      · rw [if_neg hlt, if_neg hlt]

/-- The address a MapAddr finds no pixel for, on a grid with pixels: ROW. -/
theorem mapAddr_missing {s : State} {a : Nat} (hw : s.imgW ≠ 0) (hh : s.imgH ≠ 0)
    (h : s.imgH.toNat * s.imgH.toNat ≤ a) (w : PixWord) (rem : Nat) :
    readWord a s = .ended (faultEntry .addrRange .ws subRow a s) ∧
    writeWord a w s = .ended (faultEntry .addrRange .ws subRow a s) ∧
    finalWrite a w rem s = .ended (faultEntry .addrRange .ws subRow a s) := by
  refine ⟨readWord_ended (mapAddr_row hw hh h), writeWord_ended _ (mapAddr_row hw hh h), ?_⟩
  unfold finalWrite
  split
  · exact writeWord_ended _ (mapAddr_row hw hh h)
  · rw [mapAddr_row hw hh h]; rfl

end Sys2Proof.Machine
end

