-- ==== Sys2Proof/Laws/Overwrites.lean ====
section
/-! SUPPORT. Words written in the order of their addresses when several of them may reach one pixel: the
later word wins (70_reset_and_hazards.md R237). -/

namespace Sys2Proof.Machine

/-- From s to t the words `word 0`, …, `word (n - 1)` were written at addresses 0, …, n - 1 in this order: a
pixel holds the word of the last address that selects it, and no other byte of PIX was changed. -/
structure Overwrote (s t : State) (n : Nat) (word : Nat → PixWord) : Prop where
  width : t.imgW = s.imgW
  height : t.imgH = s.imgH
  last : ∀ a < n, (∀ b, a < b → b < n → cellOf s b ≠ cellOf s a) →
    pixelAt t a = unpack (pixelAt s a) (word a)
  others : ∀ b, (∀ a < n, b < cellOf s a ∨ cellOf s a + 3 ≤ b) → Memory.read t.pix b = Memory.read s.pix b

/-- A second word replaces the first (42_word_access.md R160 c). -/
theorem unpack_unpack (p : Pixel) (w w' : PixWord) : unpack (unpack p w) w' = unpack p w' := by
  have hr : (unpack (unpack p w) w').r = (unpack p w').r := BitVec.eq_of_getLsbD_eq fun j _ => by
    simp only [unpack_r_getLsbD]; split <;> rfl
  have hg : (unpack (unpack p w) w').g = (unpack p w').g := BitVec.eq_of_getLsbD_eq fun j _ => by
    simp only [unpack_g_getLsbD]; split <;> rfl
  have hb : (unpack (unpack p w) w').b = (unpack p w').b := BitVec.eq_of_getLsbD_eq fun j _ => by
    simp only [unpack_b_getLsbD]; split <;> rfl
  cases h : unpack (unpack p w) w'
  cases h' : unpack p w'
  simp_all

/-- Reading back the word that was stored (42_word_access.md R160 b). -/
theorem pack_unpack (p : Pixel) (w : PixWord) : pack (unpack p w) = w := by
  apply BitVec.eq_of_getLsbD_eq
  intro j hj
  rw [pack_getLsbD, unpack_r_getLsbD, unpack_g_getLsbD, unpack_b_getLsbD]
  by_cases h2 : j < 2
  · simp [h2]
  · by_cases h4 : j < 4
    · simp [h2, h4, show j - 2 < 2 by omega, show j - 2 + 2 = j by omega]
    · simp [h2, h4, hj, show j - 4 < 3 by omega, show j - 4 + 4 = j by omega]

/-- An address below n has an alias below n that is the last of its pixel. -/
theorem exists_last (s : State) (n : Nat) {a : Nat} (ha : a < n) : ∃ b, a ≤ b ∧ b < n ∧
    cellOf s b = cellOf s a ∧ ∀ c, b < c → c < n → cellOf s c ≠ cellOf s b := by
  induction n with
  | zero => omega
  | succ n ih =>
    by_cases hn : cellOf s n = cellOf s a
    · exact ⟨n, by omega, by omega, hn, fun c h1 h2 => by omega⟩
    · obtain ⟨b, h1, h2, h3, h4⟩ := ih (by
        have : a ≠ n := fun h => hn (h ▸ rfl)
        omega)
      refine ⟨b, h1, by omega, h3, fun c hb hc => ?_⟩
      by_cases hcn : c = n
      · rw [hcn, h3]; exact hn
      · exact h4 c hb (by omega)

theorem pixelAt_of_cell {s t : State} (hw : t.imgW = s.imgW) (hh : t.imgH = s.imgH) {a b : Nat}
    (h : cellOf s a = cellOf s b) : pixelAt t a = pixelAt t b := by
  rw [pixelAt_eq, pixelAt_eq, cellOf_congr hw hh, cellOf_congr hw hh, h]

/-- The pixel of any address written: the carrier's with the word of its last alias. -/
theorem Overwrote.at {s t : State} {n : Nat} {word : Nat → PixWord} (h : Overwrote s t n word) {a b : Nat}
    (hb : b < n) (hc : cellOf s b = cellOf s a) (hl : ∀ c, b < c → c < n → cellOf s c ≠ cellOf s b) :
    pixelAt t a = unpack (pixelAt s a) (word b) := by
  rw [← pixelAt_of_cell h.width h.height hc, h.last b hb hl, pixelAt_of_cell rfl rfl hc]

/-- The pixel of an address none of whose aliases was written. -/
theorem Overwrote.untouched {s t : State} {n : Nat} {word : Nat → PixWord} (h : Overwrote s t n word)
    {a : Nat} (ha : ∀ b < n, cellOf s b ≠ cellOf s a) : pixelAt t a = pixelAt s a := by
  rw [pixelAt_eq, pixelAt_eq, cellOf_congr h.width h.height]
  unfold Memory.pixel
  have hc := fun b hb => cellOf_apart (ha b hb)
  rw [h.others _ fun b hb => by rcases hc b hb with h | h <;> omega,
    h.others _ fun b hb => by rcases hc b hb with h | h <;> omega,
    h.others _ fun b hb => by rcases hc b hb with h | h <;> omega]

/-- A further word over whatever the pixel holds is that word over the carrier. -/
theorem Overwrote.over {s t : State} {n : Nat} {word : Nat → PixWord} (h : Overwrote s t n word)
    (a : Nat) (w : PixWord) : unpack (pixelAt t a) w = unpack (pixelAt s a) w := by
  by_cases hex : ∃ b < n, cellOf s b = cellOf s a
  · obtain ⟨b, hb, hc⟩ := hex
    obtain ⟨d, -, hd, hdc, hl⟩ := exists_last s n hb
    rw [h.at hd (hdc.trans hc) hl, unpack_unpack]
  · rw [h.untouched fun b hb hc => hex ⟨b, hb, hc⟩]

theorem Overwrote.none (s : State) (word : Nat → PixWord) : Overwrote s s 0 word :=
  ⟨rfl, rfl, fun a ha => absurd ha (by omega), fun _ _ => rfl⟩

/-- The words written depend only on their values below n, and changes of other fields do not matter. -/
theorem Overwrote.ext {s t t' : State} {n : Nat} {word word' : Nat → PixWord} (h : Overwrote s t n word)
    (hw : t'.imgW = t.imgW) (hh : t'.imgH = t.imgH) (hp : t'.pix = t.pix) (he : ∀ a < n, word a = word' a) :
    Overwrote s t' n word' := by
  refine ⟨hw.trans h.width, hh.trans h.height, fun a ha hl => ?_, fun b hb => ?_⟩
  · rw [← he a ha, ← h.last a ha hl, pixelAt_eq, pixelAt_eq, cellOf_congr hw hh, hp]
  · rw [hp]; exact h.others b hb

/-- One more WriteWord, at the next address. -/
theorem Overwrote.next {s t : State} {n : Nat} {word : Nat → PixWord} (h : Overwrote s t n word) :
    Overwrote s { t with pix := Memory.setPixel t.pix (cellOf t n) (unpack (pixelAt t n) (word n)) }
      (n + 1) word := by
  have hc := cellOf_congr h.width h.height
  refine ⟨h.width, h.height, fun a ha hl => ?_, fun b hb => ?_⟩
  · show Memory.pixel (Memory.setPixel t.pix (cellOf t n) _) (cellOf t a) = _
    by_cases han : a = n
    · subst han
      rw [Memory.pixel_setPixel_same, h.over]
    · have hne : cellOf t n ≠ cellOf t a := by rw [hc, hc]; exact hl n (by omega) (by omega)
      rw [Memory.pixel_setPixel_apart _ _ _ _ (cellOf_apart hne.symm), ← pixelAt_eq]
      exact h.last a (by omega) fun b h1 h2 => hl b h1 (by omega)
  · show Memory.read (Memory.setPixel t.pix (cellOf t n) _) b = _
    rw [Memory.read_setPixel_outside _ _ _ _ (by rw [hc]; exact hb n (by omega))]
    exact h.others b fun a ha => hb a (by omega)

/-- The header phase of an embed whose words exist (43_stream.md R173). -/
theorem writeHeaderFrom_overwrites {s : State} (h : BitVec 63) {word : Nat → PixWord} :
    ∀ (n i : Nat) (t : State), Overwrote s t i word → (∀ a < i + n, s.reaches a) →
    (∀ a, i ≤ a → a < i + n → word a = hdrWord h a) →
    ∃ u, writeHeaderFrom n i h t = .done () u ∧ u = { t with pix := u.pix } ∧ Overwrote s u (i + n) word := by
  intro n
  induction n with
  | zero => exact fun i t hw _ _ => ⟨t, rfl, rfl, hw⟩
  | succ n ih =>
    intro i t hw hr hword
    have h0 : t.reaches i := (reaches_congr hw.width hw.height i).mpr (hr i (by omega))
    have hn := hw.next
    rw [hword i (by omega) (by omega)] at hn
    obtain ⟨u, hu, hf, ho⟩ := ih (i + 1) _ hn (fun a ha => hr a (by omega))
      (fun a h1 h2 => hword a (by omega) (by omega))
    refine ⟨u, ?_, ?_, ?_⟩
    · rw [writeHeaderFrom, writeWord_ok (s := t) _ h0, Micro.andThen_done, hu]
    · rw [hf]
    · rwa [show i + (n + 1) = i + 1 + n by omega]

/-- The full words of an embed body whose words exist (43_stream.md R173). -/
theorem embedBodyFrom_overwrites {s : State} {word : Nat → PixWord} : ∀ (n idx : Nat) (t : State),
    Overwrote s t (9 + idx) word → (∀ a < 9 + idx + n, s.reaches a) →
    t.rdPos.toNat + 7 * n ≤ 8 * t.srcSize.toNat → t.portsAnswer (7 * n) →
    (∀ j < n, word (9 + idx + j) = srcWord t (t.rdPos.toNat + 7 * j) 7) →
    ∃ u, embedBodyFrom n idx t = .done () u ∧
      u = { t.consumed (7 * n) with pix := u.pix, xferIdx := u.xferIdx } ∧ Overwrote s u (9 + idx + n) word := by
  intro n
  induction n with
  | zero => exact fun idx t hw _ _ _ _ => ⟨t, rfl, by simp, hw⟩
  | succ n ih =>
    intro idx t hw hr hs hp hword
    have h0 : t.reaches (9 + idx) := (reaches_congr hw.width hw.height _).mpr (hr _ (by omega))
    have hr7 : (t.consumed 7).rdPos.toNat = t.rdPos.toNat + 7 := consumed_rdPos (by omega)
    obtain ⟨v, hv, hvw⟩ := readBits_word (s := { t with xferIdx := BitVec.ofNat 65 idx }) (len := 7) (by omega)
      (by show t.rdPos.toNat + 7 ≤ 8 * t.srcSize.toNat; omega) (portsAnswer_mono (s := t) hp (by omega))
    have hw0 : v.setWidth 7 = word (9 + idx) := hvw.trans (hword 0 (by omega)).symm
    have hn : Overwrote s { ({ t with xferIdx := BitVec.ofNat 65 idx } : State).consumed 7 with
        pix := Memory.setPixel t.pix (cellOf t (9 + idx)) (unpack (pixelAt t (9 + idx)) (word (9 + idx))) }
        (9 + (idx + 1)) word := hw.next.ext rfl rfl rfl fun _ _ => rfl
    obtain ⟨u, hu, hf, ho⟩ := ih (idx + 1) _ hn (fun a ha => hr a (by omega))
      (by show (t.consumed 7).rdPos.toNat + 7 * n ≤ 8 * t.srcSize.toNat; rw [hr7]; omega)
      (portsAnswer_afterDraws (s := t) (m := 7) (n := 7 * n) (portsAnswer_mono hp (by omega)))
      (fun j hj => by
        rw [show 9 + (idx + 1) + j = 9 + idx + (j + 1) by omega, hword (j + 1) (by omega)]
        show _ = srcWord t ((t.consumed 7).rdPos.toNat + 7 * j) 7
        rw [hr7, show t.rdPos.toNat + 7 + 7 * j = t.rdPos.toNat + 7 * (j + 1) by omega])
    refine ⟨u, ?_, ?_, ?_⟩
    · have hstep := writeWord_ok (s := ({ t with xferIdx := BitVec.ofNat 65 idx } : State).consumed 7)
        (word (9 + idx)) h0
      show ((readBits 7 _).andThen _).andThen _ = _
      rw [hv, Micro.andThen_done, hw0]
      show (writeWord (9 + idx) _ _).andThen _ = _
      rw [hstep, Micro.andThen_done]
      exact hu
    · have e : (t.consumed 7).consumed (7 * n) = t.consumed (7 * (n + 1)) := by
        rw [consumed_consumed (by omega), show 7 + 7 * n = 7 * (n + 1) by omega]
      rw [hf, ← e]
      rfl
    · rwa [show 9 + idx + (n + 1) = 9 + (idx + 1) + n by omega]

/-- The word FinalWrite stores: the last word itself, or under KEEP filled with what the pixel holds
(43_stream.md R174). -/
def finalWord (s : State) (a : Nat) (w : PixWord) (rem : Nat) : PixWord :=
  match s.finalFill with
  | .zero => w
  | .keep => keepFill (wordAt s a) w rem

theorem finalWord_zero {s : State} {a : Nat} {w : PixWord} {rem : Nat} (h : s.finalFill = .zero) :
    finalWord s a w rem = w := by simp [finalWord, h]

theorem finalWord_keep {s : State} {a : Nat} {w : PixWord} {rem : Nat} (h : s.finalFill = .keep) :
    finalWord s a w rem = keepFill (wordAt s a) w rem := by simp [finalWord, h]

/-- FinalWrite at an address that reaches a pixel (43_stream.md R174). -/
theorem finalWrite_ok {s : State} {a : Nat} (w : PixWord) (rem : Nat) (h : s.reaches a) :
    finalWrite a w rem s = .done ()
      { s with pix := Memory.setPixel s.pix (cellOf s a) (unpack (pixelAt s a) (finalWord s a w rem)) } := by
  unfold finalWrite
  split
  · next hf => rw [writeWord_ok w h, finalWord_zero hf]
  · next hf =>
    rw [mapAddr_ok h, finalWord_keep hf]
    rfl

end Sys2Proof.Machine
end

