-- ==== Sys2Proof/Laws/PerInstr.lean ====
section
/-! SUPPORT. Per instruction: OPC of the encoding is the opcode of the mnemonic (30_encoding.md R91, R92). -/

namespace Sys2Proof.Laws.OpcodeByte

open Sys2Proof

/-- CMD[7:0] of the encoding is the opcode map's value for the mnemonic. -/
def Statement (i : Instr) : Prop := opcOf (encode i).1 = opcodeByte i.op

theorem brOpen : Statement .brOpen := opcOf_cmdWord _ _ _
theorem brSize : Statement .brSize := opcOf_cmdWord _ _ _
theorem brReadBit : Statement .brReadBit := opcOf_cmdWord _ _ _
theorem brReadBits (len : BitVec 4) : Statement (.brReadBits len) := opcOf_cmdWord _ _ _
theorem brClose : Statement .brClose := opcOf_cmdWord _ _ _
theorem bwOpen : Statement .bwOpen := opcOf_cmdWord _ _ _
theorem bwWriteBit (bit : Bool) : Statement (.bwWriteBit bit) := opcOf_cmdWord _ _ _
theorem bwWriteBits (byte : Byte) (len : BitVec 4) : Statement (.bwWriteBits byte len) := opcOf_cmdWord _ _ _
theorem bwFinish : Statement .bwFinish := opcOf_cmdWord _ _ _
theorem wsBind : Statement .wsBind := opcOf_cmdWord _ _ _
theorem wsReadWord (addr : ArgWord) : Statement (.wsReadWord addr) := opcOf_cmdWord _ _ _
theorem wsWriteWord (addr : ArgWord) (word : PixWord) : Statement (.wsWriteWord addr word) := opcOf_cmdWord _ _ _
theorem wsWriteStream : Statement .wsWriteStream := opcOf_cmdWord _ _ _
theorem wsReadStream : Statement .wsReadStream := opcOf_cmdWord _ _ _
theorem wsIntoInner : Statement .wsIntoInner := opcOf_cmdWord _ _ _

end Sys2Proof.Laws.OpcodeByte
end

