-- ==== Sys2Proof/Tests/Slice0.lean ====
section
/-! SUPPORT. The model's own tests: ill-formed lines, words written out from the spec's encodings, the
vectors of 95_test_vectors.md (one step each), and, for every statement with hypotheses, concrete states
and operands that meet them (theorems `witness_<statement>`). -/

namespace Sys2Proof.Tests

set_option maxRecDepth 20000

open Sys2Proof Sys2Proof.Machine

/-! ## Well-formedness (30_encoding.md R99) -/

theorem test_wellFormed_len_refused : (Asm.brReadBits 16).wellFormed = false := by decide
theorem test_wellFormed_bit_refused : (Asm.bwWriteBit 2).wellFormed = false := by decide
theorem test_wellFormed_byte_refused : (Asm.bwWriteBits 256 8).wellFormed = false := by decide
theorem test_wellFormed_addr_refused : (Asm.wsReadWord (2 ^ 64)).wellFormed = false := by decide
theorem test_wellFormed_word_refused : (Asm.wsWriteWord 0 128).wellFormed = false := by decide
theorem test_wellFormed_limits : (Asm.bwWriteBits 255 15).wellFormed = true ∧
    (Asm.wsWriteWord (2 ^ 64 - 1) 127).wellFormed = true := by decide

/-- A line as text (R99, R100, R101). -/
theorem test_text_bwWriteBits :
    Text.assembleLine " BW_WRITE_BITS 0xAB, 8 ; a byte" = some (0x00AB0813#32, 0#64) := by decide
theorem test_text_wsWriteWord :
    Text.assembleLine "WS_WRITE_WORD 10, 0x7F" = some (0x007F0023#32, 10#64) := by decide
theorem test_text_pseudo : Text.assembleLine "BR_READ_BYTE" = some (0x00000804#32, 0#64) := by decide
theorem test_text_refused : Text.assembleLine "BW_WRITE_BIT 2" = none ∧
    Text.assembleLine "WS_READ_WORD" = none := by decide

/-! ## Decoding: each word written out, bit by bit, from the fields of R91 to R95 -/

/-- What a CMD decodes to, as an option. -/
def dec (cmd : CmdWord) (arg : ArgWord) : Option Instr :=
  match decode cmd arg with
  | .ok i => some i
  | .error _ => none

theorem test_decode_brOpen : dec 0b00000000_00000000_0000_0000_00000001#32 0 = some .brOpen := by decide
theorem test_decode_brSize : dec 0b00000000_00000000_0000_0000_00000010#32 0 = some .brSize := by decide
theorem test_decode_brReadBit : dec 0b00000000_00000000_0000_0000_00000011#32 0 = some .brReadBit := by decide
theorem test_decode_brReadBits :
    dec 0b00000000_00000000_0000_0111_00000100#32 0 = some (.brReadBits 7) := by decide
theorem test_decode_brClose : dec 0b00000000_00000000_0000_0000_00000101#32 0 = some .brClose := by decide
theorem test_decode_bwOpen : dec 0b00000000_00000000_0000_0000_00010001#32 0 = some .bwOpen := by decide
theorem test_decode_bwWriteBit :
    dec 0b00000000_00000001_0000_0000_00010010#32 0 = some (.bwWriteBit true) := by decide
theorem test_decode_bwWriteBits :
    dec 0b00000000_10101011_0000_1000_00010011#32 0 = some (.bwWriteBits 0xAB 8) := by decide
theorem test_decode_bwFinish : dec 0b00000000_00000000_0000_0000_00010100#32 0 = some .bwFinish := by decide
theorem test_decode_wsBind : dec 0b00000000_00000000_0000_0000_00100001#32 0 = some .wsBind := by decide
theorem test_decode_wsReadWord :
    dec 0b00000000_00000000_0000_0000_00100010#32 0xFFFFFFFFFFFFFFFF#64 =
      some (.wsReadWord 0xFFFFFFFFFFFFFFFF) := by decide
theorem test_decode_wsWriteWord :
    dec 0b00000000_01111111_0000_0000_00100011#32 10 = some (.wsWriteWord 10 0x7F) := by decide
theorem test_decode_wsWriteStream :
    dec 0b00000000_00000000_0000_0000_00100100#32 0 = some .wsWriteStream := by decide
theorem test_decode_wsReadStream :
    dec 0b00000000_00000000_0000_0000_00100101#32 0 = some .wsReadStream := by decide
theorem test_decode_wsIntoInner :
    dec 0b00000000_00000000_0000_0000_00100110#32 0 = some .wsIntoInner := by decide

/-- Vectors E6, E8, E10 to E13: the illegal words, one for each way. -/
theorem test_decode_illegal :
    [0x00020012#32, 0x00AB1813#32, 0x00800023#32, 0x00000101#32, 0x01000024#32, 0x00000000#32, 0x00000006#32,
      0x00000010#32, 0x00000015#32, 0x00000020#32, 0x00000027#32, 0x000000FF#32].all
      (fun c => dec c 0 == none) = true := by decide

/-- The host's numbering: CMD in bits 31..0, ARG above it (log 2). -/
theorem test_tableWord : decodeTableWord 32 0x00000704 = some (.brReadBits 7) ∧
    decodeTableWord 96 (9 * 2 ^ 32 + 0x22) = some (.wsReadWord 9) := by decide

/-! ## Small states -/

/-- A reader open on the source [0xA5, 0x3C] of 95_test_vectors.md 2.2. -/
def reader (pos : Nat) (answers : List Bool) : State :=
  { State.reset with
    brState := .open
    srcLen := 2
    srcSize := 2
    src := [(0, 0xA5), (1, 0x3C)]
    rdPos := BitVec.ofNat 67 pos
    ioAnswers := answers }

/-- An open writer. -/
def writer (pos acc : Nat) (dst : List Byte) (answers : List Bool) : State :=
  { State.reset with
    bwState := .open
    wrPos := BitVec.ofNat 67 pos
    wrAcc := BitVec.ofNat 8 acc
    dst := dst
    ioAnswers := answers }

/-- An image of w by h pixels, all of them (r, g, b) with no channel 0. -/
def flat (w h r g b : Nat) : Memory :=
  (List.range h).flatMap fun y => (List.range w).flatMap fun x =>
    [(pixelAddr x y, BitVec.ofNat 8 r), (pixelAddr x y + 1, BitVec.ofNat 8 g),
      (pixelAddr x y + 2, BitVec.ofNat 8 b)]

/-- A bound image. -/
def bound (w h : Nat) (pix : Memory) : State :=
  { State.reset with
    wsState := .idle
    pixW := BitVec.ofNat 32 w
    pixH := BitVec.ofNat 32 h
    imgW := BitVec.ofNat 32 w
    imgH := BitVec.ofNat 32 h
    pix := pix }

/-- A bound image and a reader open on a source. -/
def embedding (w h : Nat) (pix : Memory) (size : Nat) (src : Memory) (n : Nat) : State :=
  { bound w h pix with
    brState := .open
    srcLen := BitVec.ofNat 64 size
    srcSize := BitVec.ofNat 64 size
    src := src
    ioAnswers := List.replicate n true }

/-- A bound image and a fresh writer. -/
def extracting (w h : Nat) (pix : Memory) (n : Nat) : State :=
  { bound w h pix with bwState := .open, ioAnswers := List.replicate n true }

/-- s with a recorded fault. -/
def faulted (s : State) : State := faultEntry .contract .br 0 0 s

/-- s halted. -/
def halted (s : State) : State := { faulted s with fatal := true }

/-- The command answers a next state with the property. -/
def after (i : Instr) (s : State) (p : State → Bool) : Bool :=
  match exec i s with
  | .next t => p t
  | .fault _ => false
  | .refused _ => false

/-- The pixel at (x, y) has these channels. -/
def pixelIs (t : State) (x y r g b : Nat) : Bool :=
  pixRead x y t == { r := BitVec.ofNat 8 r, g := BitVec.ofNat 8 g, b := BitVec.ofNat 8 b }

/-- The fault record reads so. -/
def record (t : State) (c : RspCode) (u : FltUnit) (sub info : Nat) : Bool :=
  t.fltValid && t.fltCode == c && t.fltUnit == u && t.fltSub.toNat == sub && t.fltInfo.toNat == info

/-! ## The vectors, one step each -/

/-- R1. -/
theorem test_brOpen_ok : after .brOpen
    { State.reset with srcLen := 2, rdPos := 5, ioAnswers := [true] } (fun t =>
    t.rspCode == .ok && t.brState == .open && t.srcSize == 2 && t.rdPos == 0) = true := by decide
/-- R18. -/
theorem test_brOpen_fails : after .brOpen { State.reset with ioAnswers := [false] } (fun t =>
    t.rspCode == .ioError && t.brState == .closed && record t .ioError .br 0 0) = true := by decide
/-- R2. -/
theorem test_brSize : after .brSize (reader 0 []) (fun t => t.rspCode == .ok && t.result == 2) = true := by
  decide
/-- R5. -/
theorem test_brReadBit : after .brReadBit (reader 2 [true]) (fun t =>
    t.rspCode == .ok && t.result == 1 && t.rdPos == 3) = true := by decide
/-- R9. -/
theorem test_brReadBit_eof : after .brReadBit (reader 16 [true]) (fun t =>
    t.rspCode == .ioError && t.result == 0 && t.rdPos == 16 && record t .ioError .br 1 16) = true := by decide
/-- R7: across the byte boundary. -/
theorem test_brReadBits : after (.brReadBits 4) (reader 6 (List.replicate 4 true)) (fun t =>
    t.rspCode == .ok && t.result == 2 && t.rdPos == 10) = true := by decide
/-- R16: the port fails at byte 1, the two bits before it stay consumed. -/
theorem test_brReadBits_fails : after (.brReadBits 4) (reader 6 [true, true, false]) (fun t =>
    t.rspCode == .ioError && t.rdPos == 8 && record t .ioError .br 2 8) = true := by decide
/-- X2: cleanup after a fault. -/
theorem test_brClose_cleanup : after .brClose (faulted (reader 0 [])) (fun t =>
    t.rspCode == .ok && t.brState == .closed && record t .contract .br 0 0) = true := by decide
/-- X5. -/
theorem test_brClose_closed : after .brClose State.reset (fun t => record t .stateError .br 0 0) = true := by
  decide
/-- W1. -/
theorem test_bwOpen : after .bwOpen { State.reset with dst := [1, 2], wrPos := 9, ioAnswers := [true] } (fun t =>
    t.rspCode == .ok && t.bwState == .open && t.dst == [] && t.wrPos == 0) = true := by decide
/-- W13. -/
theorem test_bwOpen_twice : after .bwOpen (writer 0 0 [] []) (fun t => record t .stateError .bw 0 1) = true := by
  decide
/-- W3. -/
theorem test_bwWriteBit : after (.bwWriteBit true) (writer 3 5 [] []) (fun t =>
    t.wrPos == 4 && t.wrAcc == 0x0D && t.dst == []) = true := by decide
/-- W4. -/
theorem test_bwWriteBits : after (.bwWriteBits 0xAB 8) (writer 4 0x0D [] [true]) (fun t =>
    t.wrPos == 12 && t.wrAcc == 0x0A && t.dst == [0xBD] && t.result == 0) = true := by decide
/-- W11. -/
theorem test_bwWriteBits_fails : after (.bwWriteBits 0xFF 8) (writer 0 0 [] [false]) (fun t =>
    t.wrPos == 8 && t.wrAcc == 0xFF && t.dst == [] && record t .ioError .bw 3 8) = true := by decide
/-- W5. -/
theorem test_bwFinish : after .bwFinish (writer 12 0x0A [0xBD] [true]) (fun t =>
    t.rspCode == .ok && t.result == 2 && t.dst == [0xBD, 0x0A] && t.bwState == .closed) = true := by decide
/-- W12. -/
theorem test_bwFinish_fails : after .bwFinish (writer 1 1 [] [false]) (fun t =>
    t.rspCode == .finalizeFail && t.fatal && t.bwState == .closed && record t .finalizeFail .bw 0 1) = true := by
  decide
/-- R156, the dimensions of 5 × 3. -/
theorem test_wsBind : after .wsBind { State.reset with pixW := 5, pixH := 3, hdrLen := 7 } (fun t =>
    t.rspCode == .ok && t.imgW == 5 && t.imgH == 3 && t.hdrLen == 0 && t.wsState == .idle) = true := by decide
/-- K10. -/
theorem test_wsBind_twice : after .wsBind (bound 4 4 []) (fun t => record t .stateError .ws 0 1) = true := by
  decide
/-- K7. -/
theorem test_wsReadWord : after (.wsReadWord 5) (bound 4 4 (flat 4 4 0xAB 0xCD 0xEF)) (fun t =>
    t.rspCode == .ok && t.result == 0x37) = true := by decide
/-- M3. -/
theorem test_wsReadWord_row : after (.wsReadWord 16) (bound 4 4 []) (fun t =>
    record t .addrRange .ws 0 16) = true := by decide
/-- K8. -/
theorem test_wsWriteWord : after (.wsWriteWord 5 0x5A) (bound 4 4 (flat 4 4 0xAB 0xCD 0xEF)) (fun t =>
    pixelIs t 1 1 0xAD 0xCE 0xEE && pixelIs t 2 1 0xAB 0xCD 0xEF) = true := by decide
/-- M6, K3: address 4 of a 4 × 8 image is the pixel (0, 0). -/
theorem test_wsWriteWord_alias : after (.wsWriteWord 4 0x7F) (bound 4 8 []) (fun t =>
    pixelIs t 0 0 7 3 3) = true := by decide
/-- S5: "Hi" into a white image under KEEP. -/
theorem test_wsWriteStream_keep : after .wsWriteStream
    { embedding 4 4 (flat 4 4 255 255 255) 2 [(0, 0x48), (1, 0x69)] 16 with finalFill := .keep } (fun t =>
    t.rspCode == .ok && t.result == 2 && t.rdPos == 16 && pixelIs t 0 0 0xF8 0xFC 0xFE &&
    pixelIs t 1 2 0xFC 0xFE 0xFC && pixelIs t 2 2 0xFD 0xFC 0xFE && pixelIs t 3 2 0xFF 0xFF 0xFD) = true := by
  decide
/-- S9: the largest header on a 4 × 4 image. -/
theorem test_wsWriteStream_overrun : after .wsWriteStream
    (embedding 4 4 [] (2 ^ 63 - 1) [] 56) (fun t =>
    record t .addrRange .ws 0 16 && t.rdPos == 56 && t.hdrLen.toNat == 2 ^ 63 - 1 && t.wsState == .hdrWritten &&
    pixelIs t 0 2 7 3 3) = true := by decide
/-- The image of P1. -/
def image1 : Memory :=
  [(pixelAddr 0 0 + 2, 1), (pixelAddr 1 2, 7), (pixelAddr 1 2 + 1, 3), (pixelAddr 1 2 + 2, 3),
    (pixelAddr 2 2 + 2, 1)]
/-- P2, step 3. -/
theorem test_wsReadStream : after .wsReadStream (extracting 4 4 image1 1) (fun t =>
    t.rspCode == .ok && t.result == 1 && t.wrPos == 8 && t.dst == [0xFF] && t.wsState == .bodyStreamed) = true := by
  decide
/-- S17: the writer not byte-aligned. -/
theorem test_wsReadStream_unaligned : after .wsReadStream
    { extracting 4 4 image1 1 with wrPos := 3, wrAcc := 5 } (fun t =>
    t.dst == [0xFD] && t.wrPos == 11 && t.wrAcc == 7) = true := by decide
/-- P4, step 7. -/
theorem test_wsIntoInner_cleanup : after .wsIntoInner (faulted (bound 4 4 [])) (fun t =>
    t.rspCode == .ok && t.wsState == .unbound && t.fltValid) = true := by decide

/-- What a step answers has the property. -/
def afterStep (s : State) (p : State → Bool) : Bool :=
  match step s with
  | .next t => p t
  | .fault _ => false
  | .refused _ => false

/-- E6, executed from reset. -/
theorem test_step_illegal : afterStep { State.reset with port := [.command 0x00020012 0] } (fun t =>
    t.rspCode == .illegalCmd && t.fltOpc == 0x12 && record t .illegalCmd .sequencer 0 0x00020012) = true := by
  decide
/-- X3: FATAL is checked before decode. -/
theorem test_step_halted : afterStep (halted { State.reset with port := [.command 0 0] }) (fun t =>
    t.rspCode == .halted && t.port == []) = true := by decide
/-- A table word placed at reset is run by the next step. -/
theorem test_step_fetched : afterStep (State.reset.withFetchWord 32 0x00000804) (fun t =>
    t.fltOpc == 0x04 && record t .stateError .br 0 0) = true := by decide
/-- R37 on the record of X1. -/
theorem test_status : afterStep { State.reset with port := [.command 0x00000004 0] } (fun t =>
    status t == 0x00415015) = true := by decide

/-! ## Witnesses: states and operands that meet the hypotheses of the statements -/

/-- s with one move of the host to come. -/
def withMove (s : State) (m : HostMove) : State := { s with port := [m] }

theorem witness_DecodedCmdIsTheEncoding :
    decode 0x00AB0813#32 5#64 = .ok (.bwWriteBits 0xAB 8) := by rfl
theorem witness_AtMostOneRowMatches : let r : OpRow := ⟨.wsWriteWord, 0xFF80FFFF#32, 0x00000023#32⟩
    r ∈ opcodeTable ∧ r.matches 0x007F0023#32 = true := by decide
theorem witness_ArgIsIgnoredByOtherCommands : decode 0x00000F04#32 7#64 = .ok (.brReadBits 15) ∧
    (∀ a, Instr.brReadBits 15 ≠ .wsReadWord a) ∧ ∀ a w, Instr.brReadBits 15 ≠ .wsWriteWord a w :=
  ⟨rfl, nofun, nofun⟩
theorem witness_StepRunsTheDecodedCommand :
    (withMove State.reset (.command 0x00000001 0)).port = .command 0x00000001 0 :: [] ∧
    decode 0x00000001#32 0#64 = .ok .brOpen := ⟨rfl, rfl⟩
theorem witness_IllegalCommandAnswers : decode 0x00020012#32 0#64 = .error .unusedOperandBit ∧
    (halted State.reset).fatal = true ∧
    ((faulted State.reset).fatal = false ∧ (faulted State.reset).fltValid = true) ∧
    (State.reset.fatal = false ∧ State.reset.fltValid = false) := ⟨rfl, by decide⟩
theorem witness_HostResetClearsRegistersAndKeepsMemories :
    (withMove (halted State.reset) .reset).port = .reset :: [] ∧
    afterStep (withMove (halted State.reset) .reset) (fun t => !t.fltValid && !t.fatal) = true ∧
    (halted State.reset).fltValid = true ∧ (halted State.reset).fatal = true := ⟨rfl, by decide⟩
theorem witness_HostMovesRespectOwnership_idle : State.reset.port = [] := rfl
theorem witness_HostMovesRespectOwnership_image : let m : HostMove := .setImage 4 4 [(0, 7), (99, 1)]
    ((withMove (bound 4 4 []) m).port = [m] ∧ (withMove (bound 4 4 []) m).wsState ≠ .unbound) ∧
    ((withMove State.reset m).port = [m] ∧ (withMove State.reset m).wsState = .unbound) := by decide
/-- The last channel byte of a 4 × 4 image, and the cells on either side of its first row. -/
theorem witness_HostMovesRespectOwnership_cells :
    ((3 < (4#32).toNat ∧ 3 < (4#32).toNat ∧ 2 < 3) ∧
      lastListed [(pixelAddr 3 3 + 2, 7), (0, 1), (pixelAddr 3 3 + 2, 9)] (pixelAddr 3 3 + 2) = 9) ∧
    ∀ x y, x < (4#32).toNat → y < (4#32).toNat →
      pixelAddr 4 0 < pixelAddr x y ∨ pixelAddr x y + 3 ≤ pixelAddr 4 0 :=
  ⟨by decide, fun x y hx _ => by
    have h4 : (4#32).toNat = 4 := rfl
    rw [h4] at hx
    unfold pixelAddr
    omega⟩
theorem witness_HostMovesRespectOwnership_source : let m : HostMove := .setSource 2 [(0, 7)]
    ((withMove (reader 0 []) m).port = [m] ∧ (withMove (reader 0 []) m).brState = .open) ∧
    ((withMove State.reset m).port = [m] ∧ (withMove State.reset m).brState = .closed) := by decide
theorem witness_HostMovesRespectOwnership_destination : let m : HostMove := .setDestination [1, 2]
    ((withMove (writer 0 0 [] []) m).port = [m] ∧ (withMove (writer 0 0 [] []) m).bwState = .open) ∧
    ((withMove State.reset m).port = [m] ∧ (withMove State.reset m).bwState = .closed) := by decide
theorem witness_FaultEntryKeepsTheFirstFault :
    State.reset.fltValid = false ∧ (faulted State.reset).fltValid = true := by decide
/-- An illegal and a legal transaction that are turned away. -/
theorem witness_RefusedAndHaltedHaveNoEffect :
    afterStep (withMove (halted State.reset) (.command 0 0)) (fun t => t.rspCode == .halted) = true ∧
    afterStep (withMove (faulted State.reset) (.command 1 7)) (fun t => t.rspCode == .refused) = true := by decide
theorem witness_FatalHaltsEveryCommand : (halted State.reset).fatal = true := by decide
theorem witness_RecordedFaultRefusesOtherCommands :
    (faulted State.reset).fatal = false ∧ (faulted State.reset).fltValid = true ∧
    Instr.brOpen ≠ .bwFinish ∧ Instr.brOpen ≠ .brClose ∧ Instr.brOpen ≠ .wsIntoInner := by decide
theorem witness_WrongUnitStateRaisesStateError_br :
    ((reader 0 []).ready ∧ (reader 0 []).brState = .open) ∧
    (State.reset.ready ∧ State.reset.brState = .closed ∧
      (Instr.brReadBits 0).op ∈ [Op.brSize, .brReadBit, .brReadBits, .brClose]) := by decide
theorem witness_WrongUnitStateRaisesStateError_bw :
    ((writer 0 0 [] []).ready ∧ (writer 0 0 [] []).bwState = .open) ∧
    (State.reset.ready ∧ State.reset.bwState = .closed ∧
      Instr.bwFinish.op ∈ [Op.bwWriteBit, .bwWriteBits, .bwFinish]) := by decide
theorem witness_WrongUnitStateRaisesStateError_ws :
    ((bound 4 4 []).ready ∧ (bound 4 4 []).wsState ≠ .unbound) ∧
    (State.reset.ready ∧ State.reset.wsState = .unbound ∧
      (Instr.wsReadWord 0).op ∈ [Op.wsReadWord, .wsWriteWord, .wsIntoInner]) := by decide
theorem witness_WrongUnitStateRaisesStateError_stream :
    (State.reset.ready ∧ State.reset.wsState ≠ .idle ∧
      Instr.wsReadStream.op ∈ [Op.wsWriteStream, .wsReadStream]) ∧
    ((bound 4 4 []).ready ∧ (bound 4 4 []).wsState = .idle ∧ (bound 4 4 []).brState = .closed ∧
      (bound 4 4 []).bwState = .closed) := by decide
theorem witness_CleanupInWrongStateKeepsTheRecord :
    let s := faulted State.reset
    s.fatal = false ∧ s.fltValid = true ∧ s.bwState = .closed ∧ s.brState = .closed ∧ s.wsState = .unbound := by
  decide
/-- A first fault, and an answer of a command after it. -/
theorem witness_RecordChangesOnlyAtTheFirstFault :
    (after .brReadBit State.reset fun t =>
      !State.reset.fltValid && !([RspCode.ok, .refused, .halted].contains t.rspCode)) = true ∧
    (after .brReadBit (faulted State.reset) fun t => t.rspCode == .refused) = true ∧
    (after .brSize (reader 0 []) fun t => t.rspCode == .ok) = true := by decide
/-- A BW_FINISH that sets FATAL, and a command in the halted block. -/
theorem witness_OnlyFailedFinishSetsFatal :
    (after .bwFinish (writer 1 1 [] [false]) fun t => !(writer 1 1 [] [false]).fatal && t.fatal) = true ∧
    (after .bwFinish (halted State.reset) fun t => t.fatal) = true := by decide
theorem witness_EveryCommandAnswers : (writer (2 ^ 66) 0 [] []).wrPos.toNat ≤ 2 ^ 66 := by decide

/-! ### The bit reader -/

theorem witness_BrOpenBindsTheSource : let s : State := { State.reset with ioAnswers := [true, false] }
    s.ready ∧ s.brState = .closed ∧ s.ioAnswer 0 = true ∧ (s.afterDraws 1).ioAnswer 0 = false := by decide
theorem witness_BrSizeAnswersTheLatchedSize : (reader 0 []).ready ∧ (reader 0 []).brState = .open := by decide
/-- The last bit, the first position past the end, and a failed port at the first bit. -/
theorem witness_BrReadBitReadsTheBitAtRdPos :
    ((reader 15 [true]).ready ∧ (reader 15 [true]).brState = .open ∧
      (reader 15 [true]).rdPos.toNat < 8 * (reader 15 [true]).srcSize.toNat ∧
      (reader 15 [true]).ioAnswer 0 = true) ∧
    8 * (reader 16 []).srcSize.toNat ≤ (reader 16 []).rdPos.toNat ∧
    ((reader 0 [false]).rdPos.toNat < 8 * (reader 0 [false]).srcSize.toNat ∧
      (reader 0 [false]).ioAnswer 0 = false) := by decide
/-- The group that ends with the last bit. -/
theorem witness_BrReadBitsReadsTheGroup : let s := reader 8 (List.replicate 8 true)
    s.ready ∧ s.brState = .open ∧ 1 ≤ (8#4).toNat ∧ (8#4).toNat ≤ 8 ∧
    s.rdPos.toNat + (8#4).toNat ≤ 8 * s.srcSize.toNat ∧ s.portsAnswer (8#4).toNat := by decide
/-- The eighth bit is past the end; the third read fails. -/
theorem witness_BrReadBitsFaultsAtTheFirstBadBit :
    (let s := reader 9 (List.replicate 7 true);
      s.ready ∧ s.brState = .open ∧ (8#4).toNat ≤ 8 ∧ 7 < (8#4).toNat ∧ s.portsAnswer 7 ∧
      s.rdPos.toNat + 7 = 8 * s.srcSize.toNat) ∧
    (let s := reader 6 [true, true, false];
      s.ready ∧ s.brState = .open ∧ (4#4).toNat ≤ 8 ∧ 2 < (4#4).toNat ∧ s.portsAnswer 2 ∧
      s.rdPos.toNat + 2 < 8 * s.srcSize.toNat ∧ s.ioAnswer 2 = false) := by decide
theorem witness_IllegalGroupLengthRaisesContract :
    ((0#4).toNat = 0 ∨ 9 ≤ (0#4).toNat) ∧ ((9#4).toNat = 0 ∨ 9 ≤ (9#4).toNat) ∧
    ((reader 0 []).ready ∧ (reader 0 []).brState = .open) ∧
    ((writer 0 0 [] []).ready ∧ (writer 0 0 [] []).bwState = .open) := by decide
theorem witness_BrCloseEndsTheReader :
    (faulted (reader 0 [])).fatal = false ∧ (faulted (reader 0 [])).brState = .open := by decide
/-- A mix of both read commands that ends with the last bit of the file. -/
theorem witness_GroupsReadInSequenceFollowTheSource :
    let reads : List Instr := [.brReadBits 3, .brReadBit, .brReadBits 4, .brReadBits 8]
    let s := reader 0 (List.replicate 16 true)
    s.ready ∧ s.brState = .open ∧
    (∀ i ∈ reads, i = .brReadBit ∨ ∃ len : BitVec 4, i = .brReadBits len ∧ 1 ≤ len.toNat ∧ len.toNat ≤ 8) ∧
    s.rdPos.toNat + (reads.map bitsRead).sum ≤ 8 * s.srcSize.toNat ∧
    s.portsAnswer (reads.map bitsRead).sum :=
  ⟨by decide, rfl, by simp, by decide, by decide⟩

/-! ### The bit writer -/

theorem witness_BwOpenTruncatesTheDestination :
    let s : State := { State.reset with dst := [1], ioAnswers := [true, false] }
    s.ready ∧ s.bwState = .closed ∧ s.ioAnswer 0 = true ∧ (s.afterDraws 1).ioAnswer 0 = false := by decide
/-- The last bit position but one inside a byte, and the end of a byte with either answer. -/
theorem witness_BwWriteBitAccumulatesAndFlushes :
    (let s := writer (2 ^ 67 - 2) 0 [] [];
      s.ready ∧ s.bwState = .open ∧ s.wrPos.toNat + 1 < 2 ^ 67 ∧ s.wrPos.toNat % 8 ≠ 7) ∧
    (let s := writer 7 0x7F [] [true];
      s.ready ∧ s.bwState = .open ∧ s.wrPos.toNat + 1 < 2 ^ 67 ∧ s.wrPos.toNat % 8 = 7 ∧ s.ioAnswer 0 = true) ∧
    (writer 7 0x7F [] [false]).ioAnswer 0 = false := by decide
/-- A group that leaves one bit free, and one that just fills the byte, with either answer. -/
theorem witness_BwWriteBitsAppendsTheCompletedByte :
    (let s := writer 4 0x0D [] [];
      s.ready ∧ s.bwState = .open ∧ 1 ≤ (3#4).toNat ∧ (3#4).toNat ≤ 8 ∧ s.wrPos.toNat + (3#4).toNat < 2 ^ 67 ∧
      s.wrPos.toNat % 8 + (3#4).toNat < 8) ∧
    (let s := writer 4 0x0D [] [true];
      s.wrPos.toNat + (4#4).toNat < 2 ^ 67 ∧ 8 ≤ s.wrPos.toNat % 8 + (4#4).toNat ∧ s.ioAnswer 0 = true) ∧
    (writer 4 0x0D [] [false]).ioAnswer 0 = false := by decide
theorem witness_BwFinishFlushesOrFailsForGood :
    (let s := faulted (writer 8 0 [1] []);
      s.fatal = false ∧ s.bwState = .open ∧ s.wrPos.toNat < 2 ^ 67 - 7 ∧ s.wrPos.toNat % 8 = 0) ∧
    (let s := writer 12 0x0A [0xBD] [true];
      s.fatal = false ∧ s.bwState = .open ∧ s.wrPos.toNat < 2 ^ 67 - 7 ∧ s.wrPos.toNat % 8 ≠ 0 ∧
      s.ioAnswer 0 = true) ∧
    (writer 12 0x0A [0xBD] [false]).ioAnswer 0 = false := by decide
/-- Nine bits by both write commands, across the end of a byte, and no bit at all. -/
theorem witness_WriterFlushLaw :
    let writes : List Instr := [.bwWriteBits 0xAB 1, .bwWriteBit true, .bwWriteBits 0x3D 7]
    let s := writer 0 0 [] [true, true]
    s.ready ∧ s.bwState = .open ∧ s.wrPos = 0 ∧ s.wrAcc = 0 ∧ s.dst = [] ∧
    (∀ i ∈ writes, (∃ bit, i = .bwWriteBit bit) ∨
      ∃ byte len, i = .bwWriteBits byte len ∧ 1 ≤ len.toNat ∧ len.toNat ≤ 8) ∧
    writes.flatMap bitsWritten = [true, true, true, false, true, true, true, true, false] ∧
    9 < 2 ^ 67 - 7 ∧ s.portsAnswer ((9 + 7) / 8) ∧ s.portsAnswer ((0 + 7) / 8) :=
  ⟨by decide, rfl, rfl, rfl, rfl, by simp, by decide, by decide, by decide, by decide⟩
/-- The first two groups of W8, and a source that holds the byte they make. -/
def groups8 : List (Byte × BitVec 4) := [(5, 3), (0x13, 5)]
def reader8 : State := { reader 0 (List.replicate 8 true) with srcLen := 1, srcSize := 1, src := [(0, 0x9D)] }
theorem witness_ReaderWriterDuality_sum : (groups8.map fun g => g.2.toNat).sum = 8 := by rfl
theorem witness_ReaderWriterDuality_write : let s := writer 0 0 [] [true]
    s.ready ∧ s.bwState = .open ∧ s.wrPos = 0 ∧ s.wrAcc = 0 ∧ s.dst = [] ∧
    (∀ g ∈ groups8, 1 ≤ g.2.toNat ∧ g.2.toNat ≤ 8) ∧ s.portsAnswer 1 :=
  ⟨by decide, rfl, rfl, rfl, rfl, by simp [groups8], by decide⟩
/-- What the groups write is what the reader's source holds. -/
theorem witness_ReaderWriterDuality_bytes :
    runAll ((groups8.map fun g => Instr.bwWriteBits g.1 g.2) ++ [.bwFinish]) (writer 0 0 [] [true]) =
      .next { writer 8 0 [0x9D] [] with ioDraws := 1, bwState := .closed, result := 1 } := by
  have h1 : exec (.bwWriteBits 5 3) (writer 0 0 [] [true]) = .next (writer 3 5 [] [true]) := rfl
  have h2 : exec (.bwWriteBits 0x13 5) (writer 3 5 [] [true]) =
    .next { writer 8 0 [0x9D] [] with ioDraws := 1 } := rfl
  have h3 : exec .bwFinish { writer 8 0 [0x9D] [] with ioDraws := 1 } =
    .next { writer 8 0 [0x9D] [] with ioDraws := 1, bwState := .closed, result := 1 } := rfl
  simp only [groups8, List.map_cons, List.map_nil, List.cons_append, List.nil_append, runAll, h1, h2, h3]
theorem witness_ReaderWriterDuality_read :
    reader8.ready ∧ reader8.brState = .open ∧ reader8.rdPos = 0 ∧ reader8.srcSize.toNat = [0x9D#8].length ∧
    (∀ i < 1, Memory.read reader8.src i = [0x9D#8].getD i 0) ∧ reader8.portsAnswer 8 := by decide

/-! ### Word access -/

theorem witness_WsBindWrapsTheImage : State.reset.ready ∧ State.reset.wsState = .unbound := by decide
/-- The last address of a grid that is wider than high. -/
theorem witness_WsReadWordPacksThePixel : let s := bound 8 2 []
    s.ready ∧ s.wsState ≠ .unbound ∧ s.imgW ≠ 0 ∧ (3#64).toNat < s.imgH.toNat * s.imgH.toNat := by decide
/-- The last address of a grid that is higher than wide. -/
theorem witness_WsWriteWordReplacesTheWordBits : let s := bound 4 8 []
    s.ready ∧ s.wsState ≠ .unbound ∧ s.imgW ≠ 0 ∧ (63#64).toNat < s.imgH.toNat * s.imgH.toNat := by decide
/-- Both empty grids, and the first address that does not exist. -/
theorem witness_WordAddressOutsideTheGridFaults :
    ((bound 0 5 []).ready ∧ (bound 0 5 []).wsState ≠ .unbound ∧
      ((bound 0 5 []).imgW = 0 ∨ (bound 0 5 []).imgH = 0)) ∧
    ((bound 5 0 []).imgW = 0 ∨ (bound 5 0 []).imgH = 0) ∧
    ((bound 8 2 []).ready ∧ (bound 8 2 []).wsState ≠ .unbound ∧ (bound 8 2 []).imgW ≠ 0 ∧
      (bound 8 2 []).imgH ≠ 0 ∧ (bound 8 2 []).imgH.toNat * (bound 8 2 []).imgH.toNat ≤ (4#64).toNat) := by decide
theorem witness_WsIntoInnerReturnsTheImage :
    (faulted (bound 4 4 [])).fatal = false ∧ (faulted (bound 4 4 [])).wsState ≠ .unbound := by decide
/-- M11: addresses 1 and 5 of a 4 × 8 image; the last address of that image. -/
theorem witness_WordPackingInverts : (bound 4 8 []).ready ∧ (bound 4 8 []).wsState ≠ .unbound ∧
    mapAddr (1#64).toNat (bound 4 8 []) = .done (1, 0) (bound 4 8 []) ∧
    mapAddr (5#64).toNat (bound 4 8 []) = .done (1, 0) (bound 4 8 []) ∧
    mapAddr (63#64).toNat (bound 4 8 []) = .done (3, 7) (bound 4 8 []) := ⟨by decide, by decide, rfl, rfl, rfl⟩
/-- M2, M4 and M6 to M8: the last address of a square grid, of one that is wider than high and, for one that
is higher than wide, two addresses at the end of the last row block. -/
theorem witness_MappingReachAndCapacity :
    mapAddr 15 (bound 4 4 []) = .done (3, 3) (bound 4 4 []) ∧
    (bound 4 4 []).imgW.toNat = (bound 4 4 []).imgH.toNat ∧ 15 < 4 * 4 ∧
    mapAddr 3 (bound 8 2 []) = .done (3, 1) (bound 8 2 []) ∧
    (bound 8 2 []).imgH.toNat < (bound 8 2 []).imgW.toNat ∧ 3 < 2 * 2 ∧
    (let s := bound 4 8 [];
      s.imgW.toNat ≠ 0 ∧ s.imgH.toNat ≠ 0 ∧ s.imgW.toNat < s.imgH.toNat ∧ 7 < s.imgH.toNat ∧
      7 * s.imgH.toNat ≤ 59 ∧ 59 + s.imgW.toNat < 7 * s.imgH.toNat + s.imgH.toNat ∧
      64 ≤ s.imgH.toNat * s.imgH.toNat) :=
  ⟨rfl, by decide, by decide, rfl, by decide, by decide, by decide⟩

/-! ### Streams -/

/-- The largest payload lengths of the two bounds. -/
theorem witness_SplitOfThePayload : 2 ^ 63 - 1 < 2 ^ 63 ∧ 2 ^ 64 - 1 < 2 ^ 64 := by decide
theorem witness_OversizedSourceIsRejected : let s := embedding 4 4 [] (2 ^ 63) [] 0
    s.ready ∧ s.wsState = .idle ∧ s.brState = .open ∧ s.hdrOvf = .reject ∧ 2 ^ 63 ≤ s.srcSize.toNat := by decide
/-- The smallest grid whose header words are distinct. -/
theorem witness_HeaderFidelity : 9 ≤ capacity (bound 5 3 []).imgW.toNat (bound 5 3 []).imgH.toNat := by decide
/-- S8: a source that fills a 4 × 4 image exactly, under either FINAL_FILL. -/
theorem witness_EmbedEndState :
    let s := embedding 4 4 [] 6 [(0, 0x11), (1, 0x22), (2, 0x33), (3, 0x44), (4, 0x55), (5, 0x66)] 48
    s.ready ∧ s.wsState = .idle ∧ s.brState = .open ∧ s.srcSize.toNat < 2 ^ 63 ∧ s.imgW ≠ 0 ∧
    wordsUsed s.srcSize.toNat ≤ s.imgH.toNat * s.imgH.toNat ∧
    wordsUsed s.srcSize.toNat ≤ capacity s.imgW.toNat s.imgH.toNat ∧ s.rdPos = 0 ∧
    s.portsAnswer (8 * s.srcSize.toNat) ∧ splitRem s.srcSize.toNat ≠ 0 ∧ s.finalFill = .zero ∧
    ({ s with finalFill := .keep } : State).finalFill = .keep := by decide
/-- S12: words that alias on a 4 × 8 image, and the end that the spec gives. -/
theorem witness_EmbedEndState_alias : let s := embedding 4 8 [] 1 [(0, 0xFF)] 8
    s.ready ∧ s.wsState = .idle ∧ s.brState = .open ∧ s.srcSize.toNat < 2 ^ 63 ∧ s.imgW ≠ 0 ∧
    wordsUsed s.srcSize.toNat ≤ s.imgH.toNat * s.imgH.toNat ∧
    capacity s.imgW.toNat s.imgH.toNat < wordsUsed s.srcSize.toNat ∧ s.rdPos = 0 ∧
    s.portsAnswer (8 * s.srcSize.toNat) ∧
    (after .wsWriteStream s fun t =>
      t.rspCode == .ok && t.result == 1 && t.rdPos == 8 && pixelIs t 0 0 0 0 0 && headerOf t == 0) = true := by
  decide
/-- Words 8 and 12 of that image share a pixel, nothing between them does, and word 12 is the last, partial
word of three bytes; word 10 of one byte (S12) has no earlier word in its pixel. -/
theorem witness_EmbedEndState_fill : let s := embedding 4 8 [] 3 [] 24
    (s.ready ∧ s.imgW ≠ 0 ∧ wordsUsed s.srcSize.toNat ≤ s.imgH.toNat * s.imgH.toNat ∧
      9 + splitCount 3 = 12 ∧ splitRem 3 = 3 ∧ wordsUsed 3 = 13 ∧ s.portsAnswer 24) ∧
    s.samePixel 8 12 ∧ (∀ c, 8 < c → c < 12 → ¬ s.samePixel c 12) ∧
    9 + splitCount 1 = 10 ∧ splitRem 1 = 1 ∧ ∀ b < 10, ¬ s.samePixel b 10 :=
  ⟨by decide, by decide, fun c h1 h2 => by interval_cases c <;> decide, by decide, by decide, by decide⟩
/-- The image of P1, and a writer that holds three bits (S17). -/
theorem witness_ExtractEndState_ok : let s : State := { extracting 4 4 image1 1 with wrPos := 3, wrAcc := 5 }
    s.ready ∧ s.wsState = .idle ∧ s.bwState = .open ∧ s.imgW ≠ 0 ∧
    wordsUsed (headerOf s) ≤ s.imgH.toNat * s.imgH.toNat ∧ s.wrPos.toNat + 8 * headerOf s < 2 ^ 67 ∧
    s.portsAnswer (headerOf s) ∧ s.wrAcc.toNat < 2 ^ (s.wrPos.toNat % 8) := by decide
/-- An empty grid, and a grid whose first missing word is header word 4. -/
theorem witness_ExtractEndState_header :
    (let s := extracting 0 5 [] 0;
      s.ready ∧ s.wsState = .idle ∧ s.bwState = .open ∧ s.wrAcc.toNat < 2 ^ (s.wrPos.toNat % 8) ∧
      (s.imgW = 0 ∨ s.imgH = 0)) ∧
    (let s := extracting 8 2 [] 0;
      s.ready ∧ s.wsState = .idle ∧ s.bwState = .open ∧ s.wrAcc.toNat < 2 ^ (s.wrPos.toNat % 8) ∧
      s.imgW ≠ 0 ∧ s.imgH ≠ 0 ∧ s.imgH.toNat * s.imgH.toNat < 9) := by decide
/-- The image that the embed of S11 leaves, as far as its header: 1000. -/
def image1000 : Memory := [(0, 6), (1, 2), (4, 1), (5, 3)]
/-- S11, for a writer that holds three bits; and the smallest reach with a body fault, H² = 9. -/
theorem witness_ExtractEndState_body :
    (let s : State := { extracting 4 4 image1000 6 with wrPos := 3, wrAcc := 5 };
      s.ready ∧ s.wsState = .idle ∧ s.bwState = .open ∧ s.wrAcc.toNat < 2 ^ (s.wrPos.toNat % 8) ∧
      s.imgW ≠ 0 ∧ 9 ≤ s.imgH.toNat * s.imgH.toNat ∧ s.imgH.toNat * s.imgH.toNat < wordsUsed (headerOf s) ∧
      s.wrPos.toNat + 7 * (s.imgH.toNat * s.imgH.toNat - 9) < 2 ^ 67 ∧
      s.portsAnswer ((s.wrPos.toNat % 8 + 7 * (s.imgH.toNat * s.imgH.toNat - 9)) / 8)) ∧
    (let s := extracting 3 3 [(2, 1)] 0;
      s.imgW ≠ 0 ∧ 9 ≤ s.imgH.toNat * s.imgH.toNat ∧ s.imgH.toNat * s.imgH.toNat < wordsUsed (headerOf s) ∧
      s.wrPos.toNat + 7 * (s.imgH.toNat * s.imgH.toNat - 9) < 2 ^ 67 ∧ s.portsAnswer 0) := by decide
/-- The one append of the image of P1 fails (the last payload bit, k = 8·h); the second append of S11 fails. -/
theorem witness_ExtractEndState_append :
    (let s : State := { extracting 4 4 image1 0 with ioAnswers := [false] };
      s.ready ∧ s.wsState = .idle ∧ s.bwState = .open ∧ s.wrAcc.toNat < 2 ^ (s.wrPos.toNat % 8) ∧
      s.imgW ≠ 0 ∧ 9 ≤ s.imgH.toNat * s.imgH.toNat ∧ 8 * (0 + 1) - s.wrPos.toNat % 8 ≤ 8 * headerOf s ∧
      9 + (8 * (0 + 1) - s.wrPos.toNat % 8 - 1) / 7 < s.imgH.toNat * s.imgH.toNat ∧
      s.wrPos.toNat + (8 * (0 + 1) - s.wrPos.toNat % 8) < 2 ^ 67 ∧ s.portsAnswer 0 ∧ s.ioAnswer 0 = false) ∧
    (let s : State := { extracting 4 4 image1000 0 with wrPos := 3, wrAcc := 5, ioAnswers := [true, false] };
      8 * (1 + 1) - s.wrPos.toNat % 8 ≤ 8 * headerOf s ∧
      9 + (8 * (1 + 1) - s.wrPos.toNat % 8 - 1) / 7 < s.imgH.toNat * s.imgH.toNat ∧
      s.wrPos.toNat + (8 * (1 + 1) - s.wrPos.toNat % 8) < 2 ^ 67 ∧ s.portsAnswer 1 ∧ s.ioAnswer 1 = false) := by
  decide
/-- P1 and P2: the carrier, and the extraction of the embedded image by a fresh writer. -/
theorem witness_EmbedThenExtractRoundTrip :
    let s := embedding 4 4 [] 1 [(0, 0xFF)] 8
    let u := extracting 4 4 image1 1
    s.ready ∧ s.wsState = .idle ∧ s.brState = .open ∧ s.rdPos = 0 ∧ s.srcSize.toNat < 2 ^ 63 ∧
    63 + 8 * s.srcSize.toNat ≤ 7 * capacity s.imgW.toNat s.imgH.toNat ∧ s.portsAnswer (8 * s.srcSize.toNat) ∧
    (after .wsWriteStream s fun t => (List.range (wordsUsed 1)).all fun a => wordAt u a == wordAt t a) = true ∧
    u.ready ∧ u.wsState = .idle ∧ u.bwState = .open ∧ u.wrPos = 0 ∧ u.wrAcc = 0 ∧ u.dst = [] ∧
    u.imgW = s.imgW ∧ u.imgH = s.imgH ∧ u.portsAnswer s.srcSize.toNat := by decide
/-- S14 and S13: an empty grid, and the grid whose first missing word is header word 4. -/
theorem witness_EmbedFaultsAtTheFirstMissingWord_header :
    (let s := embedding 0 5 [] 1 [(0, 1)] 0;
      s.ready ∧ s.wsState = .idle ∧ s.brState = .open ∧ s.srcSize.toNat < 2 ^ 63 ∧ (s.imgW = 0 ∨ s.imgH = 0)) ∧
    (let s := embedding 8 2 [] 1 [(0, 0xFF)] 0;
      s.ready ∧ s.wsState = .idle ∧ s.brState = .open ∧ s.srcSize.toNat < 2 ^ 63 ∧ s.imgW ≠ 0 ∧ s.imgH ≠ 0 ∧
      s.imgH.toNat * s.imgH.toNat < 9) := by decide
/-- P5: seven bytes into a 4 × 4 image, whose missing word is the last and not a full one. -/
theorem witness_EmbedFaultsAtTheFirstMissingWord_body : let s := embedding 4 4 [] 7 [(0, 1)] 56
    s.ready ∧ s.wsState = .idle ∧ s.brState = .open ∧ s.srcSize.toNat < 2 ^ 63 ∧ s.imgW ≠ 0 ∧
    9 ≤ s.imgH.toNat * s.imgH.toNat ∧ s.imgH.toNat * s.imgH.toNat < wordsUsed s.srcSize.toNat ∧
    s.rdPos.toNat + min (8 * s.srcSize.toNat) (7 * (s.imgH.toNat * s.imgH.toNat - 8)) ≤ 8 * s.srcSize.toNat ∧
    s.portsAnswer (min (8 * s.srcSize.toNat) (7 * (s.imgH.toNat * s.imgH.toNat - 8))) := by decide
/-- S10: SRC_SIZE 2^63 + 1 under TRUNCATE, and what the spec gives as its end. -/
theorem witness_EmbedFaultsAtTheFirstMissingWord_truncate :
    let s : State := { embedding 4 4 [] (2 ^ 63 + 1) [] 56 with hdrOvf := .truncate }
    s.ready ∧ s.wsState = .idle ∧ s.brState = .open ∧ s.hdrOvf = .truncate ∧ 2 ^ 63 ≤ s.srcSize.toNat ∧
    s.imgW ≠ 0 ∧ 9 ≤ s.imgH.toNat * s.imgH.toNat ∧
    s.imgH.toNat * s.imgH.toNat < wordsUsed s.srcSize.toNat ∧
    s.rdPos.toNat + min (8 * s.srcSize.toNat) (7 * (s.imgH.toNat * s.imgH.toNat - 8)) ≤ 8 * s.srcSize.toNat ∧
    s.portsAnswer (min (8 * s.srcSize.toNat) (7 * (s.imgH.toNat * s.imgH.toNat - 8))) ∧
    (after .wsWriteStream s fun t =>
      record t .addrRange .ws 0 16 && t.rdPos == 56 && t.hdrLen == 1 && t.wsState == .hdrWritten) = true := by
  decide
/-- S16: body bit 13 is past the end of the file; a port that fails at the first bit and at the
first bit of a word that does not exist. -/
theorem witness_EmbedFaultsAtTheFirstMissingSourceBit :
    (let s : State := { embedding 4 4 [] 2 [(0, 0xFF)] 13 with rdPos := 3 };
      s.ready ∧ s.wsState = .idle ∧ s.brState = .open ∧ s.srcSize.toNat < 2 ^ 63 ∧ s.imgW ≠ 0 ∧
      13 < 8 * s.srcSize.toNat ∧ 9 + 13 / 7 ≤ s.imgH.toNat * s.imgH.toNat ∧ s.portsAnswer 13 ∧
      s.rdPos.toNat + 13 = 8 * s.srcSize.toNat) ∧
    (let s : State := { embedding 4 4 [] 7 [] 0 with ioAnswers := [false] };
      s.ready ∧ s.wsState = .idle ∧ s.brState = .open ∧ s.srcSize.toNat < 2 ^ 63 ∧ s.imgW ≠ 0 ∧
      0 < 8 * s.srcSize.toNat ∧ 9 + 0 / 7 ≤ s.imgH.toNat * s.imgH.toNat ∧ s.portsAnswer 0 ∧
      s.rdPos.toNat + 0 < 8 * s.srcSize.toNat ∧ s.ioAnswer 0 = false) ∧
    (let s : State := { embedding 4 4 [] 7 [] 0 with ioAnswers := List.replicate 49 true ++ [false] };
      49 < 8 * s.srcSize.toNat ∧ 9 + 49 / 7 = s.imgH.toNat * s.imgH.toNat ∧ s.portsAnswer 49 ∧
      s.rdPos.toNat + 49 < 8 * s.srcSize.toNat ∧ s.ioAnswer 49 = false) := by decide

/-! ### Frames, whole-machine rules and the invariant -/

/-- Each reader command answers a next state. -/
theorem witness_ReaderCommandsFrame :
    (after .brOpen { State.reset with ioAnswers := [true] } fun t => t.rspCode == .ok) = true ∧
    (after .brSize (reader 0 []) fun t => t.rspCode == .ok) = true ∧
    (after .brReadBit (reader 0 [true]) fun t => t.rspCode == .ok) = true ∧
    (after (.brReadBits 2) (reader 0 [true, true]) fun t => t.rspCode == .ok) = true ∧
    (after .brClose (reader 0 []) fun t => t.rspCode == .ok) = true := by decide
/-- Each writer command answers a next state, OK. -/
theorem witness_WriterCommandsFrame :
    (after .bwOpen { State.reset with ioAnswers := [true] } fun t => t.rspCode == .ok) = true ∧
    (after (.bwWriteBit true) (writer 7 0 [] [true]) fun t => t.rspCode == .ok) = true ∧
    (after (.bwWriteBits 3 2) (writer 7 0 [] [true]) fun t => t.rspCode == .ok) = true ∧
    (after .bwFinish (writer 7 0 [] [true]) fun t => t.rspCode == .ok) = true := by decide
/-- Each word command answers a next state, OK. -/
theorem witness_WordCommandsFrame :
    (after .wsBind State.reset fun t => t.rspCode == .ok) = true ∧
    (after (.wsReadWord 3) (bound 4 4 []) fun t => t.rspCode == .ok) = true ∧
    (after (.wsWriteWord 3 5) (bound 4 4 []) fun t => t.rspCode == .ok) = true ∧
    (after .wsIntoInner (bound 4 4 []) fun t => t.rspCode == .ok) = true := by decide
/-- Both stream commands answer a next state, OK, and one address lies outside the words written. -/
theorem witness_StreamCommandsFrame :
    (after .wsWriteStream (embedding 4 4 [] 1 [(0, 0xFF)] 8) fun t => t.rspCode == .ok) = true ∧
    (after .wsReadStream (extracting 4 4 image1 1) fun t => t.rspCode == .ok) = true ∧
    (∀ a < wordsUsed 1, pixelAddr 3 3 < pixelAddr (a % 4) (a / 4) ∨ pixelAddr (a % 4) (a / 4) + 3 ≤ pixelAddr 3 3) := by
  decide
theorem witness_NoCommandTouchesHighChannelBits :
    (after (.wsWriteWord 3 5) (bound 4 4 []) fun t => t.rspCode == .ok) = true ∧ 2 ^ 32 - 1 < 2 ^ 32 := by decide
/-- One change of WS_STATE for each of the four edges, and the two faulting streams. -/
theorem witness_StreamStateIsOneWay :
    (after .wsBind State.reset fun t => t.wsState != State.reset.wsState) = true ∧
    (after .wsWriteStream (embedding 4 4 [] 1 [] 8) fun t => t.wsState == .bodyWritten) = true ∧
    (after .wsWriteStream (embedding 4 4 [] 7 [] 56) fun t => t.wsState == .hdrWritten) = true ∧
    (after .wsReadStream (extracting 4 4 image1 1) fun t => t.wsState == .bodyStreamed) = true ∧
    (after .wsReadStream (extracting 3 3 [(2, 1)] 1) fun t => t.wsState == .hdrRead) = true ∧
    (after .wsIntoInner (bound 4 4 []) fun t => t.wsState == .unbound) = true := by decide
theorem witness_PositionsNeverGoBack :
    (after .brReadBit (reader 0 [true]) fun t => t.rdPos == 1) = true ∧ Instr.brReadBit ≠ .brOpen ∧
    Instr.brReadBit ≠ .bwOpen := by decide
theorem witness_TransferRegistersAreHidden :
    (after .wsReadStream (extracting 4 4 image1 1) fun t => t.xferCount != 0) = true := by decide

/-- A state with an open reader inside its file, an open writer inside a byte and a bound image meets the
invariant. -/
theorem witness_EveryStepKeepsTheInvariant_inv : let s : State :=
      { bound 4 4 image1 with
        brState := .open, srcLen := 2, srcSize := 2, rdPos := 16, src := [(0, 0xA5), (1, 0x3C)]
        bwState := .open, wrPos := 12, wrAcc := 0x0A, dst := [0xBD]
        port := [.command 0x00010012 0] }
    s.Inv :=
  { pixWf := by decide, srcWf := by decide, sourceLatched := by decide, readerBounded := by decide,
    imageLatched := by decide, destinationCount := by decide, accumulatorLow := by decide,
    fatalRecorded := by decide, recordEmpty := by decide, recordedFault := by decide, resultZero := by decide,
    remainderSmall := by decide }
theorem witness_EveryStepKeepsTheInvariant_step : afterStep
    { bound 4 4 image1 with
      brState := .open, srcLen := 2, srcSize := 2, rdPos := 16, src := [(0, 0xA5), (1, 0x3C)]
      bwState := .open, wrPos := 12, wrAcc := 0x0A, dst := [0xBD]
      port := [.command 0x00010012 0] } (fun t => t.rspCode == .ok && t.wrPos == 13) = true := by decide

end Sys2Proof.Tests
end

section
/-! PROOFS. Every command is its own effect behind the common checks (60_exceptions.md R205): what a command
that the checks turn away answers, and the statements that speak of the checks, STATUS and reset. -/

namespace Sys2Proof.Machine

/-! ## The common checks in front of a command's own effect -/

/-- What a command does once the common checks have passed (40_bit_reader.md to 43_stream.md). -/
def effect : Instr → State → Result
  | .brOpen, s => .next (openSource s)
  | .brSize, s => .next (respond s.srcSize s)
  | .brReadBit, s => (readBit s).finish fun bit => (BitVec.ofBool bit).setWidth 64
  | .brReadBits len, s =>
    if legalLen len then (readBits len.toNat s).finish fun v => v.setWidth 64
    else .next (faultEntry .contract .br 0 len.toNat s)
  | .brClose, s => .next (respond 0 { s with brState := .closed })
  | .bwOpen, s => .next (openDestination s)
  | .bwWriteBit bit, s => (writeBit bit s).finish fun _ => 0
  | .bwWriteBits byte len, s =>
    if legalLen len then (writeBits byte len.toNat s).finish fun _ => 0
    else .next (faultEntry .contract .bw 0 len.toNat s)
  | .bwFinish, s =>
    if bytesWritten s.wrPos < 2 ^ 64 then
      (finalize s).finish fun _ => BitVec.ofNat 64 (bytesWritten s.wrPos)
    else .refused .positionOverflow
  | .wsBind, s => .next (respond 0
      { s with
        imgW := s.pixW
        imgH := s.pixH
        hdrLen := 0
        xferCount := 0
        xferRem := 0
        xferIdx := 0
        wsState := .idle })
  | .wsReadWord addr, s => (readWord addr.toNat s).finish fun w => w.setWidth 64
  | .wsWriteWord addr word, s => (writeWord addr.toNat word s).finish fun _ => 0
  | .wsWriteStream, s =>
    if 2 ^ 63 ≤ s.srcSize.toNat ∧ s.hdrOvf = .reject then
      .next (faultEntry .hdrOverflow .ws 0 s.srcSize.toNat s)
    else
      (embed (s.srcSize.setWidth 63) s.srcSize.toNat s).finish fun _ => (s.srcSize.setWidth 63).setWidth 64
  | .wsReadStream, s => (extract s).finish fun h => h.setWidth 64
  | .wsIntoInner, s => .next (respond 0 { s with wsState := .unbound })

/-- Every command is its effect behind the common checks. -/
theorem exec_eq_withChecks (i : Instr) (s : State) : exec i s = withChecks i.op s (effect i s) := by
  cases i <;> rfl

/-- What a command answers that the checks turn away: HALTED, REFUSED or STATE_ERROR. -/
inductive Declined (s : State) : State → Prop
  | halted (hf : s.fatal = true) : Declined s (answerOnly .halted s)
  | refused (hf : s.fatal = false) (hv : s.fltValid = true) : Declined s (answerOnly .refused s)
  | stateError (hf : s.fatal = false) (unit : FltUnit) (code : Nat) :
    Declined s (faultEntry .stateError unit 0 code s)

/-- The common checks of a command pass. -/
structure Admitted (op : Op) (s : State) : Prop where
  alive : s.fatal = false
  clean : s.fltValid = false ∨ isCleanup op = true
  met : firstUnmet op s = none

theorem Admitted.noFault {op : Op} {s : State} (h : Admitted op s) (hc : isCleanup op = false) :
    s.fltValid = false :=
  h.clean.resolve_right (by simp [hc])

/-- A command that answers was turned away by the checks, or they passed and it had its effect. -/
theorem exec_cases {i : Instr} {s t : State} (h : exec i s = .next t) :
    Declined s t ∨ (Admitted i.op s ∧ effect i s = .next t) := by
  rw [exec_eq_withChecks] at h
  rcases withChecks_cases h with ⟨hf, ho⟩ | ⟨hf, hv, -, ho⟩ | ⟨hf, -, r, -, ho⟩ | ⟨hf, hc, hu, ho⟩
  · cases ho; exact .inl (.halted hf)
  · cases ho; exact .inl (.refused hf hv)
  · cases ho; exact .inl (.stateError hf _ _)
  · exact .inr ⟨⟨hf, hc, hu⟩, ho.symm⟩

/-- BR_READ_BITS with a legal length reads the group; any other length is CONTRACT (40_bit_reader.md R116). -/
theorem effect_brReadBits_cases {len : BitVec 4} {s t : State} (h : effect (.brReadBits len) s = .next t) :
    ((readBits len.toNat s).finish fun v => v.setWidth 64) = .next t ∨
    t = faultEntry .contract .br 0 len.toNat s := by
  simp only [effect] at h
  split at h
  · exact .inl h
  · cases h; exact .inr rfl

/-- BW_WRITE_BITS with a legal length writes the group; any other length is CONTRACT (41_bit_writer.md R135). -/
theorem effect_bwWriteBits_cases {byte : Byte} {len : BitVec 4} {s t : State}
    (h : effect (.bwWriteBits byte len) s = .next t) :
    ((writeBits byte len.toNat s).finish fun _ => 0) = .next t ∨
    t = faultEntry .contract .bw 0 len.toNat s := by
  simp only [effect] at h
  split at h
  · exact .inl h
  · cases h; exact .inr rfl

/-- WS_WRITE_STREAM embeds, or the source is too large for the header: HDR_OVERFLOW (43_stream.md R185). -/
theorem effect_wsWriteStream_cases {s t : State} (h : effect .wsWriteStream s = .next t) :
    ((embed (s.srcSize.setWidth 63) s.srcSize.toNat s).finish fun _ => (s.srcSize.setWidth 63).setWidth 64) =
      .next t ∨
    t = faultEntry .hdrOverflow .ws 0 s.srcSize.toNat s := by
  simp only [effect] at h
  split at h
  · cases h; exact .inr rfl
  · exact .inl h

/-- Settles O15: the first of the common checks. -/
theorem fatalHaltsEveryCommand : Obligations.FatalHaltsEveryCommand := by
  intro i s hf
  rw [exec_eq_withChecks]
  exact withChecks_halted _ hf

/-! ## STATE_ERROR -/

/-- A ready machine with a unit in the wrong state: STATE_ERROR of the first requirement that fails. -/
theorem exec_stateError {i : Instr} {s : State} (hs : s.ready) {r : Requirement}
    (hu : firstUnmet i.op s = some r) :
    exec i s = .next (faultEntry .stateError r.unit 0 (r.code s) s) := by
  rw [exec_eq_withChecks]
  exact withChecks_stateError _ hs.1 (.inl hs.2) hu

/-- The commands with a single requirement. -/
theorem firstUnmet_single {op : Op} {r : Requirement} (s : State) (hr : requirements op = [r])
    (h : r.met s = false) : firstUnmet op s = some r := by
  simp [firstUnmet, hr, h]

/-- The stream commands check WS_STATE first. -/
theorem firstUnmet_stream_ws {op : Op} {r : Requirement} (s : State) (hr : requirements op = [.wsIdle, r])
    (h : s.wsState ≠ .idle) : firstUnmet op s = some .wsIdle := by
  simp [firstUnmet, hr, Requirement.met, h]

/-- With WS_STATE idle the stream commands check their bit unit. -/
theorem firstUnmet_stream_unit {op : Op} {r : Requirement} (s : State) (hr : requirements op = [.wsIdle, r])
    (h : s.wsState = .idle) (hm : r.met s = false) : firstUnmet op s = some r := by
  have hi : Requirement.met .wsIdle s = true := by simp [Requirement.met, h]
  simp [firstUnmet, hr, hi, hm]

/-- Settles O17: the table of requirements row by row, each with the unit and state code of the entry that
fails. -/
theorem wrongUnitStateRaisesStateError : Obligations.WrongUnitStateRaisesStateError := by
  intro i s hs err
  have single : ∀ r code, requirements i.op = [r] → r.met s = false → r.code s = code → err r.unit code := by
    rintro r _ hr hm rfl
    exact exec_stateError hs (firstUnmet_single s hr hm)
  have streamWs : ∀ r, requirements i.op = [.wsIdle, r] → s.wsState ≠ .idle → err .ws s.wsState.code :=
    fun r hr hm => exec_stateError hs (firstUnmet_stream_ws s hr hm)
  have streamUnit : ∀ r code, requirements i.op = [.wsIdle, r] → s.wsState = .idle → r.met s = false →
      r.code s = code → err r.unit code := by
    rintro r _ hr h hm rfl
    exact exec_stateError hs (firstUnmet_stream_unit s hr h hm)
  have brCode : ∀ {u : UnitState} (want : UnitState), s.brState = u →
      (Requirement.br want).code s = u.code := fun _ h => h ▸ rfl
  have bwCode : ∀ {u : UnitState} (want : UnitState), s.bwState = u →
      (Requirement.bw want).code s = u.code := fun _ h => h ▸ rfl
  refine ⟨?_, ?_, ?_, ?_, ?_, ?_, ?_, ?_, ?_⟩
  · rintro rfl hb
    exact single (.br .closed) 1 rfl (by simp [Requirement.met, hb]) (brCode _ hb)
  · intro ho hb
    refine single (.br .open) 0 ?_ (by simp [Requirement.met, hb]) (brCode _ hb)
    simp only [List.mem_cons, List.not_mem_nil, or_false] at ho
    rcases ho with ho | ho | ho | ho <;> rw [ho] <;> rfl
  · rintro rfl hb
    exact single (.bw .closed) 1 rfl (by simp [Requirement.met, hb]) (bwCode _ hb)
  · intro ho hb
    refine single (.bw .open) 0 ?_ (by simp [Requirement.met, hb]) (bwCode _ hb)
    simp only [List.mem_cons, List.not_mem_nil, or_false] at ho
    rcases ho with ho | ho | ho <;> rw [ho] <;> rfl
  · rintro rfl hb
    exact single .wsUnbound _ rfl (by simp [Requirement.met, hb]) rfl
  · intro ho hb
    refine single .wsBound 0 ?_ (by simp [Requirement.met, hb]) (by rw [Requirement.code, hb]; rfl)
    simp only [List.mem_cons, List.not_mem_nil, or_false] at ho
    rcases ho with ho | ho | ho <;> rw [ho] <;> rfl
  · intro ho hb
    simp only [List.mem_cons, List.not_mem_nil, or_false] at ho
    rcases ho with ho | ho
    · exact streamWs (.br .open) (by rw [ho]; rfl) hb
    · exact streamWs (.bw .open) (by rw [ho]; rfl) hb
  · rintro rfl hw hb
    exact streamUnit (.br .open) 0 rfl hw (by simp [Requirement.met, hb]) (brCode _ hb)
  · rintro rfl hw hb
    exact streamUnit (.bw .open) 0 rfl hw (by simp [Requirement.met, hb]) (bwCode _ hb)

/-! ## STATUS and reset -/

/-- Bit j of STATUS is a bit of the field that lies there, counted from the field's own lowest bit. -/
theorem status_getLsbD (s : State) (j : Nat) : (status s).getLsbD j =
    if j < 4 then s.rspCode.code.getLsbD j
    else if j - 4 < 1 then (BitVec.ofBool s.fltValid).getLsbD (j - 4)
    else if j - 5 < 1 then (BitVec.ofBool s.fatal).getLsbD (j - 5)
    else if j - 6 < 1 then (BitVec.ofNat 1 s.brState.code).getLsbD (j - 6)
    else if j - 7 < 1 then (BitVec.ofNat 1 s.bwState.code).getLsbD (j - 7)
    else if j - 8 < 3 then (BitVec.ofNat 3 s.wsState.code).getLsbD (j - 8)
    else if j - 11 < 1 then (0#1).getLsbD (j - 11)
    else if j - 12 < 4 then s.fltCode.code.getLsbD (j - 12)
    else if j - 16 < 2 then s.fltUnit.code.getLsbD (j - 16)
    else if j - 18 < 2 then s.fltSub.getLsbD (j - 18)
    else if j - 20 < 8 then s.fltOpc.getLsbD (j - 20)
    else (0#4).getLsbD (j - 28) := by
  show @BitVec.getLsbD (4 + 8 + 2 + 2 + 4 + 1 + 3 + 1 + 1 + 1 + 1 + 4) (status s) j = _
  simp only [status, BitVec.getLsbD_append, Nat.sub_sub]

/-- A field of STATUS, from its bits. -/
theorem status_extract (s : State) (lo : Nat) {w : Nat} (field : BitVec w)
    (h : ∀ j < w, (status s).getLsbD (lo + j) = field.getLsbD j) : (status s).extractLsb' lo w = field := by
  apply BitVec.eq_of_getLsbD_eq
  intro j hj
  simp [hj, h j hj]

/-- Settles O12: each field of STATUS bit by bit, its width being at most eight. -/
theorem statusLayout : Obligations.StatusLayout := by
  refine ⟨by decide, by decide, by decide, fun s => ⟨?_, ?_, ?_, ?_, ?_, ?_, ?_, ?_, ?_, ?_, ?_, ?_⟩⟩
  · exact status_extract s 0 _ fun j hj => by simp [status_getLsbD, hj]
  · rw [status_getLsbD]; simp
  · rw [status_getLsbD]; simp
  · cases h : s.brState <;> rw [status_getLsbD] <;> simp [UnitState.code, h]
  · cases h : s.bwState <;> rw [status_getLsbD] <;> simp [UnitState.code, h]
  · have hf : (status s).extractLsb' 8 3 = BitVec.ofNat 3 s.wsState.code :=
      status_extract s 8 _ fun j hj => by rw [status_getLsbD]; interval_cases j <;> simp
    rw [hf]
    cases s.wsState <;> rfl
  · rw [status_getLsbD]; simp
  · exact status_extract s 12 _ fun j hj => by rw [status_getLsbD]; interval_cases j <;> simp
  · exact status_extract s 16 _ fun j hj => by rw [status_getLsbD]; interval_cases j <;> simp
  · exact status_extract s 18 _ fun j hj => by rw [status_getLsbD]; interval_cases j <;> simp
  · exact status_extract s 20 _ fun j hj => by rw [status_getLsbD]; interval_cases j <;> simp
  · exact status_extract s 28 _ fun j hj => by rw [status_getLsbD]; interval_cases j <;> simp

/-- Settles O59: at reset the memories are empty, every unit is closed or unbound and no fault is recorded. -/
theorem resetMeetsTheInvariant : Obligations.ResetMeetsTheInvariant where
  pixWf := Memory.nil_wf
  srcWf := Memory.nil_wf
  sourceLatched := nofun
  readerBounded := Nat.le_refl 0
  imageLatched := fun h => absurd rfl h
  destinationCount := nofun
  accumulatorLow := nofun
  fatalRecorded := nofun
  recordEmpty := fun _ => ⟨rfl, rfl, rfl, rfl, rfl⟩
  recordedFault := nofun
  resultZero := fun h => absurd rfl h
  remainderSmall := Nat.zero_le 6

end Sys2Proof.Machine
end

section
/-! PROOFS. How a command ends (OK, or a fault raised on the way), what each unit's micro-steps change, and the
frames of the commands. -/

namespace Sys2Proof.Machine

/-! ## How a command ends -/

/-- The codes of the faults raised beside ILLEGAL_CMD, STATE_ERROR and FINALIZE_FAIL (60_exceptions.md R201). -/
def microFaults : List RspCode := [.ioError, .contract, .addrRange, .hdrOverflow]

/-- A fault was raised in a state that R relates to s (60_exceptions.md R206). -/
inductive Faulted (R : State → State → Prop) (s : State) : State → Prop
  | intro {u : State} (code : RspCode) (unit : FltUnit) (sub : BitVec 2) (info : Nat)
    (hc : code ∈ microFaults) (hu : R s u) : Faulted R s (faultEntry code unit sub info u)

/-- The command answered OK from a state that R relates to s, or a fault was raised in such a state. -/
inductive Ends (R : State → State → Prop) (s : State) : State → Prop
  | ok {u : State} (v : BitVec 64) (hu : R s u) : Ends R s (respond v u)
  | fault {t : State} (ht : Faulted R s t) : Ends R s t

variable {R R' : State → State → Prop} {s t : State}

theorem Faulted.mono (h : Faulted R s t) (hR : ∀ u, R s u → R' s u) : Faulted R' s t := by
  obtain ⟨code, unit, sub, info, hc, hu⟩ := h
  exact .intro code unit sub info hc (hR _ hu)

theorem Ends.mono (h : Ends R s t) (hR : ∀ u, R s u → R' s u) : Ends R' s t := by
  cases h with
  | ok v hu => exact .ok v (hR _ hu)
  | fault ht => exact .fault (ht.mono hR)

/-- A reflexive and transitive relation is carried through a sequence of micro-steps, faults included. -/
theorem carries_faulted (refl : ∀ s, R s s) (trans : ∀ {s t u}, R s t → R t u → R s u) :
    Carries R (Faulted R) where
  refl := refl
  trans := trans
  into := fun h ⟨code, unit, sub, info, hc, hu⟩ => .intro code unit sub info hc (trans h hu)

/-- A command made of a micro-operation ends as the micro-operation does. -/
theorem Micro.Post.ends {α : Type} {m : Micro α} {v : α → BitVec 64}
    (h : m.Post (fun _ u => R s u) (Faulted R s)) (ht : m.finish v = .next t) : Ends R s t := by
  rcases h.finish ht with ⟨a, u, hu, rfl⟩ | hf
  · exact .ok _ hu
  · exact .fault hf

/-- The fault codes are no answers that leave the record alone, and no FINALIZE_FAIL. -/
theorem microFaults_ne {code : RspCode} (h : code ∈ microFaults) :
    code ≠ .ok ∧ code ≠ .refused ∧ code ≠ .halted ∧ code ≠ .finalizeFail := by
  revert code; decide

theorem Faulted.rspCode_ne (h : Faulted R s t) : t.rspCode ≠ .ok := by
  obtain ⟨code, unit, sub, info, hc, -⟩ := h
  exact (microFaults_ne hc).1

theorem Declined.rspCode_ne (h : Declined s t) : t.rspCode ≠ .ok := by
  cases h <;> exact nofun

/-- A command that is turned away changes its answer and the record at most. -/
theorem Declined.frame (h : Declined s t) : t = s.withOutcome t := by
  cases h <;> rfl

/-! ## What the micro-steps change -/

/-- Reading from the source (40_bit_reader.md R111, R112). -/
structure Reads (s u : State) : Prop where
  frame : u = { s.withDraws u with rdPos := u.rdPos }
  forward : s.rdPos.toNat ≤ u.rdPos.toNat

/-- Writing to the destination (41_bit_writer.md R131, R132). -/
structure Writes (s u : State) : Prop where
  frame : u = { s.withDraws u with wrPos := u.wrPos, wrAcc := u.wrAcc, dst := u.dst }
  forward : s.wrPos.toNat ≤ u.wrPos.toNat
  grows : s.dst <+: u.dst

/-- An embed (43_stream.md R173). -/
structure Embeds (s u : State) : Prop where
  frame : u = { s.withDraws u with
    pix := u.pix, rdPos := u.rdPos, wsState := u.wsState, hdrLen := u.hdrLen,
    xferCount := u.xferCount, xferRem := u.xferRem, xferIdx := u.xferIdx }
  forward : s.rdPos.toNat ≤ u.rdPos.toNat

/-- An extraction (43_stream.md R176). -/
structure Extracts (s u : State) : Prop where
  frame : u = { s.withDraws u with
    dst := u.dst, wrPos := u.wrPos, wrAcc := u.wrAcc, wsState := u.wsState, hdrLen := u.hdrLen,
    xferCount := u.xferCount, xferRem := u.xferRem, xferIdx := u.xferIdx }
  forward : s.wrPos.toNat ≤ u.wrPos.toNat
  grows : s.dst <+: u.dst

theorem carries_reads : Carries Reads (Faulted Reads) :=
  carries_faulted (fun _ => ⟨rfl, Nat.le_refl _⟩) fun h h' =>
    ⟨by rw [h'.frame, h.frame]; rfl, Nat.le_trans h.forward h'.forward⟩

theorem carries_writes : Carries Writes (Faulted Writes) :=
  carries_faulted (fun _ => ⟨rfl, Nat.le_refl _, List.prefix_refl _⟩) fun h h' =>
    ⟨by rw [h'.frame, h.frame]; rfl, Nat.le_trans h.forward h'.forward, h.grows.trans h'.grows⟩

theorem carries_embeds : Carries Embeds (Faulted Embeds) :=
  carries_faulted (fun _ => ⟨rfl, Nat.le_refl _⟩) fun h h' =>
    ⟨by rw [h'.frame, h.frame]; rfl, Nat.le_trans h.forward h'.forward⟩

theorem carries_extracts : Carries Extracts (Faulted Extracts) :=
  carries_faulted (fun _ => ⟨rfl, Nat.le_refl _, List.prefix_refl _⟩) fun h h' =>
    ⟨by rw [h'.frame, h.frame]; rfl, Nat.le_trans h.forward h'.forward, h.grows.trans h'.grows⟩

theorem Reads.embeds (h : Reads s t) : Embeds s t := ⟨by rw [h.frame]; rfl, h.forward⟩

theorem Writes.extracts (h : Writes s t) : Extracts s t := ⟨by rw [h.frame]; rfl, h.forward, h.grows⟩

theorem readBit_reads (s : State) : (readBit s).Post (fun _ u => Reads s u) (Faulted Reads s) := by
  rcases readBit_cases s with ⟨hlt, -, h⟩ | ⟨-, h⟩ | ⟨-, -, h⟩ <;> rw [h]
  · refine ⟨rfl, ?_⟩
    rw [consumed_rdPos (by omega)]
    omega
  · exact .intro _ _ _ _ (by decide) (carries_reads.refl s)
  · exact .intro _ _ _ _ (by decide) ⟨rfl, Nat.le_refl _⟩

theorem writeBit_writes (bit : Bool) (s : State) :
    (writeBit bit s).Post (fun _ u => Writes s u) (Faulted Writes s) := by
  rcases writeBit_cases bit s with ⟨-, h⟩ | ⟨hlt, -, h⟩ | ⟨hlt, -, -, h⟩ | ⟨hlt, -, -, h⟩ <;> rw [h]
  · trivial
  · exact ⟨rfl, by rw [accumulate_pos bit hlt]; omega, List.prefix_refl _⟩
  · exact ⟨rfl, by rw [afterDraws_wrPos, accumulate_pos bit hlt]; omega, List.prefix_append _ _⟩
  · exact .intro _ _ _ _ (by decide)
      ⟨rfl, by rw [afterDraws_wrPos, accumulate_pos bit hlt]; omega, List.prefix_refl _⟩

theorem readBits_reads (len : Nat) (s : State) :
    (readBits len s).Post (fun _ u => Reads s u) (Faulted Reads s) :=
  carries_reads.readBitsFrom readBit_reads len 0 0 s

theorem writeBits_writes (byte : Byte) (len : Nat) (s : State) :
    (writeBits byte len s).Post (fun _ u => Writes s u) (Faulted Writes s) :=
  carries_writes.writeBitsFrom writeBit_writes len 0 byte s

theorem embed_embeds (h : BitVec 63) (n : Nat) (s : State) :
    (embed h n s).Post (fun _ u => Embeds s u) (Faulted Embeds s) :=
  carries_embeds.embed
    (fun s => (readBit_reads s).mono (fun _ _ h => h.embeds) fun _ h => h.mono fun _ => Reads.embeds)
    (fun _ _ _ _ _ => ⟨rfl, Nat.le_refl _⟩)
    (fun _ _ s => .intro _ _ _ _ (by decide) (carries_embeds.refl s))
    (fun _ _ => ⟨rfl, Nat.le_refl _⟩) (fun _ _ _ => ⟨rfl, Nat.le_refl _⟩) (fun _ => ⟨rfl, Nat.le_refl _⟩)
    h n s

theorem extract_extracts (s : State) :
    (extract s).Post (fun _ u => Extracts s u) (Faulted Extracts s) :=
  carries_extracts.extract
    (fun b s => (writeBit_writes b s).mono (fun _ _ h => h.extracts) fun _ h => h.mono fun _ => Writes.extracts)
    (fun _ _ s => .intro _ _ _ _ (by decide) (carries_extracts.refl s))
    (fun _ _ => ⟨rfl, Nat.le_refl _, List.prefix_refl _⟩)
    (fun _ _ _ => ⟨rfl, Nat.le_refl _, List.prefix_refl _⟩)
    (fun _ => ⟨rfl, Nat.le_refl _, List.prefix_refl _⟩) s

/-- ReadWord changes nothing (42_word_access.md R153). -/
theorem readWord_eq (a : Nat) (s : State) :
    (readWord a s).Post (fun _ u => s = u) (Faulted Eq s) :=
  (carries_faulted (R := Eq) (fun _ => rfl) Eq.trans).readWord
    (fun _ _ _ => .intro _ _ _ _ (by decide) rfl) a s

/-- WriteWord changes the pixel its address selects, and a fault touches nothing (42_word_access.md R154). -/
theorem writeWord_pixel (a : Nat) (w : PixWord) (s : State) : (writeWord a w s).Post
    (fun _ u => u = { s with pix := u.pix } ∧
      ∀ b, b < cellOf s a ∨ cellOf s a + 3 ≤ b → Memory.read u.pix b = Memory.read s.pix b)
    (Faulted Eq s) := by
  rcases mapAddr_cases a s with ⟨hr, -⟩ | ⟨-, sub, he⟩
  · rw [writeWord_ok w hr]
    exact ⟨rfl, fun b hb => Memory.read_setPixel_outside _ _ _ _ hb⟩
  · rw [writeWord_ended w he]
    exact .intro _ _ _ _ (by decide) rfl

/-- BW_FINISH, whether or not its flush succeeds (41_bit_writer.md R136). -/
structure Finishes (s u : State) : Prop where
  frame : u = { s.withDraws u with bwState := u.bwState, wrAcc := u.wrAcc, dst := u.dst, fatal := u.fatal }
  grows : s.dst <+: u.dst
  closed : u.bwState = .closed

/-- Finalization closes the writer; a flush that fails sets FATAL and raises FINALIZE_FAIL. -/
theorem finalize_finishes (s : State) : (finalize s).Post
    (fun _ u => Finishes s u ∧ u.fatal = s.fatal)
    (fun t => ∃ info u, Finishes s u ∧ u.fatal = true ∧ t = faultEntry .finalizeFail .bw 0 info u) := by
  unfold finalize
  split
  · exact ⟨⟨rfl, List.prefix_refl _, rfl⟩, rfl⟩
  · cases ha : s.ioAnswer 0 with
    | true =>
      simp only [finishFlush, dstAppend_ok s.wrAcc ha, Micro.andThen_done]
      exact ⟨⟨rfl, List.prefix_append _ _, rfl⟩, rfl⟩
    | false =>
      simp only [finishFlush, dstAppend_fail s.wrAcc ha]
      exact ⟨_, { s.afterDraws 1 with bwState := .closed, fatal := true },
        ⟨rfl, List.prefix_refl _, rfl⟩, rfl, rfl⟩

theorem effect_bwFinish (h : effect .bwFinish s = .next t) :
    (∃ v u, Finishes s u ∧ u.fatal = s.fatal ∧ t = respond v u) ∨
    (∃ info u, Finishes s u ∧ u.fatal = true ∧ t = faultEntry .finalizeFail .bw 0 info u) := by
  simp only [effect] at h
  split at h
  · rcases (finalize_finishes s).finish h with ⟨_, u, ⟨hu, hf⟩, rfl⟩ | he
    · exact .inl ⟨_, u, hu, hf, rfl⟩
    · exact .inr he
  · cases h

/-- BR_OPEN (40_bit_reader.md R113). -/
def OpensSource (s u : State) : Prop :=
  u = { s.withDraws u with brState := u.brState, rdPos := u.rdPos, srcSize := u.srcSize }

/-- BW_OPEN (41_bit_writer.md R133). -/
def OpensDestination (s u : State) : Prop :=
  u = { s.withDraws u with bwState := u.bwState, wrPos := u.wrPos, wrAcc := u.wrAcc, dst := u.dst }

/-- An open whose port answers succeeds, any other faults OPEN. -/
theorem effect_brOpen (h : effect .brOpen s = .next t) : Ends OpensSource s t := by
  simp only [effect, openSource, Host.Outcome.next.injEq] at h
  split at h <;> subst h
  · exact .ok 0 rfl
  · exact .fault (.intro _ _ _ _ (by decide) rfl)

theorem effect_bwOpen (h : effect .bwOpen s = .next t) : Ends OpensDestination s t := by
  simp only [effect, openDestination, Host.Outcome.next.injEq] at h
  split at h <;> subst h
  · exact .ok 0 rfl
  · exact .fault (.intro _ _ _ _ (by decide) rfl)

/-! ## The effects of the commands that read, write or stream -/

theorem effect_brReadBit (h : effect .brReadBit s = .next t) : Ends Reads s t := (readBit_reads s).ends h

theorem effect_brReadBits {len : BitVec 4} (h : effect (.brReadBits len) s = .next t) : Ends Reads s t := by
  obtain he | rfl := effect_brReadBits_cases h
  · exact (readBits_reads len.toNat s).ends he
  · exact .fault (.intro _ _ _ _ (by decide) (carries_reads.refl s))

theorem effect_bwWriteBit {bit : Bool} (h : effect (.bwWriteBit bit) s = .next t) : Ends Writes s t :=
  (writeBit_writes bit s).ends h

theorem effect_bwWriteBits {byte : Byte} {len : BitVec 4} (h : effect (.bwWriteBits byte len) s = .next t) :
    Ends Writes s t := by
  obtain he | rfl := effect_bwWriteBits_cases h
  · exact (writeBits_writes byte len.toNat s).ends he
  · exact .fault (.intro _ _ _ _ (by decide) (carries_writes.refl s))

theorem effect_wsReadWord {addr : ArgWord} (h : effect (.wsReadWord addr) s = .next t) : Ends Eq s t :=
  (readWord_eq addr.toNat s).ends h

theorem effect_wsWriteWord {addr : ArgWord} {word : PixWord} (h : effect (.wsWriteWord addr word) s = .next t) :
    Ends (fun s u => u = { s with pix := u.pix }) s t :=
  ((writeWord_pixel addr.toNat word s).mono (fun _ _ hu => hu.1)
    (fun _ hf => hf.mono fun _ hu => by rw [← hu])).ends h

theorem effect_wsWriteStream (h : effect .wsWriteStream s = .next t) : Ends Embeds s t := by
  obtain he | rfl := effect_wsWriteStream_cases h
  · exact (embed_embeds _ _ s).ends he
  · exact .fault (.intro _ _ _ _ (by decide) (carries_embeds.refl s))

theorem effect_wsReadStream (h : effect .wsReadStream s = .next t) : Ends Extracts s t :=
  (extract_extracts s).ends h

end Sys2Proof.Machine
end

section
/-! PROOFS. The frames of the commands: what each leaves unchanged, whatever it answers (10_state.md R20). -/

namespace Sys2Proof.Machine

variable {s t : State}

/-! ## From the frames of the micro-steps to those of the commands -/

theorem Ends.opensSource_frame (h : Ends OpensSource s t) : t = { (s.withOutcome t).withDraws t with
    brState := t.brState, rdPos := t.rdPos, srcSize := t.srcSize } := by
  obtain ⟨v, hu⟩ | ⟨code, unit, sub, info, hc, hu⟩ := h <;> rw [hu] <;> rfl

theorem Ends.opensDestination_frame (h : Ends OpensDestination s t) : t = { (s.withOutcome t).withDraws t with
    bwState := t.bwState, wrPos := t.wrPos, wrAcc := t.wrAcc, dst := t.dst } := by
  obtain ⟨v, hu⟩ | ⟨code, unit, sub, info, hc, hu⟩ := h <;> rw [hu] <;> rfl

theorem Ends.reads_frame (h : Ends Reads s t) :
    t = { (s.withOutcome t).withDraws t with rdPos := t.rdPos } := by
  obtain ⟨v, hu⟩ | ⟨code, unit, sub, info, hc, hu⟩ := h <;> rw [hu.frame] <;> rfl

theorem Ends.writes_frame (h : Ends Writes s t) :
    t = { (s.withOutcome t).withDraws t with wrPos := t.wrPos, wrAcc := t.wrAcc, dst := t.dst } := by
  obtain ⟨v, hu⟩ | ⟨code, unit, sub, info, hc, hu⟩ := h <;> rw [hu.frame] <;> rfl

theorem Ends.embeds_frame (h : Ends Embeds s t) : t = { (s.withOutcome t).withDraws t with
    pix := t.pix, rdPos := t.rdPos, wsState := t.wsState, hdrLen := t.hdrLen,
    xferCount := t.xferCount, xferRem := t.xferRem, xferIdx := t.xferIdx } := by
  obtain ⟨v, hu⟩ | ⟨code, unit, sub, info, hc, hu⟩ := h <;> rw [hu.frame] <;> rfl

theorem Ends.extracts_frame (h : Ends Extracts s t) : t = { (s.withOutcome t).withDraws t with
    dst := t.dst, wrPos := t.wrPos, wrAcc := t.wrAcc, wsState := t.wsState, hdrLen := t.hdrLen,
    xferCount := t.xferCount, xferRem := t.xferRem, xferIdx := t.xferIdx } := by
  obtain ⟨v, hu⟩ | ⟨code, unit, sub, info, hc, hu⟩ := h <;> rw [hu.frame] <;> rfl

theorem Ends.eq_frame (h : Ends Eq s t) : t = s.withOutcome t := by
  obtain ⟨v, rfl⟩ | ⟨code, unit, sub, info, hc, rfl⟩ := h <;> rfl

/-- The destination grows while a command writes, and its end leaves the destination alone. -/
theorem Ends.dst_grows {R : State → State → Prop} (h : Ends R s t) (hR : ∀ u, R s u → s.dst <+: u.dst) :
    s.dst <+: t.dst := by
  obtain ⟨v, hu⟩ | ⟨code, unit, sub, info, hc, hu⟩ := h <;> exact (hR _ hu :)

/-! ## The reader -/

/-- Settles O51: BR_SIZE and BR_CLOSE by their effects, the others by the frame of the open and of ReadBit. -/
theorem readerCommandsFrame : Obligations.ReaderCommandsFrame := by
  intro s t len
  refine ⟨fun h => ?_, fun h => ?_, fun h => ?_, fun h => ?_, fun h => ?_⟩ <;>
    obtain hd | ⟨-, he⟩ := exec_cases h
  case refine_1.inl | refine_2.inl | refine_3.inl | refine_4.inl | refine_5.inl => cases hd <;> rfl
  case refine_1.inr => exact (effect_brOpen he).opensSource_frame
  case refine_2.inr => cases he; rfl
  case refine_3.inr => exact (effect_brReadBit he).reads_frame
  case refine_4.inr => exact (effect_brReadBits he).reads_frame
  case refine_5.inr => cases he; rfl

/-! ## The writer -/

/-- A write of bits: the frame of WriteBit, and the destination as it grew. -/
theorem Ends.writes_command (h : Ends Writes s t) : t = { (s.withOutcome t).withDraws t with
    wrPos := t.wrPos, wrAcc := t.wrAcc, dst := t.dst } ∧ (t.rspCode = .ok → s.dst <+: t.dst) :=
  ⟨h.writes_frame, fun _ => h.dst_grows fun _ hu => hu.grows⟩

theorem finish_frame (h : effect .bwFinish s = .next t) : t = { (s.withOutcome t).withDraws t with
    bwState := t.bwState, wrAcc := t.wrAcc, dst := t.dst, fatal := t.fatal } ∧ s.dst <+: t.dst := by
  obtain ⟨v, u, hu, -, rfl⟩ | ⟨info, u, hu, -, rfl⟩ := effect_bwFinish h <;>
    exact ⟨by rw [hu.frame]; rfl, hu.grows⟩

/-- Settles O52: the frame and the growth of WriteBit, and those of the final flush. -/
theorem writerCommandsFrame : Obligations.WriterCommandsFrame := by
  intro s t bit byte len
  refine ⟨fun h => ?_, fun h => ?_, fun h => ?_, fun h => ?_⟩ <;> obtain hd | ⟨-, he⟩ := exec_cases h
  case refine_1.inl => cases hd <;> rfl
  case refine_2.inl | refine_3.inl | refine_4.inl =>
    exact ⟨by cases hd <;> rfl, fun hok => absurd hok hd.rspCode_ne⟩
  case refine_1.inr => exact (effect_bwOpen he).opensDestination_frame
  case refine_2.inr => exact (effect_bwWriteBit he).writes_command
  case refine_3.inr => exact (effect_bwWriteBits he).writes_command
  case refine_4.inr => exact ⟨(finish_frame he).1, fun _ => (finish_frame he).2⟩

/-! ## Word access -/

/-- WS_WRITE_WORD, whether or not its address reaches a pixel (42_word_access.md R154). -/
theorem writeWord_frame {addr : ArgWord} {word : PixWord} (h : effect (.wsWriteWord addr word) s = .next t) :
    t = { s.withOutcome t with pix := t.pix } ∧
      ∀ b, b < cellOf s addr.toNat ∨ cellOf s addr.toNat + 3 ≤ b →
        Memory.read t.pix b = Memory.read s.pix b := by
  rcases (writeWord_pixel addr.toNat word s).finish h with ⟨_, u, ⟨hu, hp⟩, rfl⟩ | hf
  · exact ⟨by rw [hu]; rfl, hp⟩
  · obtain ⟨code, unit, sub, info, hc, rfl⟩ := hf
    exact ⟨rfl, fun _ _ => rfl⟩

/-- Settles O53: WS_BIND and WS_INTO_INNER by their effects, the two accesses by what ReadWord and WriteWord
change. -/
theorem wordCommandsFrame : Obligations.WordCommandsFrame := by
  intro s t addr word
  refine ⟨fun h => ?_, fun h => ?_, fun h => ?_, fun h => ?_⟩ <;> obtain hd | ⟨-, he⟩ := exec_cases h
  case refine_1.inl | refine_2.inl | refine_4.inl => cases hd <;> rfl
  case refine_3.inl => exact ⟨by cases hd <;> rfl, fun _ _ => by cases hd <;> rfl⟩
  case refine_1.inr => cases he; rfl
  case refine_2.inr => exact (effect_wsReadWord he).eq_frame
  case refine_3.inr => exact writeWord_frame he
  case refine_4.inr => cases he; rfl

/-! ## Streams -/

/-- From s to t no byte of PIX changed outside the pixels of the word addresses below N. -/
structure Spares (N : Nat) (s t : State) : Prop where
  width : t.imgW = s.imgW
  height : t.imgH = s.imgH
  bytes : ∀ b, (∀ a < N, b < cellOf s a ∨ cellOf s a + 3 ≤ b) → Memory.read t.pix b = Memory.read s.pix b

/-- Of an embed that faults only the answer is said: PIX is then unspecified (93_implementation_defined.md U1). -/
theorem carries_spares (N : Nat) : Carries (Spares N) (fun _ t => t.rspCode ≠ .ok) where
  refl := fun _ => ⟨rfl, rfl, fun _ _ => rfl⟩
  trans := fun h h' => ⟨h'.width.trans h.width, h'.height.trans h.height, fun b hb => by
    rw [h'.bytes b (fun a ha => by rw [cellOf_congr h.width h.height]; exact hb a ha), h.bytes b hb]⟩
  into := fun _ h => h

variable {N : Nat}

theorem readBits_spares (len : Nat) (s : State) :
    (readBits len s).Post (fun _ t => Spares N s t) (fun t => t.rspCode ≠ .ok) :=
  (readBits_reads len s).mono
    (fun _ u hu => ⟨by rw [hu.frame]; rfl, by rw [hu.frame]; rfl, fun _ _ => by rw [hu.frame]; rfl⟩)
    fun _ h => h.rspCode_ne

/-- A pixel of a word address below N is modified. -/
theorem modifyPixel_spares {a : Nat} (ha : a < N) (f : Pixel → PixWord) (s : State) :
    Spares N s (modifyPixel (a % s.imgW.toNat) (a / s.imgH.toNat) f s) :=
  ⟨rfl, rfl, fun _ hb => Memory.read_setPixel_outside _ _ _ _ (hb a ha)⟩

theorem writeWord_spares {a : Nat} (ha : a < N) (w : PixWord) (s : State) :
    (writeWord a w s).Post (fun _ t => Spares N s t) (fun t => t.rspCode ≠ .ok) := by
  refine ((mapAddr_post a s).mono (fun _ _ h => h) (by rintro _ ⟨sub, rfl⟩; exact nofun)).andThen ?_
  rintro ⟨x, y⟩ t ⟨rfl, rfl, rfl, -⟩
  exact modifyPixel_spares ha _ t

theorem finalWrite_spares {a : Nat} (ha : a < N) (w : PixWord) (rem : Nat) (s : State) :
    (finalWrite a w rem s).Post (fun _ t => Spares N s t) (fun t => t.rspCode ≠ .ok) := by
  unfold finalWrite
  split
  · exact writeWord_spares ha w s
  · refine ((mapAddr_post a s).mono (fun _ _ h => h) (by rintro _ ⟨sub, rfl⟩; exact nofun)).andThen ?_
    rintro ⟨x, y⟩ t ⟨rfl, rfl, rfl, -⟩
    exact modifyPixel_spares ha _ t

theorem writeHeaderFrom_spares : ∀ (n i : Nat) (h : BitVec 63) (s : State), i + n ≤ N →
    (writeHeaderFrom n i h s).Post (fun _ t => Spares N s t) (fun t => t.rspCode ≠ .ok)
  | 0, _, _, s, _ => (carries_spares N).refl s
  | n + 1, i, h, s, hi => (carries_spares N).andThen (writeWord_spares (by omega) _ s) fun _ t =>
    writeHeaderFrom_spares n (i + 1) h t (by omega)

theorem embedBodyFrom_spares : ∀ (n idx : Nat) (s : State), 9 + idx + n ≤ N →
    (embedBodyFrom n idx s).Post (fun _ t => Spares N s t) (fun t => t.rspCode ≠ .ok)
  | 0, _, s, _ => (carries_spares N).refl s
  | n + 1, idx, s, hi => (carries_spares N).andThen
    ((carries_spares N).after (t := { s with xferIdx := BitVec.ofNat 65 idx }) ⟨rfl, rfl, fun _ _ => rfl⟩
      ((carries_spares N).andThen (readBits_spares 7 _) fun _ t =>
        writeWord_spares (by show 9 + idx < N; omega) _ t))
    fun _ t => embedBodyFrom_spares n (idx + 1) t (by omega)

theorem embedTail_spares (count rem : Nat) (s : State) (h : rem ≠ 0 → 9 + count < N) :
    (embedTail count rem s).Post (fun _ t => Spares N s t) (fun t => t.rspCode ≠ .ok) := by
  unfold embedTail
  split
  · exact (carries_spares N).refl s
  · next hr =>
    exact (carries_spares N).after (t := { s with xferIdx := BitVec.ofNat 65 count }) ⟨rfl, rfl, fun _ _ => rfl⟩
      ((carries_spares N).andThen (readBits_spares rem _) fun _ t => finalWrite_spares (h hr) _ _ t)

/-- An embed of n bytes writes the words of R171 only (43_stream.md R171, R173). -/
theorem embed_spares (h : BitVec 63) (n : Nat) (s : State) :
    (embed h n s).Post (fun _ t => Spares (wordsUsed n) s t) (fun t => t.rspCode ≠ .ok) := by
  have hN := wordsUsed_eq n
  have c := carries_spares (wordsUsed n)
  refine c.andThen (writeHeaderFrom_spares 9 0 h s (by omega)) fun _ t => ?_
  refine c.after (t := enterBody .hdrWritten h n t) ⟨rfl, rfl, fun _ _ => rfl⟩ ?_
  refine c.andThen (embedBodyFrom_spares (splitCount n) 0 _ (by omega)) fun _ u => ?_
  refine c.andThen (embedTail_spares _ _ u fun hr => ?_) fun _ v => ⟨rfl, rfl, fun _ _ => rfl⟩
  rw [if_neg hr] at hN
  omega

/-- An embed that answers OK leaves PIX alone outside the pixels of its words. -/
theorem effect_wsWriteStream_spares (h : effect .wsWriteStream s = .next t) (hok : t.rspCode = .ok) :
    Spares (wordsUsed s.srcSize.toNat) s t := by
  obtain he | rfl := effect_wsWriteStream_cases h
  · rcases (embed_spares _ _ s).finish he with ⟨_, u, hu, rfl⟩ | hf
    · exact ⟨hu.width, hu.height, hu.bytes⟩
    · exact absurd hok hf
  · cases hok

/-- Settles O54: the frames of the two streams, and the pixels and bytes that one that answers OK leaves alone. -/
theorem streamCommandsFrame : Obligations.StreamCommandsFrame := by
  intro s t
  refine ⟨fun h => ?_, fun h => ?_⟩ <;> obtain hd | ⟨-, he⟩ := exec_cases h
  case refine_1.inl => exact ⟨by cases hd <;> rfl, fun hok => absurd hok hd.rspCode_ne⟩
  case refine_2.inl => exact ⟨by cases hd <;> rfl, fun hok => absurd hok hd.rspCode_ne⟩
  case refine_1.inr =>
    exact ⟨(effect_wsWriteStream he).embeds_frame, fun hok => (effect_wsWriteStream_spares he hok).bytes⟩
  case refine_2.inr =>
    have hx := effect_wsReadStream he
    exact ⟨hx.extracts_frame, fun _ => hx.dst_grows fun _ hu => hu.grows⟩

end Sys2Proof.Machine
end

section
/-! PROOFS. Rules of the whole machine: the fault record, FATAL, the two positions and WS_STATE. -/

namespace Sys2Proof.Machine

variable {s t u : State}

/-! ## The fault record and FATAL (10_state.md R34 to R36) -/

/-- The fault record, and the CMD that FLT_OPC is taken from. -/
def State.record (s : State) : Bool × RspCode × FltUnit × BitVec 2 × BitVec 8 × BitPos × CmdWord :=
  (s.fltValid, s.fltCode, s.fltUnit, s.fltSub, s.fltOpc, s.fltInfo, s.cmd)

/-- What a command may do to the response and the record: RESULT is 0 unless it answers OK; the record stays
as it was or takes the answer, the first fault. -/
structure RecordRule (s t : State) : Prop where
  result : t.rspCode ≠ .ok → t.result = 0
  kept : s.fltValid = true ∨ t.rspCode ∈ [.ok, .refused, .halted] →
    t.fltValid = s.fltValid ∧ t.fltCode = s.fltCode ∧ t.fltUnit = s.fltUnit ∧ t.fltSub = s.fltSub ∧
    t.fltOpc = s.fltOpc ∧ t.fltInfo = s.fltInfo
  first : s.fltValid = false → t.rspCode ∉ [.ok, .refused, .halted] →
    t.fltValid = true ∧ t.fltCode = t.rspCode ∧ t.fltOpc = s.cmd.extractLsb' 0 8

theorem RecordRule.respond (v : BitVec 64) (h : u.record = s.record) : RecordRule s (respond v u) := by
  simp only [State.record, Prod.mk.injEq] at h
  obtain ⟨hv, hc, hu, hs, ho, hi, -⟩ := h
  exact ⟨fun hne => absurd rfl hne, fun _ => ⟨hv, hc, hu, hs, ho, hi⟩, fun _ hne => absurd (by simp) hne⟩

theorem RecordRule.answerOnly {c : RspCode} (hc : c ∈ [.refused, .halted]) :
    RecordRule s (answerOnly c s) :=
  ⟨fun _ => rfl, fun _ => ⟨rfl, rfl, rfl, rfl, rfl, rfl⟩, fun _ hne => absurd (List.mem_cons_of_mem _ hc) hne⟩

/-- Fault entry keeps the first fault (60_exceptions.md R206). -/
theorem RecordRule.faultEntry (code : RspCode) (unit : FltUnit) (sub : BitVec 2) (info : Nat)
    (hc : code ∉ [.ok, .refused, .halted]) (h : u.record = s.record) :
    RecordRule s (faultEntry code unit sub info u) := by
  simp only [State.record, Prod.mk.injEq] at h
  obtain ⟨hv, hcode, hu, hs, ho, hi, hcmd⟩ := h
  refine ⟨fun _ => rfl, fun hk => ?_, fun hk _ => ?_⟩
  · have hk : u.fltValid = true := hv.trans (hk.resolve_right hc)
    simp [hk, ← hv, hcode, hu, hs, ho, hi]
  · have hk : u.fltValid = false := hv.trans hk
    simp [hk, hcmd]

theorem Ends.recordRule {R : State → State → Prop} (h : Ends R s t)
    (hR : ∀ u, R s u → u.record = s.record) : RecordRule s t := by
  obtain ⟨v, hu⟩ | ⟨code, unit, sub, info, hc, hu⟩ := h
  · exact .respond v (hR _ hu)
  · refine .faultEntry code unit sub info ?_ (hR _ hu)
    revert code; decide

theorem Declined.recordRule (h : Declined s t) : RecordRule s t := by
  cases h with
  | halted => exact .answerOnly (by decide)
  | refused => exact .answerOnly (by decide)
  | stateError => exact .faultEntry _ _ _ _ (by decide) rfl

/-- What a command leaves alone until it ends, and that the positions move forward. -/
structure Keeps (i : Instr) (s u : State) : Prop where
  record : u.record = s.record
  fatal : i ≠ .bwFinish → u.fatal = s.fatal
  rdPos : i ≠ .brOpen → s.rdPos.toNat ≤ u.rdPos.toNat
  wrPos : i ≠ .bwOpen → s.wrPos.toNat ≤ u.wrPos.toNat
  wsState : i.op ∉ [.wsBind, .wsWriteStream, .wsReadStream, .wsIntoInner] → u.wsState = s.wsState

/-- A command that touches none of these. -/
theorem Keeps.of_eq {i : Instr} (hr : u.record = s.record) (hf : u.fatal = s.fatal) (hrd : u.rdPos = s.rdPos)
    (hwr : u.wrPos = s.wrPos)
    (hws : i.op ∉ [.wsBind, .wsWriteStream, .wsReadStream, .wsIntoInner] → u.wsState = s.wsState) :
    Keeps i s u :=
  ⟨hr, fun _ => hf, fun _ => hrd ▸ Nat.le_refl _, fun _ => hwr ▸ Nat.le_refl _, hws⟩

theorem OpensSource.keeps (h : OpensSource s u) : Keeps .brOpen s u := by
  rw [h]; exact ⟨rfl, fun _ => rfl, fun hne => absurd rfl hne, fun _ => Nat.le_refl _, fun _ => rfl⟩

theorem OpensDestination.keeps (h : OpensDestination s u) : Keeps .bwOpen s u := by
  rw [h]; exact ⟨rfl, fun _ => rfl, fun _ => Nat.le_refl _, fun hne => absurd rfl hne, fun _ => rfl⟩

theorem Reads.keeps (i : Instr) (h : Reads s u) : Keeps i s u := by
  rw [h.frame]; exact ⟨rfl, fun _ => rfl, fun _ => h.forward, fun _ => Nat.le_refl _, fun _ => rfl⟩

theorem Writes.keeps (i : Instr) (h : Writes s u) : Keeps i s u := by
  rw [h.frame]; exact ⟨rfl, fun _ => rfl, fun _ => Nat.le_refl _, fun _ => h.forward, fun _ => rfl⟩

theorem Finishes.keeps (h : Finishes s u) : Keeps .bwFinish s u := by
  rw [h.frame]
  exact ⟨rfl, fun hne => absurd rfl hne, fun _ => Nat.le_refl _, fun _ => Nat.le_refl _, fun _ => rfl⟩

theorem Embeds.keeps (h : Embeds s u) : Keeps .wsWriteStream s u := by
  rw [h.frame]
  exact ⟨rfl, fun _ => rfl, fun _ => h.forward, fun _ => Nat.le_refl _, fun hne => absurd (by decide) hne⟩

theorem Extracts.keeps (h : Extracts s u) : Keeps .wsReadStream s u := by
  rw [h.frame]
  exact ⟨rfl, fun _ => rfl, fun _ => Nat.le_refl _, fun _ => h.forward, fun hne => absurd (by decide) hne⟩

/-- Every command but BW_FINISH ends OK or in one of the micro-steps' faults. -/
theorem effect_keeps {i : Instr} (hi : i ≠ .bwFinish) (h : effect i s = .next t) : Ends (Keeps i) s t := by
  cases i with
  | brOpen => exact (effect_brOpen h).mono fun _ => OpensSource.keeps
  | brSize => cases h; exact .ok _ (.of_eq rfl rfl rfl rfl fun _ => rfl)
  | brReadBit => exact (effect_brReadBit h).mono fun _ => Reads.keeps _
  | brReadBits len => exact (effect_brReadBits h).mono fun _ => Reads.keeps _
  | brClose =>
    cases h
    exact .ok (u := { s with brState := .closed }) 0 (.of_eq rfl rfl rfl rfl fun _ => rfl)
  | bwOpen => exact (effect_bwOpen h).mono fun _ => OpensDestination.keeps
  | bwWriteBit bit => exact (effect_bwWriteBit h).mono fun _ => Writes.keeps _
  | bwWriteBits byte len => exact (effect_bwWriteBits h).mono fun _ => Writes.keeps _
  | bwFinish => exact absurd rfl hi
  | wsBind =>
    cases h
    exact .ok 0 (.of_eq rfl rfl rfl rfl fun hne => absurd (by decide) hne)
  | wsReadWord addr => exact (effect_wsReadWord h).mono fun _ hu => hu ▸ .of_eq rfl rfl rfl rfl fun _ => rfl
  | wsWriteWord addr word =>
    exact (effect_wsWriteWord h).mono fun _ hu => by rw [hu]; exact .of_eq rfl rfl rfl rfl fun _ => rfl
  | wsWriteStream => exact (effect_wsWriteStream h).mono fun _ => Embeds.keeps
  | wsReadStream => exact (effect_wsReadStream h).mono fun _ => Extracts.keeps
  | wsIntoInner =>
    cases h
    exact .ok (u := { s with wsState := .unbound }) 0 (.of_eq rfl rfl rfl rfl fun hne => absurd (by decide) hne)

/-- Settles O19: a command that is turned away, one that ends in a micro-step's fault, and BW_FINISH, whose
fault is FINALIZE_FAIL. -/
theorem recordChangesOnlyAtTheFirstFault : Obligations.RecordChangesOnlyAtTheFirstFault := by
  intro i s t h
  suffices RecordRule s t from ⟨this.result, this.kept, this.first⟩
  obtain hd | ⟨-, he⟩ := exec_cases h
  · exact hd.recordRule
  · by_cases hi : i = .bwFinish
    · subst hi
      obtain ⟨v, u, hu, -, rfl⟩ | ⟨info, u, hu, -, rfl⟩ := effect_bwFinish he
      · exact .respond v hu.keeps.record
      · exact .faultEntry _ _ _ _ (by decide) hu.keeps.record
    · exact (effect_keeps hi he).recordRule fun _ hu => hu.record

/-- A command that is turned away leaves FATAL alone and does not answer FINALIZE_FAIL. -/
theorem Declined.fatal (h : Declined s t) : t.fatal = s.fatal ∧ t.rspCode ≠ .finalizeFail := by
  cases h <;> exact ⟨rfl, nofun⟩

/-- So does every command but BW_FINISH. -/
theorem Ends.fatal {i : Instr} (hi : i ≠ .bwFinish) (h : Ends (Keeps i) s t) :
    t.fatal = s.fatal ∧ t.rspCode ≠ .finalizeFail := by
  obtain ⟨v, hu⟩ | ⟨code, unit, sub, info, hc, hu⟩ := h
  · exact ⟨hu.fatal hi, nofun⟩
  · exact ⟨hu.fatal hi, (microFaults_ne hc).2.2.2⟩

/-- Settles O20: only the flush of BW_FINISH sets FATAL. -/
theorem onlyFailedFinishSetsFatal : Obligations.OnlyFailedFinishSetsFatal := by
  intro i s t h
  have same : t.fatal = s.fatal ∧ t.rspCode ≠ .finalizeFail →
      (s.fatal = true → t.fatal = true) ∧
      (s.fatal = false → (t.fatal = true ↔ i = .bwFinish ∧ t.rspCode = .finalizeFail)) ∧
      (s.fatal = false → t.fatal = true → t.bwState = .closed) := by
    rintro ⟨hf, hc⟩
    simp_all
  obtain hd | ⟨ha, he⟩ := exec_cases h
  · exact same hd.fatal
  · by_cases hi : i = .bwFinish
    · subst hi
      obtain ⟨v, u, -, hf, rfl⟩ | ⟨info, u, hu, hf, rfl⟩ := effect_bwFinish he
      · exact same ⟨hf, nofun⟩
      · exact ⟨fun _ => hf, fun _ => ⟨fun _ => ⟨rfl, rfl⟩, fun _ => hf⟩, fun _ _ => hu.closed⟩
    · exact same ((effect_keeps hi he).fatal hi)

/-! ## Positions (10_state.md R22, R25) -/

/-- Settles O57: the micro-steps move the positions forward, and how the command ends leaves them there. -/
theorem positionsNeverGoBack : Obligations.PositionsNeverGoBack := by
  intro i s t h
  obtain hd | ⟨-, he⟩ := exec_cases h
  · exact ⟨fun _ => by rw [hd.frame]; exact Nat.le_refl _, fun _ => by rw [hd.frame]; exact Nat.le_refl _⟩
  · by_cases hi : i = .bwFinish
    · subst hi
      obtain ⟨v, u, hu, -, rfl⟩ | ⟨info, u, hu, -, rfl⟩ := effect_bwFinish he <;>
        exact ⟨hu.keeps.rdPos, hu.keeps.wrPos⟩
    · obtain ⟨v, hu⟩ | ⟨code, unit, sub, info, hc, hu⟩ := effect_keeps hi he <;>
        exact ⟨hu.rdPos, hu.wrPos⟩

/-! ## WS_STATE (10_state.md R28, 43_stream.md R182) -/

/-- The rest of a sequence whose completion is described by `d` alone. -/
theorem Carries.andThenEnds {D E : State → State → Prop} {α β : Type} (c : Carries D E) {m : Micro α}
    {f : α → State → Micro β} {d : β → State → Prop} (hm : m.Post (fun _ t => D s t) (E s))
    (hf : ∀ a t, (f a t).Post d (E t)) : (m.andThen f).Post d (E s) :=
  Micro.Post.andThen hm fun a t h => (hf a t).mono (fun _ _ h' => h') fun _ h' => c.into h h'

/-- WS_STATE stands where it stood, or at `st`. -/
def StaysOr (st : WsState) (s u : State) : Prop := u.wsState = s.wsState ∨ u.wsState = st

/-- The same where a fault was raised. -/
def FaultStaysOr (st : WsState) (s u : State) : Prop := StaysOr st s u ∧ u.rspCode ≠ .ok

theorem StaysOr.trans {st : WsState} (h : StaysOr st s t) (h' : StaysOr st t u) : StaysOr st s u :=
  h'.elim (fun he => h.imp he.trans he.trans) .inr

theorem carries_staysOr (st : WsState) : Carries (StaysOr st) (FaultStaysOr st) where
  refl := fun _ => .inl rfl
  trans := StaysOr.trans
  into := fun h h' => ⟨h.trans h'.1, h'.2⟩

/-- Micro-steps that leave WS_STATE alone, up to the fault. -/
theorem Faulted.staysOr {R : State → State → Prop} {st : WsState} (h : Faulted R s t)
    (hR : ∀ u, R s u → u.wsState = s.wsState) : FaultStaysOr st s t := by
  refine ⟨.inl ?_, h.rspCode_ne⟩
  obtain ⟨code, unit, sub, info, -, hu⟩ := h
  exact (hR _ hu :)

theorem readBit_staysOr (st : WsState) (s : State) :
    (readBit s).Post (fun _ u => StaysOr st s u) (FaultStaysOr st s) :=
  have hR : ∀ u, Reads s u → u.wsState = s.wsState := fun u hu => by rw [hu.frame]; rfl
  (readBit_reads s).mono (fun _ u hu => .inl (hR u hu)) fun _ h => h.staysOr hR

theorem writeBit_staysOr (st : WsState) (bit : Bool) (s : State) :
    (writeBit bit s).Post (fun _ u => StaysOr st s u) (FaultStaysOr st s) :=
  have hR : ∀ u, Writes s u → u.wsState = s.wsState := fun u hu => by rw [hu.frame]; rfl
  (writeBit_writes bit s).mono (fun _ u hu => .inl (hR u hu)) fun _ h => h.staysOr hR

theorem addrRange_staysOr (st : WsState) (a : Nat) (sub : BitVec 2) (s : State) :
    FaultStaysOr st s (faultEntry .addrRange .ws sub a s) := ⟨.inl rfl, nofun⟩

/-- An embed that completes ends in BODY_WRITTEN; one that faults has got to HDR_WRITTEN at most. -/
theorem embed_wsState (h : BitVec 63) (n : Nat) (s : State) : (embed h n s).Post
    (fun _ u => u.wsState = .bodyWritten) (FaultStaysOr .hdrWritten s) := by
  have c := carries_staysOr .hdrWritten
  have hf := addrRange_staysOr .hdrWritten
  have hm : ∀ x y f s, x < 2 ^ 32 → StaysOr .hdrWritten s (modifyPixel x y f s) := fun _ _ _ _ _ => .inl rfl
  have hi : ∀ idx s, StaysOr .hdrWritten s { s with xferIdx := idx } := fun _ _ => .inl rfl
  have hw := fun a w s => writeWord_keeps hm hf a w s
  refine c.andThenEnds (c.writeHeaderFrom hw _ 0 h s) fun _ t => ?_
  refine c.andThenEnds (c.after (t := enterBody .hdrWritten h n t) (.inr rfl)
    (c.embedBodyFrom (readBit_staysOr _) hw hi _ 0 _)) fun _ u => ?_
  refine c.andThenEnds ?_ fun _ v => rfl
  unfold embedTail
  split
  · exact c.refl u
  · exact c.after (hi _ u) (c.andThen (c.readBitsFrom (readBit_staysOr _) _ 0 0 _) fun v t =>
      finalWrite_keeps hm hf _ _ _ t)

/-- An extraction that completes ends in BODY_STREAMED; one that faults has got to HDR_READ at most. -/
theorem extract_wsState (s : State) : (extract s).Post
    (fun _ u => u.wsState = .bodyStreamed) (FaultStaysOr .hdrRead s) := by
  have c := carries_staysOr .hdrRead
  have hf := addrRange_staysOr .hdrRead
  have hi : ∀ idx s, StaysOr .hdrRead s { s with xferIdx := idx } := fun _ _ => .inl rfl
  refine c.andThenEnds (c.readHeaderFrom hf _ 0 0 s) fun h t => ?_
  refine c.andThenEnds (c.after (t := enterBody .hdrRead h h.toNat t) (.inr rfl)
    (c.andThen (c.extractBodyFrom (writeBit_staysOr _) hf hi _ 0 _) fun _ u => ?_)) fun _ v => rfl
  unfold extractTail
  split
  · exact c.refl u
  · exact c.extractStep (writeBit_staysOr _) hf hi _ _ u

/-- WS_STATE where a stream command ends that leads over `mid` to `last`. -/
def StreamEnd (mid last : WsState) (s t : State) : Prop :=
  (t.wsState = last ∧ t.rspCode = .ok) ∨ FaultStaysOr mid s t

theorem effect_wsWriteStream_end (h : effect .wsWriteStream s = .next t) :
    StreamEnd .hdrWritten .bodyWritten s t := by
  obtain he | rfl := effect_wsWriteStream_cases h
  · rcases (embed_wsState _ _ s).finish he with ⟨_, u, hu, rfl⟩ | hf
    · exact .inl ⟨hu, rfl⟩
    · exact .inr hf
  · exact .inr ⟨.inl rfl, nofun⟩

theorem effect_wsReadStream_end (h : effect .wsReadStream s = .next t) :
    StreamEnd .hdrRead .bodyStreamed s t := by
  rcases (extract_wsState s).finish h with ⟨_, u, hu, rfl⟩ | hf
  · exact .inl ⟨hu, rfl⟩
  · exact .inr hf

/-- If WS_STATE changed, the stream command answered OK in `last` or a fault in `mid`. -/
theorem StreamEnd.changed {mid last : WsState} (h : StreamEnd mid last s t) (hne : t.wsState ≠ s.wsState) :
    (t.wsState = last ∧ t.rspCode = .ok) ∨ (t.wsState = mid ∧ t.rspCode ≠ .ok) :=
  h.imp id fun ⟨hr, hc⟩ => ⟨hr.resolve_left hne, hc⟩

theorem StreamEnd.last_of_ok {mid last : WsState} (h : StreamEnd mid last s t) (hok : t.rspCode = .ok) :
    t.wsState = last :=
  h.elim (fun h => h.1) fun h => absurd hok h.2

/-- A command that is no move of WS leaves WS_STATE alone. -/
theorem effect_wsState {i : Instr} (hi : i.op ∉ [.wsBind, .wsWriteStream, .wsReadStream, .wsIntoInner])
    (h : effect i s = .next t) : t.wsState = s.wsState := by
  by_cases hf : i = .bwFinish
  · subst hf
    obtain ⟨v, u, hu, -, rfl⟩ | ⟨info, u, hu, -, rfl⟩ := effect_bwFinish h <;> exact hu.keeps.wsState hi
  · obtain ⟨v, hu⟩ | ⟨code, unit, sub, info, hc, hu⟩ := effect_keeps hf h <;> exact hu.wsState hi

/-- Settles O56: a command that is turned away and one outside the table leave WS_STATE alone; the four of the
table one by one. -/
theorem streamStateIsOneWay : Obligations.StreamStateIsOneWay := by
  intro i s t h
  obtain hd | ⟨ha, he⟩ := exec_cases h
  · have hws : t.wsState = s.wsState := by rw [hd.frame]; rfl
    exact ⟨fun hne => absurd hws hne, fun _ hok => absurd hok hd.rspCode_ne,
      fun _ hok => absurd hok hd.rspCode_ne⟩
  by_cases hi : i.op ∈ [.wsBind, .wsWriteStream, .wsReadStream, .wsIntoInner]
  case neg =>
    exact ⟨fun hne => absurd (effect_wsState hi he) hne, fun hw => absurd (by rw [hw]; decide) hi,
      fun hw => absurd (by rw [hw]; decide) hi⟩
  cases i
  case wsBind =>
    cases he
    exact ⟨fun _ => .inl ⟨rfl, (firstUnmet_wsBind s).mp ha.met, rfl⟩, nofun, nofun⟩
  case wsWriteStream =>
    have hs := effect_wsWriteStream_end he
    have hidle := ((firstUnmet_wsWriteStream s).mp ha.met).1
    exact ⟨fun hne => .inr (.inl ⟨rfl, hidle, hs.changed hne⟩), fun _ hok => ⟨hidle, hs.last_of_ok hok⟩,
      nofun⟩
  case wsReadStream =>
    have hs := effect_wsReadStream_end he
    have hidle := ((firstUnmet_wsReadStream s).mp ha.met).1
    exact ⟨fun hne => .inr (.inr (.inl ⟨rfl, hidle, hs.changed hne⟩)), nofun,
      fun _ hok => ⟨hidle, hs.last_of_ok hok⟩⟩
  case wsIntoInner =>
    cases he
    exact ⟨fun _ => .inr (.inr (.inr ⟨rfl, rfl⟩)), nofun, nofun⟩
  all_goals exact absurd hi (by simp [Instr.op])

/-! ## Reset (70_reset_and_hazards.md R230, R231) -/

/-- No command clears a recorded fault or FATAL. -/
theorem exec_keeps_fault {i : Instr} (h : exec i s = .next t) :
    (s.fltValid = true → t.fltValid = true) ∧ (s.fatal = true → t.fatal = true) :=
  ⟨fun hv => ((recordChangesOnlyAtTheFirstFault i s t h).2.1 (.inl hv)).1.trans hv,
    (onlyFailedFinishSetsFatal i s t h).1⟩

theorem illegalCommand_keeps_fault (s : State) :
    (s.fltValid = true → (illegalCommand s).fltValid = true) ∧
      (s.fatal = true → (illegalCommand s).fatal = true) := by
  unfold illegalCommand
  split
  · exact ⟨id, id⟩
  · split
    · exact ⟨id, id⟩
    · exact ⟨fun _ => rfl, id⟩

/-- A move of the host that is no reset keeps a recorded fault and FATAL. -/
theorem hostMove_keeps_fault {m : HostMove} (hm : m ≠ .reset) (h : hostMove m s = .next t) :
    (s.fltValid = true → t.fltValid = true) ∧ (s.fatal = true → t.fatal = true) := by
  cases m with
  | command cmd arg =>
    simp only [hostMove, runCommand] at h
    split at h
    · exact exec_keeps_fault (s := latch cmd arg s) h
    · cases h; exact illegalCommand_keeps_fault (latch cmd arg s)
  | reset => exact absurd rfl hm
  | setImage w h' cells =>
    simp only [hostMove, setImage] at h
    split at h <;> cases h
    exact ⟨id, id⟩
  | setSource size cells =>
    simp only [hostMove, setSource] at h
    split at h <;> cases h
    exact ⟨id, id⟩
  | setDestination bytes =>
    simp only [hostMove, setDestination] at h
    split at h <;> cases h
    exact ⟨id, id⟩

/-- Settles O10: every other move keeps a recorded fault and FATAL, and a reset's registers are read off. -/
theorem hostResetClearsRegistersAndKeepsMemories : Obligations.HostResetClearsRegistersAndKeepsMemories := by
  constructor
  · intro s t h hc
    unfold step takeMove at h
    split at h
    · cases h
      rcases hc with ⟨h1, h0⟩ | ⟨h1, h0⟩ <;> simp [h1] at h0
    · next m rest hp =>
      by_cases hm : m = .reset
      · exact ⟨rest, hm ▸ hp⟩
      · obtain ⟨hv, hf⟩ := hostMove_keeps_fault hm h
        rcases hc with ⟨h1, h0⟩ | ⟨h1, h0⟩
        · simp [hv h1] at h0
        · simp [hf h1] at h0
  · intro s rest hp
    refine ⟨hostReset { s with port := rest }, by simp only [step, takeMove, hp, hostMove], ?_⟩
    refine ⟨rfl, rfl, rfl, rfl, rfl, rfl, rfl, rfl, rfl, rfl, rfl, rfl, rfl, rfl, rfl, rfl, rfl, rfl, rfl, rfl, rfl,
      rfl, rfl, rfl, rfl, rfl, rfl, rfl, rfl, rfl, rfl⟩

end Sys2Proof.Machine
end

section
/-! PROOFS. The transfer registers are hidden (10_state.md R31): run side by side from two states that differ
only in them, every micro-step and every command does the same. -/

namespace Sys2Proof.Machine

/-- The same state but for XFER_COUNT, XFER_REM and XFER_IDX. -/
def SameButXfer (s t : State) : Prop :=
  ∃ count rem idx, t = { s with xferCount := count, xferRem := rem, xferIdx := idx }

/-- The two ways of a micro-operation: the same value, the same end, states that are the same but for XFER_*. -/
inductive Micro.Alike {α : Type} : Micro α → Micro α → Prop
  | done {s t : State} (a : α) (h : SameButXfer s t) : Alike (.done a s) (.done a t)
  | ended {s t : State} (h : SameButXfer s t) : Alike (.ended s) (.ended t)
  | refused (r : Refusal) : Alike (.refused r) (.refused r)

/-- The two outcomes of a command. -/
inductive ResultAlike : Result → Result → Prop
  | next {s t : State} (h : SameButXfer s t) : ResultAlike (.next s) (.next t)
  | refused (r : Refusal) : ResultAlike (.refused r) (.refused r)

variable {s t : State}

theorem SameButXfer.respond (h : SameButXfer s t) (v : BitVec 64) : SameButXfer (respond v s) (respond v t) := by
  obtain ⟨c, r, x, rfl⟩ := h; exact ⟨c, r, x, rfl⟩

theorem SameButXfer.faultEntry (h : SameButXfer s t) (code : RspCode) (unit : FltUnit) (sub : BitVec 2)
    (info : Nat) : SameButXfer (faultEntry code unit sub info s) (faultEntry code unit sub info t) := by
  obtain ⟨c, r, x, rfl⟩ := h; exact ⟨c, r, x, rfl⟩

theorem SameButXfer.answerOnly (h : SameButXfer s t) (code : RspCode) :
    SameButXfer (answerOnly code s) (answerOnly code t) := by
  obtain ⟨c, r, x, rfl⟩ := h; exact ⟨c, r, x, rfl⟩

theorem SameButXfer.setXferIdx (h : SameButXfer s t) (idx : BitVec 65) :
    SameButXfer { s with xferIdx := idx } { t with xferIdx := idx } := by
  obtain ⟨c, r, x, rfl⟩ := h; exact ⟨c, r, _, rfl⟩

theorem SameButXfer.enterBody (h : SameButXfer s t) (st : WsState) (v : BitVec 63) (n : Nat) :
    SameButXfer (enterBody st v n s) (enterBody st v n t) := by
  obtain ⟨c, r, x, rfl⟩ := h; exact ⟨_, _, x, rfl⟩

theorem SameButXfer.setWsState (h : SameButXfer s t) (st : WsState) :
    SameButXfer { s with wsState := st } { t with wsState := st } := by
  obtain ⟨c, r, x, rfl⟩ := h; exact ⟨c, r, x, rfl⟩

theorem SameButXfer.modifyPixel (h : SameButXfer s t) (x y : Nat) (f : Pixel → PixWord) :
    SameButXfer (modifyPixel x y f s) (modifyPixel x y f t) := by
  obtain ⟨c, r, i, rfl⟩ := h; exact ⟨c, r, i, rfl⟩

/-! ## Sequences -/

theorem Micro.Alike.andThen {α β : Type} {m m' : Micro α} {f f' : α → State → Micro β} (h : m.Alike m')
    (hf : ∀ a s t, SameButXfer s t → (f a s).Alike (f' a t)) : (m.andThen f).Alike (m'.andThen f') := by
  cases h with
  | done a h => exact hf a _ _ h
  | ended h => exact .ended h
  | refused r => exact .refused r

theorem Micro.Alike.finish {α : Type} {m m' : Micro α} (h : m.Alike m') (v : α → BitVec 64) :
    ResultAlike (m.finish v) (m'.finish v) := by
  cases h with
  | done a h => exact .next (h.respond _)
  | ended h => exact .next h
  | refused r => exact .refused r

/-! ## Micro-steps -/

theorem mapAddr_alike (h : SameButXfer s t) (a : Nat) : (mapAddr a s).Alike (mapAddr a t) := by
  have hf := fun sub => h.faultEntry .addrRange .ws sub a
  obtain ⟨c, r, x, rfl⟩ := id h
  unfold mapAddr
  split_ifs
  · exact .ended (hf _)
  · exact .ended (hf _)
  · exact .done _ h

theorem readBit_alike (h : SameButXfer s t) : (readBit s).Alike (readBit t) := by
  obtain ⟨c, r, x, rfl⟩ := h
  rcases readBit_cases s with ⟨hlt, ha, he⟩ | ⟨hge, he⟩ | ⟨hlt, ha, he⟩ <;> rw [he]
  · rw [readBit_ok (s := { s with xferCount := c, xferRem := r, xferIdx := x }) hlt ha]
    exact .done _ ⟨c, r, x, rfl⟩
  · rw [readBit_eof (s := { s with xferCount := c, xferRem := r, xferIdx := x }) hge]
    exact .ended ⟨c, r, x, rfl⟩
  · rw [readBit_fail (s := { s with xferCount := c, xferRem := r, xferIdx := x }) hlt ha]
    exact .ended ⟨c, r, x, rfl⟩

theorem flush_alike (h : SameButXfer s t) : (flush s).Alike (flush t) := by
  obtain ⟨c, r, x, rfl⟩ := h
  cases ha : s.ioAnswer 0 with
  | true =>
    rw [flush_ok ha, flush_ok (s := { s with xferCount := c, xferRem := r, xferIdx := x }) ha]
    exact .done _ ⟨c, r, x, rfl⟩
  | false =>
    rw [flush_fail ha, flush_fail (s := { s with xferCount := c, xferRem := r, xferIdx := x }) ha]
    exact .ended ⟨c, r, x, rfl⟩

theorem writeBit_alike (h : SameButXfer s t) (bit : Bool) : (writeBit bit s).Alike (writeBit bit t) := by
  have ha : SameButXfer (accumulate bit s) (accumulate bit t) := by
    obtain ⟨c, r, x, rfl⟩ := h; exact ⟨c, r, x, rfl⟩
  have hp : t.wrPos = s.wrPos := by obtain ⟨c, r, x, rfl⟩ := h; rfl
  have hq : (accumulate bit t).wrPos = (accumulate bit s).wrPos := by obtain ⟨c, r, x, rfl⟩ := h; rfl
  unfold writeBit
  rw [hp, hq]
  split_ifs
  · exact .refused _
  · exact flush_alike ha
  · exact .done _ ha

theorem finishFlush_alike (h : SameButXfer s t) : (finishFlush s).Alike (finishFlush t) := by
  obtain ⟨c, r, x, rfl⟩ := h
  cases ha : s.ioAnswer 0 with
  | true =>
    simp only [finishFlush, dstAppend_ok _ ha,
      dstAppend_ok (s := { s with xferCount := c, xferRem := r, xferIdx := x }) _ ha]
    exact .done _ ⟨c, r, x, rfl⟩
  | false =>
    simp only [finishFlush, dstAppend_fail _ ha,
      dstAppend_fail (s := { s with xferCount := c, xferRem := r, xferIdx := x }) _ ha]
    exact .ended ⟨c, r, x, rfl⟩

theorem finalize_alike (h : SameButXfer s t) : (finalize s).Alike (finalize t) := by
  have hp : t.wrPos = s.wrPos := by obtain ⟨c, r, x, rfl⟩ := h; rfl
  simp only [finalize, hp]
  refine Micro.Alike.andThen (by split_ifs; exacts [.done _ h, finishFlush_alike h]) fun _ u v huv => .done _ ?_
  obtain ⟨c, r, x, rfl⟩ := huv
  exact ⟨c, r, x, rfl⟩

theorem readBitsFrom_alike : ∀ (n k : Nat) (v : Byte) {s t : State}, SameButXfer s t →
    (readBitsFrom n k v s).Alike (readBitsFrom n k v t)
  | 0, _, _, _, _, h => .done _ h
  | n + 1, k, _, _, _, h => (readBit_alike h).andThen fun _ _ _ h => readBitsFrom_alike n (k + 1) _ h

theorem writeBitsFrom_alike : ∀ (n k : Nat) (byte : Byte) {s t : State}, SameButXfer s t →
    (writeBitsFrom n k byte s).Alike (writeBitsFrom n k byte t)
  | 0, _, _, _, _, h => .done _ h
  | n + 1, k, byte, _, _, h => (writeBit_alike h _).andThen fun _ _ _ h => writeBitsFrom_alike n (k + 1) byte h

theorem readBits_alike (len : Nat) (h : SameButXfer s t) : (readBits len s).Alike (readBits len t) :=
  readBitsFrom_alike len 0 0 h

theorem writeBits_alike (byte : Byte) (len : Nat) (h : SameButXfer s t) :
    (writeBits byte len s).Alike (writeBits byte len t) := writeBitsFrom_alike len 0 byte h

theorem readWord_alike (h : SameButXfer s t) (a : Nat) : (readWord a s).Alike (readWord a t) :=
  (mapAddr_alike h a).andThen fun xy u v huv => by
    have hx : pixRead xy.1 xy.2 v = pixRead xy.1 xy.2 u := by obtain ⟨c, r, x, rfl⟩ := huv; rfl
    rw [hx]
    exact .done _ huv

theorem writeWord_alike (h : SameButXfer s t) (a : Nat) (w : PixWord) :
    (writeWord a w s).Alike (writeWord a w t) :=
  (mapAddr_alike h a).andThen fun _ _ _ huv => .done _ (huv.modifyPixel _ _ _)

theorem finalWrite_alike (h : SameButXfer s t) (a : Nat) (w : PixWord) (rem : Nat) :
    (finalWrite a w rem s).Alike (finalWrite a w rem t) := by
  have hff : t.finalFill = s.finalFill := by obtain ⟨c, r, x, rfl⟩ := h; rfl
  unfold finalWrite
  rw [hff]
  cases s.finalFill with
  | zero => exact writeWord_alike h a w
  | keep => exact (mapAddr_alike h a).andThen fun _ _ _ huv => .done _ (huv.modifyPixel _ _ _)

/-! ## Streams -/

theorem writeHeaderFrom_alike : ∀ (n i : Nat) (v : BitVec 63) {s t : State}, SameButXfer s t →
    (writeHeaderFrom n i v s).Alike (writeHeaderFrom n i v t)
  | 0, _, _, _, _, h => .done _ h
  | n + 1, i, v, _, _, h => (writeWord_alike h _ _).andThen fun _ _ _ h => writeHeaderFrom_alike n (i + 1) v h

theorem embedStep_alike (idx : Nat) (h : SameButXfer s t) : (embedStep idx s).Alike (embedStep idx t) :=
  (readBits_alike Config.bitsPerWord (h.setXferIdx _)).andThen fun _ _ _ h => writeWord_alike h _ _

theorem embedBodyFrom_alike : ∀ (n idx : Nat) {s t : State}, SameButXfer s t →
    (embedBodyFrom n idx s).Alike (embedBodyFrom n idx t)
  | 0, _, _, _, h => .done _ h
  | n + 1, idx, _, _, h => (embedStep_alike idx h).andThen fun _ _ _ h => embedBodyFrom_alike n (idx + 1) h

theorem embedTail_alike (count rem : Nat) (h : SameButXfer s t) :
    (embedTail count rem s).Alike (embedTail count rem t) := by
  unfold embedTail
  split
  · exact .done _ h
  · exact (readBits_alike rem (h.setXferIdx _)).andThen fun _ _ _ h => finalWrite_alike h _ _ _

theorem embed_alike (h : SameButXfer s t) (v : BitVec 63) (n : Nat) : (embed v n s).Alike (embed v n t) :=
  (writeHeaderFrom_alike Config.headerWords 0 v h).andThen fun _ _ _ h =>
    (embedBodyFrom_alike _ 0 (h.enterBody _ v n)).andThen fun _ _ _ h =>
      (embedTail_alike _ _ h).andThen fun _ _ _ h => .done _ (h.setWsState _)

theorem readHeaderFrom_alike : ∀ (n i : Nat) (v : BitVec 63) {s t : State}, SameButXfer s t →
    (readHeaderFrom n i v s).Alike (readHeaderFrom n i v t)
  | 0, _, _, _, _, h => .done _ h
  | n + 1, i, _, _, _, h => (readWord_alike h i).andThen fun _ _ _ h => readHeaderFrom_alike n (i + 1) _ h

theorem extractStep_alike (idx len : Nat) (h : SameButXfer s t) :
    (extractStep idx len s).Alike (extractStep idx len t) :=
  (readWord_alike (h.setXferIdx _) _).andThen fun w _ _ h => writeBits_alike (w.setWidth 8) len h

theorem extractBodyFrom_alike : ∀ (n idx : Nat) {s t : State}, SameButXfer s t →
    (extractBodyFrom n idx s).Alike (extractBodyFrom n idx t)
  | 0, _, _, _, h => .done _ h
  | n + 1, idx, _, _, h =>
    (extractStep_alike idx Config.bitsPerWord h).andThen fun _ _ _ h => extractBodyFrom_alike n (idx + 1) h

theorem extractTail_alike (count rem : Nat) (h : SameButXfer s t) :
    (extractTail count rem s).Alike (extractTail count rem t) := by
  unfold extractTail
  split
  · exact .done _ h
  · exact extractStep_alike count rem h

theorem extract_alike (h : SameButXfer s t) : (extract s).Alike (extract t) :=
  (readHeaderFrom_alike Config.headerWords 0 0 h).andThen fun v _ _ h =>
    ((extractBodyFrom_alike _ 0 (h.enterBody _ v v.toNat)).andThen fun _ _ _ h => extractTail_alike _ _ h).andThen
      fun _ _ _ h => .done _ (h.setWsState _)

/-! ## Commands -/

theorem openSource_alike (h : SameButXfer s t) : SameButXfer (openSource s) (openSource t) := by
  obtain ⟨c, r, x, rfl⟩ := h
  have ha : ({ s with xferCount := c, xferRem := r, xferIdx := x } : State).ioAnswer 0 = s.ioAnswer 0 := rfl
  simp only [openSource, ha]
  split <;> exact ⟨c, r, x, rfl⟩

theorem openDestination_alike (h : SameButXfer s t) : SameButXfer (openDestination s) (openDestination t) := by
  obtain ⟨c, r, x, rfl⟩ := h
  have ha : ({ s with xferCount := c, xferRem := r, xferIdx := x } : State).ioAnswer 0 = s.ioAnswer 0 := rfl
  simp only [openDestination, ha]
  split <;> exact ⟨c, r, x, rfl⟩

theorem ResultAlike.ite {c : Prop} [Decidable c] {a b a' b' : Result} (h : ResultAlike a a')
    (h' : ResultAlike b b') : ResultAlike (if c then a else b) (if c then a' else b') := by
  split
  · exact h
  · exact h'

/-- The effect of every command. -/
theorem effect_alike (h : SameButXfer s t) (i : Instr) : ResultAlike (effect i s) (effect i t) := by
  cases i with
  | brOpen => exact .next (openSource_alike h)
  | brSize => obtain ⟨c, r, x, rfl⟩ := h; exact .next ⟨c, r, x, rfl⟩
  | brReadBit => exact (readBit_alike h).finish _
  | brReadBits len => exact .ite ((readBits_alike _ h).finish _) (.next (h.faultEntry _ _ _ _))
  | brClose => obtain ⟨c, r, x, rfl⟩ := h; exact .next ⟨c, r, x, rfl⟩
  | bwOpen => exact .next (openDestination_alike h)
  | bwWriteBit bit => exact (writeBit_alike h bit).finish _
  | bwWriteBits byte len => exact .ite ((writeBits_alike byte _ h).finish _) (.next (h.faultEntry _ _ _ _))
  | bwFinish =>
    have hf := finalize_alike h
    obtain ⟨c, r, x, rfl⟩ := h
    exact .ite (hf.finish _) (.refused _)
  | wsBind => obtain ⟨c, r, x, rfl⟩ := h; exact .next ⟨0, 0, 0, rfl⟩
  | wsReadWord addr => exact (readWord_alike h _).finish _
  | wsWriteWord addr word => exact (writeWord_alike h _ word).finish _
  | wsWriteStream =>
    have hf := h.faultEntry .hdrOverflow .ws 0 s.srcSize.toNat
    have he := embed_alike h (s.srcSize.setWidth 63) s.srcSize.toNat
    obtain ⟨c, r, x, rfl⟩ := h
    exact .ite (.next hf) (he.finish _)
  | wsReadStream => exact (extract_alike h).finish _
  | wsIntoInner => obtain ⟨c, r, x, rfl⟩ := h; exact .next ⟨c, r, x, rfl⟩

/-- The common checks read none of the three registers. -/
theorem withChecks_alike {op : Op} {body body' : Result} (h : SameButXfer s t) (hb : ResultAlike body body') :
    ResultAlike (withChecks op s body) (withChecks op t body') := by
  have hh := h.answerOnly .halted
  have hr := h.answerOnly .refused
  have hs := fun r : Requirement => h.faultEntry .stateError r.unit 0 (r.code s)
  have hu : firstUnmet op t = firstUnmet op s := by obtain ⟨c, r, x, rfl⟩ := h; rfl
  have hc : ∀ r : Requirement, r.code t = r.code s := by obtain ⟨c, r, x, rfl⟩ := h; exact fun _ => rfl
  have hv : t.fatal = s.fatal ∧ t.fltValid = s.fltValid := by obtain ⟨c, r, x, rfl⟩ := h; exact ⟨rfl, rfl⟩
  unfold withChecks
  rw [hv.1, hv.2, hu]
  refine .ite (.next hh) (.ite (.next hr) ?_)
  cases firstUnmet op s with
  | none => exact hb
  | some r => simp only [hc]; exact .next (hs r)

/-- Settles O58: both runs answer alike, micro-step by micro-step. -/
theorem transferRegistersAreHidden : Obligations.TransferRegistersAreHidden := by
  intro i s t count rem idx h
  have hr : ResultAlike (exec i s) (exec i { s with xferCount := count, xferRem := rem, xferIdx := idx }) := by
    rw [exec_eq_withChecks, exec_eq_withChecks]
    have hs : SameButXfer s { s with xferCount := count, xferRem := rem, xferIdx := idx } := ⟨_, _, _, rfl⟩
    exact withChecks_alike hs (effect_alike hs i)
  rw [h] at hr
  generalize exec i { s with xferCount := count, xferRem := rem, xferIdx := idx } = out at hr
  obtain ⟨c, r, x, rfl⟩ | _ := hr
  exact ⟨_, rfl, rfl⟩

end Sys2Proof.Machine
end

section
/-! PROOFS. The machine's invariant: every micro-step, every command and every move of the host keeps it. -/

namespace Sys2Proof.Machine

variable {s t : State}

/-! ## How a command ends -/

theorem State.Inv.respond (h : s.Inv) (v : BitVec 64) : (respond v s).Inv :=
  { h with resultZero := fun hne => absurd rfl hne }

theorem State.Inv.answerOnly (h : s.Inv) (c : RspCode) : (answerOnly c s).Inv :=
  { h with resultZero := fun _ => rfl }

/-- The first fault stays a failed append if it was one (10_state.md R27). -/
theorem noAppendFailed_of_faultEntry {code : RspCode} {unit : FltUnit} {sub : BitVec 2} {info : Nat}
    (h : (faultEntry code unit sub info s).noAppendFailed) : s.noAppendFailed := by
  rintro ⟨hv, hc, hs⟩
  exact h ⟨rfl, by simp [hv, hc], by simp [hv, hs]⟩

/-- Fault entry, with any fault code (60_exceptions.md R206). -/
theorem State.Inv.faultEntry (h : s.Inv) {code : RspCode} (unit : FltUnit) (sub : BitVec 2) (info : Nat)
    (hc : code ≠ .ok ∧ code ≠ .refused ∧ code ≠ .halted) : (faultEntry code unit sub info s).Inv :=
  { h with
    destinationCount := fun ho hn => h.destinationCount ho (noAppendFailed_of_faultEntry hn)
    accumulatorLow := fun ho hn => h.accumulatorLow ho (noAppendFailed_of_faultEntry hn)
    fatalRecorded := fun hf => ⟨rfl, (h.fatalRecorded hf).2⟩
    recordEmpty := nofun
    recordedFault := fun _ => by
      cases hv : s.fltValid with
      | true => simpa [hv] using h.recordedFault hv
      | false => simpa [hv] using hc
    resultZero := fun _ => rfl }

theorem Declined.inv (h : s.Inv) (hd : Declined s t) : t.Inv := by
  cases hd with
  | halted => exact h.answerOnly _
  | refused => exact h.answerOnly _
  | stateError => exact h.faultEntry _ _ _ (by decide)

/-! ## Micro-steps -/

/-- The invariant holds and no fault is recorded, as while the micro-steps of a command run. -/
structure Live (s : State) : Prop where
  inv : s.Inv
  clean : s.fltValid = false

theorem readBit_inv (h : Live s) :
    (readBit s).Post (fun _ u => Live u ∧ u.wsState = s.wsState) State.Inv := by
  obtain ⟨hi, hv⟩ := h
  have hd : (s.afterDraws 1).Inv := { hi with }
  rcases readBit_cases s with ⟨hlt, -, he⟩ | ⟨-, he⟩ | ⟨-, -, he⟩ <;> rw [he]
  · refine ⟨⟨{ hi with readerBounded := ?_ }, hv⟩, rfl⟩
    rw [consumed_rdPos (by omega)]
    exact hlt
  · exact hi.faultEntry _ _ _ (by decide)
  · exact hd.faultEntry _ _ _ (by decide)

/-- A bit written inside a byte leaves WR_ACC without a bit at or above the new position (10_state.md R27). -/
theorem accumulate_low {bit : Bool} (h7 : s.wrPos.toNat % 8 ≠ 7)
    (h : s.wrAcc.toNat < 2 ^ (s.wrPos.toNat % 8)) :
    (accumulate bit s).wrAcc.toNat < 2 ^ ((s.wrPos.toNat + 1) % 8) := by
  apply lt_of_getLsbD
  intro j hj
  rw [accumulate_bit, getLsbD_of_lt h (by omega)]
  have : j ≠ s.wrPos.toNat % 8 := by omega
  simp [this]

/-- A failed append is the first fault, and of WR_ACC and DST nothing is asked any more (10_state.md R27). -/
theorem appendFault_inv {u : State} (h : Live s) (hu : Writes s u) (info : Nat) :
    (faultEntry .ioError .bw subDstWrite info u).Inv := by
  obtain ⟨hi, hv⟩ := h
  have hvu : u.fltValid = false := by rw [hu.frame]; exact hv
  have hn : ¬ (faultEntry .ioError .bw subDstWrite info u).noAppendFailed :=
    fun hn => hn ⟨rfl, by simp [hvu], by simp [hvu]⟩
  have hf := hi.faultEntry (code := .ioError) .bw subDstWrite info (by decide)
  rw [hu.frame] at hn ⊢
  exact { hf with
    destinationCount := fun _ hn' => absurd hn' hn
    accumulatorLow := fun _ hn' => absurd hn' hn }

theorem writeBit_inv (h : Live s) (bit : Bool) :
    (writeBit bit s).Post (fun _ u => Live u ∧ u.wsState = s.wsState) State.Inv := by
  obtain ⟨hi, hv⟩ := id h
  rcases writeBit_cases bit s with ⟨-, he⟩ | ⟨hlt, h7, he⟩ | ⟨hlt, h7, -, he⟩ | ⟨hlt, h7, -, he⟩ <;> rw [he]
  · trivial
  · refine ⟨⟨{ hi with destinationCount := fun ho hn => ?_, accumulatorLow := fun ho hn => ?_ }, hv⟩, rfl⟩
    · rw [accumulate_pos bit hlt]
      have : s.dst.length = s.wrPos.toNat / 8 := hi.destinationCount ho hn
      show s.dst.length = _
      omega
    · rw [accumulate_pos bit hlt]
      exact accumulate_low h7 (hi.accumulatorLow ho hn)
  · refine ⟨⟨{ hi with destinationCount := fun ho hn => ?_, accumulatorLow := fun ho hn => ?_ }, hv⟩, rfl⟩
    · have : s.dst.length = s.wrPos.toNat / 8 := hi.destinationCount ho hn
      rw [afterDraws_wrPos, accumulate_pos bit hlt, List.length_append, List.length_singleton]
      omega
    · exact Nat.two_pow_pos _
  · exact appendFault_inv (u := (accumulate bit s).afterDraws 1) h
      ⟨rfl, by rw [afterDraws_wrPos, accumulate_pos bit hlt]; omega, List.prefix_refl _⟩ _

/-! ## Sequences of micro-steps -/

/-- From a state with `P` a completed sequence leads to one with `P`, and one that faults to one with `Q`. -/
theorem carries_imp (P Q : State → Prop) : Carries (fun s t => P s → P t) (fun s t => P s → Q t) where
  refl := fun _ h => h
  trans := fun h h' hp => h' (h hp)
  into := fun h h' hp => h' (h hp)

/-- A property that the micro-operation leads to, as the pair of relations that Carries speaks of. -/
theorem Micro.Post.imp {α : Type} {m : Micro α} {P Q : State → Prop}
    (h : P s → m.Post (fun _ u => P u) Q) : m.Post (fun _ u => P s → P u) (fun u => P s → Q u) := by
  cases m with
  | done a u => exact h
  | ended u => exact h
  | refused r => trivial

/-- Back from the pair of relations to the property. -/
theorem Micro.Post.of_imp {α : Type} {m : Micro α} {P Q : State → Prop}
    (h : m.Post (fun _ u => P s → P u) (fun u => P s → Q u)) (hp : P s) : m.Post (fun _ u => P u) Q :=
  h.mono (fun _ _ hd => hd hp) fun _ he => he hp

theorem readBits_inv (len : Nat) (h : Live s) : (readBits len s).Post (fun _ u => Live u) State.Inv :=
  .of_imp ((carries_imp Live State.Inv).readBitsFrom
    (fun _ => .imp fun h => (readBit_inv h).mono (fun _ _ h => h.1) fun _ h => h) len 0 0 s) h

theorem writeBits_inv (byte : Byte) (len : Nat) (h : Live s) :
    (writeBits byte len s).Post (fun _ u => Live u) State.Inv :=
  .of_imp ((carries_imp Live State.Inv).writeBitsFrom
    (fun _ _ => .imp fun h => (writeBit_inv h _).mono (fun _ _ h => h.1) fun _ h => h) len 0 byte s) h

/-- As `Live`, with an image bound: what the stream commands run in. -/
structure LiveBound (s : State) : Prop where
  live : Live s
  bound : s.wsState ≠ .unbound

theorem LiveBound.addrRange (h : LiveBound s) (a : Nat) (sub : BitVec 2) :
    (faultEntry .addrRange .ws sub a s).Inv := h.live.inv.faultEntry _ _ _ (by decide)

theorem LiveBound.setXferIdx (h : LiveBound s) (idx : BitVec 65) : LiveBound { s with xferIdx := idx } :=
  ⟨⟨{ h.live.inv with }, h.live.clean⟩, h.bound⟩

theorem LiveBound.setWsState (h : LiveBound s) {st : WsState} (hst : st ≠ .unbound) :
    LiveBound { s with wsState := st } :=
  ⟨⟨{ h.live.inv with imageLatched := fun _ => h.live.inv.imageLatched h.bound }, h.live.clean⟩, hst⟩

/-- The split leaves a remainder of at most 6 (43_stream.md R171). -/
theorem LiveBound.enterBody (h : LiveBound s) {st : WsState} (hst : st ≠ .unbound) (v : BitVec 63) (n : Nat) :
    LiveBound (enterBody st v n s) := by
  have hr : (BitVec.ofNat 3 (splitRem n)).toNat ≤ 6 := by
    have := splitRem_le n
    rw [BitVec.toNat_ofNat]
    omega
  exact ⟨⟨{ h.live.inv with imageLatched := fun _ => h.live.inv.imageLatched h.bound, remainderSmall := hr },
    h.live.clean⟩, hst⟩

theorem State.Inv.modifyPixel (h : s.Inv) (x y : Nat) (f : Pixel → PixWord) : (modifyPixel x y f s).Inv :=
  { h with pixWf := Memory.setPixel_wf _ _ _ h.pixWf }

theorem embed_inv (v : BitVec 63) (n : Nat) (h : LiveBound s) :
    (embed v n s).Post (fun _ u => LiveBound u) State.Inv :=
  .of_imp ((carries_imp LiveBound State.Inv).embed
    (fun _ => .imp fun h => (readBit_inv h.live).mono (fun _ _ h' => ⟨h'.1, h'.2 ▸ h.bound⟩) fun _ h => h)
    (fun x y f _ _ h => ⟨⟨h.live.inv.modifyPixel x y f, h.live.clean⟩, h.bound⟩)
    (fun a sub _ h => h.addrRange a sub)
    (fun idx _ h => h.setXferIdx idx) (fun v n _ h => h.enterBody (st := .hdrWritten) nofun v n)
    (fun _ h => h.setWsState nofun) v n s) h

theorem extract_inv (h : LiveBound s) : (extract s).Post (fun _ u => LiveBound u) State.Inv :=
  .of_imp ((carries_imp LiveBound State.Inv).extract
    (fun _ _ => .imp fun h => (writeBit_inv h.live _).mono (fun _ _ h' => ⟨h'.1, h'.2 ▸ h.bound⟩) fun _ h => h)
    (fun a sub _ h => h.addrRange a sub) (fun idx _ h => h.setXferIdx idx)
    (fun v n _ h => h.enterBody (st := .hdrRead) nofun v n) (fun _ h => h.setWsState nofun) s) h

/-! ## Commands -/

/-- A command made of a micro-operation that keeps the invariant. -/
theorem Micro.Post.finish_inv {α : Type} {m : Micro α} {v : α → BitVec 64} {P : State → Prop}
    (h : m.Post (fun _ u => P u) State.Inv) (hP : ∀ u, P u → u.Inv) (ht : m.finish v = .next t) : t.Inv := by
  rcases h.finish ht with ⟨_, u, hu, rfl⟩ | hi
  · exact (hP u hu).respond _
  · exact hi

/-- BR_OPEN latches the size of the file and starts at its first bit. -/
theorem openSource_inv (h : s.Inv) : (openSource s).Inv := by
  unfold openSource
  split
  · exact State.Inv.respond (s := { s.afterDraws 1 with srcSize := s.srcLen, rdPos := 0, brState := .open })
      { h with sourceLatched := fun _ => rfl, readerBounded := Nat.zero_le _ } 0
  · exact State.Inv.faultEntry (s := s.afterDraws 1) { h with } _ _ _ (by decide)

/-- BW_OPEN starts an empty destination; after a failed open the writer is still closed. -/
theorem openDestination_inv (h : s.Inv) (hf : s.fatal = false) (hc : s.bwState = .closed) :
    (openDestination s).Inv := by
  unfold openDestination
  split
  · exact State.Inv.respond (s := { s.afterDraws 1 with dst := [], wrPos := 0, wrAcc := 0, bwState := .open })
      { h with
        destinationCount := fun _ _ => by simp
        accumulatorLow := fun _ _ => Nat.one_pos
        fatalRecorded := fun ht => absurd (hf.symm.trans ht) nofun } 0
  · exact State.Inv.faultEntry (s := { s.afterDraws 1 with dst := Config.failedOpenDst s.ioDraws })
      { h with
        destinationCount := fun ho => absurd (hc.symm.trans ho) nofun
        accumulatorLow := fun ho => absurd (hc.symm.trans ho) nofun } _ _ _ (by decide)

/-- Whatever it answers, a BW_FINISH leaves the writer closed, and FATAL comes with its fault. -/
theorem finish_inv (h : s.Inv) (he : effect .bwFinish s = .next t) : t.Inv := by
  obtain ⟨v, u, hu, hf, rfl⟩ | ⟨info, u, hu, -, rfl⟩ := effect_bwFinish he
  · refine State.Inv.respond ?_ v
    have hc : u.bwState ≠ .open := by rw [hu.closed]; exact nofun
    rw [hu.frame]
    exact { h with
      destinationCount := fun ho => absurd ho hc
      accumulatorLow := fun ho => absurd ho hc
      fatalRecorded := fun ht => ⟨(h.fatalRecorded (hf.symm.trans ht)).1, hu.closed⟩ }
  · have hc : u.bwState ≠ .open := by rw [hu.closed]; exact nofun
    have hs := h.faultEntry (code := .finalizeFail) .bw 0 info (by decide)
    rw [hu.frame]
    exact { hs with
      destinationCount := fun ho => absurd ho hc
      accumulatorLow := fun ho => absurd ho hc
      fatalRecorded := fun _ => ⟨rfl, hu.closed⟩ }

/-- From a state that meets the invariant and passes the checks a command's effect leads to one that meets it. -/
theorem effect_inv {i : Instr} (h : s.Inv) (ha : Admitted i.op s) (he : effect i s = .next t) : t.Inv := by
  cases i with
  | brOpen => cases he; exact openSource_inv h
  | brSize => cases he; exact h.respond _
  | brReadBit => exact (readBit_inv ⟨h, ha.noFault rfl⟩).finish_inv (fun _ h => h.1.inv) he
  | brReadBits len =>
    obtain he | rfl := effect_brReadBits_cases he
    · exact (readBits_inv _ ⟨h, ha.noFault rfl⟩).finish_inv (fun _ h => h.inv) he
    · exact h.faultEntry _ _ _ (by decide)
  | brClose =>
    cases he
    exact State.Inv.respond (s := { s with brState := .closed }) { h with sourceLatched := nofun } 0
  | bwOpen => cases he; exact openDestination_inv h ha.alive ((firstUnmet_bwOpen s).mp ha.met)
  | bwWriteBit bit => exact (writeBit_inv ⟨h, ha.noFault rfl⟩ bit).finish_inv (fun _ h => h.1.inv) he
  | bwWriteBits byte len =>
    obtain he | rfl := effect_bwWriteBits_cases he
    · exact (writeBits_inv byte _ ⟨h, ha.noFault rfl⟩).finish_inv (fun _ h => h.inv) he
    · exact h.faultEntry _ _ _ (by decide)
  | bwFinish => exact finish_inv h he
  | wsBind =>
    cases he
    exact State.Inv.respond (s := { s with
        imgW := s.pixW, imgH := s.pixH, hdrLen := 0, xferCount := 0, xferRem := 0, xferIdx := 0, wsState := .idle })
      { h with imageLatched := fun _ => ⟨rfl, rfl⟩, remainderSmall := Nat.zero_le 6 } 0
  | wsReadWord addr =>
    obtain ⟨v, rfl⟩ | ⟨code, unit, sub, info, hc, rfl⟩ := effect_wsReadWord he
    · exact h.respond v
    · obtain ⟨hok, hr, hh, -⟩ := microFaults_ne hc
      exact h.faultEntry _ _ _ ⟨hok, hr, hh⟩
  | wsWriteWord addr word =>
    have hp : (writeWord addr.toNat word s).Post (fun _ u => s.Inv → u.Inv) (fun u => s.Inv → u.Inv) :=
      writeWord_keeps (D := fun s u => s.Inv → u.Inv) (E := fun s u => s.Inv → u.Inv)
        (fun x y f _ _ h => h.modifyPixel x y f)
        (fun _ _ _ h => h.faultEntry _ _ _ (by decide)) _ word s
    exact (hp.of_imp h).finish_inv (fun _ h => h) he
  | wsWriteStream =>
    have hw : s.wsState ≠ .unbound := by
      rw [((firstUnmet_wsWriteStream s).mp ha.met).1]; exact nofun
    obtain he | rfl := effect_wsWriteStream_cases he
    · exact (embed_inv _ _ ⟨⟨h, ha.noFault rfl⟩, hw⟩).finish_inv (fun _ h => h.live.inv) he
    · exact h.faultEntry _ _ _ (by decide)
  | wsReadStream =>
    have hw : s.wsState ≠ .unbound := by
      rw [((firstUnmet_wsReadStream s).mp ha.met).1]; exact nofun
    exact (extract_inv ⟨⟨h, ha.noFault rfl⟩, hw⟩).finish_inv (fun _ h => h.live.inv) he
  | wsIntoInner =>
    cases he
    exact State.Inv.respond (s := { s with wsState := .unbound })
      { h with imageLatched := fun hne => absurd rfl hne } 0

theorem exec_inv {i : Instr} (h : s.Inv) (he : exec i s = .next t) : t.Inv := by
  obtain hd | ⟨ha, he⟩ := exec_cases he
  · exact hd.inv h
  · exact effect_inv h ha he

/-! ## The host's moves -/

theorem illegalCommand_inv (h : s.Inv) : (illegalCommand s).Inv := by
  unfold illegalCommand
  split
  · exact h.answerOnly _
  · split
    · exact h.answerOnly _
    · exact h.faultEntry _ _ _ (by decide)

theorem hostReset_inv (h : s.Inv) : (hostReset s).Inv :=
  { resetMeetsTheInvariant with
    pixWf := h.pixWf
    srcWf := h.srcWf
    sourceLatched := nofun
    imageLatched := fun hne => absurd rfl hne
    destinationCount := nofun }

theorem setImage_inv {w h' : BitVec 32} {cells : List Host.Cell} (h : s.Inv)
    (he : setImage w h' cells s = .next t) : t.Inv := by
  unfold setImage at he
  split at he
  · next hu =>
    cases he
    exact { h with pixWf := Memory.ofCells_wf _ _, imageLatched := fun hne => absurd hu hne }
  · cases he

theorem setSource_inv {size : BitVec 64} {cells : List Host.Cell} (h : s.Inv)
    (he : setSource size cells s = .next t) : t.Inv := by
  unfold setSource at he
  split at he
  · next hc =>
    cases he
    exact { h with
      srcWf := Memory.ofCells_wf (fun a => a < size.toNat) cells
      sourceLatched := fun ho => absurd (hc.symm.trans ho) nofun }
  · cases he

theorem setDestination_inv {bytes : List Byte} (h : s.Inv)
    (he : setDestination bytes s = .next t) : t.Inv := by
  unfold setDestination at he
  split at he
  · next hc =>
    cases he
    exact { h with destinationCount := fun ho => absurd (hc.symm.trans ho) nofun }
  · cases he

theorem hostMove_inv {m : HostMove} (h : s.Inv) (he : hostMove m s = .next t) : t.Inv := by
  cases m with
  | command cmd arg =>
    have hl : (latch cmd arg s).Inv := { h with }
    simp only [hostMove, runCommand] at he
    split at he
    · exact exec_inv hl he
    · cases he; exact illegalCommand_inv hl
  | reset => cases he; exact hostReset_inv h
  | setImage w h' cells => exact setImage_inv h he
  | setSource size cells => exact setSource_inv h he
  | setDestination bytes => exact setDestination_inv h he

/-- Settles O60: the host's next move, whichever it is. -/
theorem everyStepKeepsTheInvariant : Obligations.EveryStepKeepsTheInvariant := by
  intro s t h he
  unfold step takeMove at he
  split at he
  · cases he; exact h
  · next m rest _ => exact hostMove_inv (s := { s with port := rest }) { h with } he

end Sys2Proof.Machine
end

section
/-! PROOFS. The high channel bits (20_memory.md R57): word access is the only way into PIX, and it replaces
the low bits of a channel. -/

namespace Sys2Proof.Machine

variable {s t u : State}

/-- red[7:3], green[7:2] and blue[7:2]: the channel bits that are never part of a word (20_memory.md R57). -/
def highBits (p : Pixel) : Nat × Nat × Nat := (p.r.toNat / 8, p.g.toNat / 4, p.b.toNat / 4)

/-- From s to t no high channel bit of any pixel changed. -/
def KeepsHigh (s t : State) : Prop := ∀ x y, highBits (pixRead x y t) = highBits (pixRead x y s)

@[simp] theorem highBits_unpack (p : Pixel) (w : PixWord) : highBits (unpack p w) = highBits p := by
  obtain ⟨hr, hg, hb⟩ := unpack_high p w
  simp only [highBits, hr, hg, hb]

theorem KeepsHigh.of_pix (h : t.pix = s.pix) : KeepsHigh s t := fun _ _ => by
  rw [pixRead, pixRead, h]

/-- A change of state whose frame holds PIX. -/
theorem KeepsHigh.of_frame (h : t = u) (hu : u.pix = s.pix) : KeepsHigh s t := .of_pix (h ▸ hu)

/-- The high bits are kept up to a fault and by its entry, so one relation describes both ends. -/
theorem carries_keepsHigh : Carries KeepsHigh KeepsHigh where
  refl := fun _ _ _ => rfl
  trans := fun h h' x y => (h' x y).trans (h x y)
  into := fun h h' x y => (h' x y).trans (h x y)

/-- A pixel read after a read-modify-write: the one addressed, with its new word, or another as it was. -/
theorem pixRead_modifyPixel (x y x' y' : Nat) (f : Pixel → PixWord) (s : State) :
    pixRead x' y' (modifyPixel x y f s) =
      if pixelAddr x' y' = pixelAddr x y then unpack (pixRead x y s) (f (pixRead x y s)) else pixRead x' y' s := by
  rw [pixRead, modifyPixel_pix]
  split
  · next h => rw [h, Memory.pixel_setPixel_same]
  · next h => rw [Memory.pixel_setPixel_apart _ _ _ _ (pixelAddr_apart h)]; rfl

/-- The read-modify-write of a word puts the high bits it read back (42_word_access.md R152, R154). -/
theorem modifyPixel_keepsHigh (x y : Nat) (f : Pixel → PixWord) (s : State) :
    KeepsHigh s (modifyPixel x y f s) := by
  intro x' y'
  rw [pixRead_modifyPixel]
  split
  · next h => rw [highBits_unpack, pixRead, pixRead, h]
  · rfl

/-! ## Micro-steps -/

theorem Reads.keepsHigh (h : Reads s u) : KeepsHigh s u := .of_frame h.frame rfl

theorem Faulted.keepsHigh {R : State → State → Prop} (h : Faulted R s t) (hR : ∀ u, R s u → KeepsHigh s u) :
    KeepsHigh s t := by
  obtain ⟨code, unit, sub, info, -, hu⟩ := h
  exact (hR _ hu :)

theorem readBit_keepsHigh (s : State) : (readBit s).Post (fun _ u => KeepsHigh s u) (KeepsHigh s) :=
  (readBit_reads s).mono (fun _ _ h => h.keepsHigh) fun _ h => h.keepsHigh fun _ => Reads.keepsHigh

theorem addrRange_keepsHigh (a : Nat) (sub : BitVec 2) (s : State) :
    KeepsHigh s (faultEntry .addrRange .ws sub a s) := .of_pix rfl

theorem writeWord_keepsHigh (a : Nat) (w : PixWord) (s : State) :
    (writeWord a w s).Post (fun _ u => KeepsHigh s u) (KeepsHigh s) :=
  writeWord_keeps (fun x y f s _ => modifyPixel_keepsHigh x y f s) addrRange_keepsHigh a w s

/-- Every pixel an embed writes, header, body and partial last word, goes through a read-modify-write
(43_stream.md R173, R174). -/
theorem embed_keepsHigh (h : BitVec 63) (n : Nat) (s : State) :
    (embed h n s).Post (fun _ u => KeepsHigh s u) (KeepsHigh s) :=
  carries_keepsHigh.embed readBit_keepsHigh (fun x y f s _ => modifyPixel_keepsHigh x y f s) addrRange_keepsHigh
    (fun _ _ => .of_pix rfl) (fun _ _ _ => .of_pix rfl) (fun _ => .of_pix rfl) h n s

/-- The answer leaves the pixels alone. -/
theorem Micro.Post.finish_keepsHigh {α : Type} {m : Micro α} {v : α → BitVec 64}
    (h : m.Post (fun _ u => KeepsHigh s u) (KeepsHigh s)) (ht : m.finish v = .next t) : KeepsHigh s t := by
  obtain ⟨_, u, hu, rfl⟩ | hf := h.finish ht
  · exact hu
  · exact hf

theorem effect_wsWriteStream_keepsHigh (h : effect .wsWriteStream s = .next t) : KeepsHigh s t := by
  obtain he | rfl := effect_wsWriteStream_cases h
  · exact (embed_keepsHigh _ _ s).finish_keepsHigh he
  · exact .of_pix rfl

/-! ## The commands -/

/-- How a command ends leaves the pixels alone. -/
theorem Ends.keepsHigh {R : State → State → Prop} (h : Ends R s t) (hR : ∀ u, R s u → KeepsHigh s u) :
    KeepsHigh s t := by
  cases h with
  | ok v hu => exact (hR _ hu :)
  | fault hf => exact hf.keepsHigh hR

/-- The two commands that write words keep the high channel bits by their read-modify-writes, the others
because PIX is in their frame. -/
theorem effect_keepsHigh {i : Instr} (h : effect i s = .next t) : KeepsHigh s t := by
  cases i with
  | wsWriteWord addr word => exact (writeWord_keepsHigh addr.toNat word s).finish_keepsHigh h
  | wsWriteStream => exact effect_wsWriteStream_keepsHigh h
  | brOpen => exact (effect_brOpen h).keepsHigh fun _ hu => .of_frame hu rfl
  | brReadBit => exact (effect_brReadBit h).keepsHigh fun _ => Reads.keepsHigh
  | brReadBits len => exact (effect_brReadBits h).keepsHigh fun _ => Reads.keepsHigh
  | bwOpen => exact (effect_bwOpen h).keepsHigh fun _ hu => .of_frame hu rfl
  | bwWriteBit bit => exact (effect_bwWriteBit h).keepsHigh fun _ hu => .of_frame hu.frame rfl
  | bwWriteBits byte len => exact (effect_bwWriteBits h).keepsHigh fun _ hu => .of_frame hu.frame rfl
  | bwFinish => exact .of_frame (finish_frame h).1 rfl
  | wsReadWord addr => exact .of_frame (effect_wsReadWord h).eq_frame rfl
  | wsReadStream => exact (effect_wsReadStream h).keepsHigh fun _ hu => .of_frame hu.frame rfl
  | brSize | brClose | wsBind | wsIntoInner => cases h; exact .of_pix rfl

/-- Settles O55: the common checks touch no pixel, and the effect of a command keeps the high bits, whatever
it answers. -/
theorem noCommandTouchesHighChannelBits : Obligations.NoCommandTouchesHighChannelBits := by
  intro i s t h _ x y _
  have hk : KeepsHigh s t := by
    obtain hd | ⟨-, he⟩ := exec_cases h
    · exact .of_frame hd.frame rfl
    · exact effect_keepsHigh he
  simpa only [highBits, Prod.mk.injEq] using hk x y

end Sys2Proof.Machine
end

section
/-! PROOFS. The encoding (30_encoding.md): a row of the opcode table matches a CMD exactly when the instruction
it reads there encodes to that CMD. -/

namespace Sys2Proof

/-! ## A CMD and its fields (R91) -/

theorem cmdWord_getLsbD (data : Byte) (len : BitVec 4) (opc : BitVec 8) (j : Nat) :
    (cmdWord data len opc).getLsbD j =
      if j < 8 then opc.getLsbD j else if j < 12 then len.getLsbD (j - 8)
      else if j < 16 then false else data.getLsbD (j - 16) := by
  simp only [cmdWord, BitVec.getLsbD_append]
  grind

theorem toNat_append_eq {m n : Nat} (x : BitVec m) (y : BitVec n) : (x ++ y).toNat = x.toNat * 2 ^ n + y.toNat := by
  rw [BitVec.toNat_append, ← Nat.shiftLeft_add_eq_or_of_lt y.isLt, Nat.shiftLeft_eq]

theorem cmdWord_toNat (data : Byte) (len : BitVec 4) (opc : BitVec 8) :
    (cmdWord data len opc).toNat = data.toNat * 2 ^ 16 + len.toNat * 2 ^ 8 + opc.toNat := by
  simp only [cmdWord, toNat_append_eq, BitVec.toNat_ofNat]
  omega

/-- Masking a CMD masks each of its fields. -/
theorem and_cmdWord (cmd : CmdWord) (data : Byte) (len : BitVec 4) (opc : BitVec 8) :
    cmd &&& cmdWord data len opc = cmdWord (dataOf cmd &&& data) (lenOf cmd &&& len) (opcOf cmd &&& opc) := by
  apply BitVec.eq_of_getLsbD_eq
  intro j hj
  simp only [cmdWord_getLsbD, dataOf, lenOf, opcOf, BitVec.getLsbD_and, BitVec.getLsbD_extractLsb']
  grind

/-- Comparing all but some DATA and LEN bits with an OPC alone: bits 7 to 0 are the OPC, and of the bits above
them only those left out are set. -/
theorem and_not_cmdWord_eq_iff (cmd : CmdWord) (data : Byte) (len : BitVec 4) (opc : BitVec 8) :
    cmd &&& ~~~cmdWord data len 0 = cmdWord 0 0 opc ↔
      opcOf cmd = opc ∧ cmd &&& ~~~cmdWord data len (BitVec.allOnes 8) = 0 := by
  simp only [BitVec.eq_of_getLsbD_eq_iff, opcOf, cmdWord_getLsbD, BitVec.getLsbD_and, BitVec.getLsbD_not,
    BitVec.getLsbD_extractLsb', BitVec.getLsbD_allOnes]
  grind

theorem cmdWord_or_opc (data : Byte) (len : BitVec 4) :
    cmdWord data len 0 ||| 0x000000FF#32 = cmdWord data len (BitVec.allOnes 8) := by
  rw [show 0x000000FF#32 = cmdWord 0 0 (BitVec.allOnes 8) from rfl]
  apply BitVec.eq_of_getLsbD_eq
  intro j hj
  simp only [cmdWord_getLsbD, BitVec.getLsbD_or]
  grind

theorem and_not_eq_zero_iff {w : Nat} {x m : BitVec w} : x &&& ~~~m = 0 ↔ x &&& m = x := by
  simp only [BitVec.eq_of_getLsbD_eq_iff, BitVec.getLsbD_and, BitVec.getLsbD_not]
  grind

/-! ## The rows of the opcode table (R92, R93) -/

/-- The DATA bits that are operand bits of a mnemonic. -/
def dataMask : Op → Byte
  | .bwWriteBit => 0x01
  | .bwWriteBits => 0xFF
  | .wsWriteWord => 0x7F
  | _ => 0

/-- The LEN bits that are operand bits of a mnemonic. -/
def lenMask : Op → BitVec 4
  | .brReadBits => 0xF
  | .bwWriteBits => 0xF
  | _ => 0

/-- A row compares all but the operand bits of its mnemonic, with OPC alone. -/
theorem opcodeTable_row : ∀ r ∈ opcodeTable,
    r.mask = ~~~cmdWord (dataMask r.op) (lenMask r.op) 0 ∧ r.pattern = cmdWord 0 0 (opcodeByte r.op) := by
  decide

/-- No two rows have the same OPC. -/
theorem opcodeTable_inj : ∀ r ∈ opcodeTable, ∀ r' ∈ opcodeTable,
    opcodeByte r.op = opcodeByte r'.op → r = r' := by
  decide

/-- Every mnemonic has a row. -/
theorem exists_row (op : Op) : ∃ r ∈ opcodeTable, r.op = op := by
  cases op <;> decide

variable {cmd : CmdWord} {arg : ArgWord} {i : Instr} {r r' : OpRow}

/-- A row matches a CMD with its OPC and no bit set beside the operand bits of its mnemonic. -/
theorem matches_iff (hr : r ∈ opcodeTable) : r.matches cmd = true ↔
    opcOf cmd = opcodeByte r.op ∧ cmd &&& ~~~cmdWord (dataMask r.op) (lenMask r.op) (BitVec.allOnes 8) = 0 := by
  obtain ⟨hmask, hpattern⟩ := opcodeTable_row r hr
  rw [OpRow.matches, beq_iff_eq, hmask, hpattern, and_not_cmdWord_eq_iff]

/-- Settles O3: a matching row has the OPC of the CMD, and no two rows have the same. -/
theorem atMostOneRowMatches : Obligations.AtMostOneRowMatches := by
  intro cmd r r' hr hr' hm hm'
  exact opcodeTable_inj r hr r' hr' (((matches_iff hr).mp hm).1.symm.trans ((matches_iff hr').mp hm').1)

/-! ## The decoder reads the row that matches (R97) -/

/-- What a CMD decodes to, whichever row matches it. -/
theorem decode_eq_ok_iff : decode cmd arg = .ok i ↔
    ∃ r ∈ opcodeTable, r.matches cmd = true ∧ assembleOperands cmd arg r.op = i := by
  unfold decode
  cases hf : opcodeTable.find? (·.matches cmd) with
  | none =>
    have hn := List.find?_eq_none.mp hf
    exact ⟨nofun, fun ⟨r, hr, hm, _⟩ => absurd hm (hn r hr)⟩
  | some q =>
    have hq := List.mem_of_find?_eq_some hf
    have hqm : q.matches cmd = true := List.find?_some (p := fun r : OpRow => r.matches cmd) hf
    constructor
    · exact fun h => ⟨q, hq, hqm, Except.ok.inj h⟩
    · rintro ⟨r, hr, hm, rfl⟩
      rw [atMostOneRowMatches cmd r q hr hq hm hqm]

theorem decodes_iff : (∃ i, decode cmd arg = .ok i) ↔ ∃ r ∈ opcodeTable, r.matches cmd = true := by
  simp only [decode_eq_ok_iff]
  exact ⟨fun ⟨_, r, hr, hm, _⟩ => ⟨r, hr, hm⟩, fun ⟨r, hr, hm⟩ => ⟨_, r, hr, hm, rfl⟩⟩

/-! ## Operands into fields and back (R93 to R96) -/

@[simp] theorem op_assembleOperands (cmd : CmdWord) (arg : ArgWord) (op : Op) :
    (assembleOperands cmd arg op).op = op := by
  cases op <;> rfl

/-- CMD[16] is the lowest bit of DATA (R95). -/
theorem setWidth_bitOf (cmd : CmdWord) : (BitVec.ofBool (bitOf cmd)).setWidth 8 = dataOf cmd &&& 1 := by
  apply BitVec.eq_of_getLsbD_eq
  intro j hj
  simp only [bitOf, dataOf, BitVec.getLsbD_setWidth, BitVec.getLsbD_ofBool, BitVec.getLsbD_and,
    BitVec.getLsbD_extractLsb']
  grind

/-- CMD[22:16] are the seven low bits of DATA (R95). -/
theorem setWidth_wordOf (cmd : CmdWord) : (wordOf cmd).setWidth 8 = dataOf cmd &&& 0x7F := by
  rw [show (0x7F : Byte) = (BitVec.allOnes 7).setWidth 8 from rfl]
  apply BitVec.eq_of_getLsbD_eq
  intro j hj
  simp only [wordOf, dataOf, BitVec.getLsbD_setWidth, BitVec.getLsbD_allOnes, BitVec.getLsbD_and,
    BitVec.getLsbD_extractLsb']
  grind

theorem encodeData_assembleOperands (cmd : CmdWord) (arg : ArgWord) (op : Op) :
    encodeData (assembleOperands cmd arg op) = dataOf cmd &&& dataMask op := by
  cases op
  case bwWriteBit => exact setWidth_bitOf cmd
  case bwWriteBits => exact BitVec.and_allOnes.symm
  case wsWriteWord => exact setWidth_wordOf cmd
  all_goals exact BitVec.and_zero.symm

theorem encodeLen_assembleOperands (cmd : CmdWord) (arg : ArgWord) (op : Op) :
    encodeLen (assembleOperands cmd arg op) = lenOf cmd &&& lenMask op := by
  cases op
  case brReadBits | bwWriteBits => exact BitVec.and_allOnes.symm
  all_goals exact BitVec.and_zero.symm

/-- The encoding of an instruction read from a CMD has its operand bits. -/
theorem encode_assembleOperands (cmd : CmdWord) (arg : ArgWord) (op : Op) :
    (encode (assembleOperands cmd arg op)).1 =
      cmdWord (dataOf cmd &&& dataMask op) (lenOf cmd &&& lenMask op) (opcodeByte op) := by
  rw [encode, encodeData_assembleOperands, encodeLen_assembleOperands, op_assembleOperands]

/-- Reading the operands back from the fields of the encoding. -/
theorem assembleOperands_encode (i : Instr) : assembleOperands (encode i).1 (encode i).2 i.op = i := by
  cases i with
  | brReadBits len => simp [assembleOperands, Instr.op, encode, encodeLen]
  | bwWriteBit bit => simp [assembleOperands, Instr.op, encode, encodeData]
  | bwWriteBits byte len => simp [assembleOperands, Instr.op, encode, encodeData, encodeLen]
  | wsWriteWord addr word => simp [assembleOperands, Instr.op, encode, encodeData, encodeArg]
  | _ => rfl

/-! ## Decode and encode -/

/-- A row matches a CMD exactly when the instruction it reads there encodes to that CMD. -/
theorem matches_iff_encode (hr : r ∈ opcodeTable) :
    r.matches cmd = true ↔ (encode (assembleOperands cmd arg r.op)).1 = cmd := by
  rw [matches_iff hr, and_not_eq_zero_iff, and_cmdWord, BitVec.and_allOnes, encode_assembleOperands]
  constructor
  · rintro ⟨hopc, hcmd⟩
    rwa [← hopc]
  · intro hcmd
    have hopc : opcOf cmd = opcodeByte r.op := by rw [← hcmd, opcOf_cmdWord]
    rw [hopc]
    exact ⟨rfl, hcmd⟩

/-- A CMD decodes to the instruction that the row of its mnemonic reads there, if that encodes to the CMD. -/
theorem decode_eq_ok_iff_encode : decode cmd arg = .ok i ↔
    assembleOperands cmd arg i.op = i ∧ (encode i).1 = cmd := by
  rw [decode_eq_ok_iff]
  constructor
  · rintro ⟨r, hr, hm, rfl⟩
    rw [op_assembleOperands]
    exact ⟨rfl, (matches_iff_encode hr).mp hm⟩
  · rintro ⟨hi, he⟩
    obtain ⟨r, hr, ho⟩ := exists_row i.op
    rw [← ho] at hi
    exact ⟨r, hr, (matches_iff_encode hr).mpr (hi.symm ▸ he), hi⟩

/-- Settles O1: the operands are read back from their fields. -/
theorem decodeOfEncodeIsTheInstruction : Obligations.DecodeOfEncodeIsTheInstruction := fun i =>
  decode_eq_ok_iff_encode.mpr ⟨assembleOperands_encode i, rfl⟩

/-- Settles O2: the row that matches compares every bit that the encoding does not take from an operand. -/
theorem decodedCmdIsTheEncoding : Obligations.DecodedCmdIsTheEncoding := fun _ _ _ h =>
  (decode_eq_ok_iff_encode.mp h).2

/-- Settles O4: the assigned list is the opcode table, each row as its OPC and the bits it does not compare. -/
theorem illegalExactlyInTheThreeCases : Obligations.IllegalExactlyInTheThreeCases := by
  unfold Obligations.IllegalExactlyInTheThreeCases
  intro assigned cmd arg
  have htable : assigned = opcodeTable.map fun r =>
      (opcodeByte r.op, cmdWord (dataMask r.op) (lenMask r.op) 0) := rfl
  rw [decodes_iff, htable]
  simp only [List.mem_map, exists_exists_and_eq_and, cmdWord_or_opc]
  exact exists_congr fun r => and_congr_right matches_iff

/-! ## ARG (R90) -/

/-- ARG is an operand of the two word commands only. -/
theorem assembleOperands_arg_irrel {op : Op} (hr : op ≠ .wsReadWord) (hw : op ≠ .wsWriteWord) (cmd : CmdWord)
    (arg arg' : ArgWord) : assembleOperands cmd arg' op = assembleOperands cmd arg op := by
  cases op
  case wsReadWord => exact absurd rfl hr
  case wsWriteWord => exact absurd rfl hw
  all_goals rfl

/-- Settles O5: the same row matches, and its operands are the same. -/
theorem argIsIgnoredByOtherCommands : Obligations.ArgIsIgnoredByOtherCommands := by
  intro cmd arg arg' i h hr hw
  obtain ⟨r, hmem, hm, rfl⟩ := decode_eq_ok_iff.mp h
  have hargs : assembleOperands cmd arg' r.op = assembleOperands cmd arg r.op :=
    assembleOperands_arg_irrel (fun ho => hr arg (by rw [ho]; rfl))
      (fun ho => hw arg (wordOf cmd) (by rw [ho]; rfl)) cmd arg arg'
  exact decode_eq_ok_iff.mpr ⟨r, hmem, hm, hargs⟩

/-! ## The encoding examples (R101) -/

/-- Settles O6: the legal words are the encodings of their commands; the illegal ones match no row. -/
theorem encodingExamplesDecode : Obligations.EncodingExamplesDecode := by
  refine ⟨decodeOfEncodeIsTheInstruction .brOpen, decodeOfEncodeIsTheInstruction (.brReadBits 7),
    decodeOfEncodeIsTheInstruction (.bwWriteBit true), decodeOfEncodeIsTheInstruction (.bwWriteBits 0xAB 8),
    decodeOfEncodeIsTheInstruction (.bwWriteBits 0x05 3), decodeOfEncodeIsTheInstruction (.wsReadWord 9),
    decodeOfEncodeIsTheInstruction (.wsWriteWord 10 0x7F), decodeOfEncodeIsTheInstruction .wsWriteStream,
    ?_, ?_, ?_, decodeOfEncodeIsTheInstruction (.brReadBits 0)⟩
  all_goals exact fun i h => absurd (decodes_iff.mp ⟨i, h⟩) (by decide)

/-! ## The assembler (R99) -/

/-- A transaction as numbers. -/
theorem encode_eq_ofNat {i : Instr} {n : Nat}
    (h : (encodeData i).toNat * 2 ^ 16 + (encodeLen i).toNat * 2 ^ 8 + (opcodeByte i.op).toNat = n) :
    encode i = (BitVec.ofNat 32 n, encodeArg i) := by
  rw [← h, ← cmdWord_toNat, BitVec.ofNat_toNat, BitVec.setWidth_eq]
  rfl

theorem assemble_eq_ite {a : Asm} {p : Prop} [Decidable p] {t : CmdWord × ArgWord} (hw : a.wellFormed = true ↔ p)
    (he : p → encode a.expand = t) : a.assemble = if p then some t else none := by
  unfold Asm.assemble
  by_cases hp : p
  · rw [if_pos (hw.mpr hp), if_pos hp, he hp]
  · rw [if_neg (mt hw.mp hp), if_neg hp]

/-- Settles O7: each format by the range of its operands and by the numbers that DATA and LEN hold in range. -/
theorem assemblerWritesTheOperandFields : Obligations.AssemblerWritesTheOperandFields := by
  refine ⟨fun len => ?_, fun bit => ?_, fun byte len => ?_, fun addr => ?_, fun addr word => ?_⟩
  · refine assemble_eq_ite decide_eq_true_iff fun h => encode_eq_ofNat ?_
    have hlen : (BitVec.ofNat 4 len).toNat = len := Nat.mod_eq_of_lt (by omega)
    simp [Asm.expand, encodeData, encodeLen, hlen, Instr.op, opcodeByte]
  · refine assemble_eq_ite decide_eq_true_iff fun h => encode_eq_ofNat ?_
    obtain rfl | rfl : bit = 0 ∨ bit = 1 := by omega
    · rfl
    · rfl
  · refine assemble_eq_ite (by simp [Asm.wellFormed, Asm.byteOk, Asm.lenOk]) fun h => encode_eq_ofNat ?_
    have hbyte : (BitVec.ofNat 8 byte).toNat = byte := Nat.mod_eq_of_lt (by omega)
    have hlen : (BitVec.ofNat 4 len).toNat = len := Nat.mod_eq_of_lt (by omega)
    simp [Asm.expand, encodeData, encodeLen, hbyte, hlen, Instr.op, opcodeByte]
  · refine assemble_eq_ite decide_eq_true_iff fun _ => encode_eq_ofNat ?_
    simp [Asm.expand, encodeData, encodeLen, Instr.op, opcodeByte]
  · refine assemble_eq_ite (by simp [Asm.wellFormed, Asm.addrOk, Asm.wordOk]) fun h => encode_eq_ofNat ?_
    have hword : ((BitVec.ofNat 7 word).setWidth 8).toNat = word := by
      rw [BitVec.toNat_setWidth, BitVec.toNat_ofNat]
      omega
    simp [Asm.expand, encodeData, encodeLen, hword, Instr.op, opcodeByte]

end Sys2Proof
end

section
/-! PROOFS. Group lengths (30_encoding.md R94). -/

namespace Sys2Proof.Machine

/-- A ready machine whose units are in the states required runs the command's own effect. -/
theorem exec_effect {i : Instr} {s : State} (hs : s.ready) (hu : firstUnmet i.op s = none) :
    exec i s = effect i s := by
  obtain ⟨hfatal, hclean⟩ := hs
  rw [exec_eq_withChecks, withChecks_pass _ hfatal (.inl hclean) hu]

theorem legalLen_false {len : BitVec 4} (h : len.toNat = 0 ∨ 9 ≤ len.toNat) : legalLen len = false := by
  rw [legalLen, Bool.and_eq_false_iff, decide_eq_false_iff_not, decide_eq_false_iff_not, Config.maxGroup]
  omega

/-- Settles O27: the length is checked before ReadBits and WriteBits. -/
theorem illegalGroupLengthRaisesContract : Obligations.IllegalGroupLengthRaisesContract := by
  intro s len byte hs hlen
  have hl := legalLen_false hlen
  refine ⟨fun hbr => ?_, fun hbw => ?_⟩
  · rw [exec_effect (i := .brReadBits len) hs ((firstUnmet_brReadBits s).mpr hbr), effect, hl]; rfl
  · rw [exec_effect (i := .bwWriteBits byte len) hs ((firstUnmet_bwWriteBits s).mpr hbw), effect, hl]; rfl

end Sys2Proof.Machine
end

section
/-! PROOFS. The bit reader (40_bit_reader.md): open, size and close, the two reads with their faults, and any
sequence of reads. -/

namespace Sys2Proof.Machine

variable {s : State}

/-! ## Open, size and close -/

theorem openSource_ok (ha : s.ioAnswer 0 = true) : openSource s =
    respond 0 { s.afterDraws 1 with srcSize := s.srcLen, rdPos := 0, brState := .open } := by
  simp [openSource, ha]

theorem openSource_fail (ha : s.ioAnswer 0 = false) :
    openSource s = faultEntry .ioError .br subOpen 0 (s.afterDraws 1) := by
  simp [openSource, ha]

/-- Settles O22: BR_OPEN past its checks is `openSource`, with either answer of the port. -/
theorem brOpenBindsTheSource : Obligations.BrOpenBindsTheSource := by
  intro s hs hb
  rw [exec_effect (i := .brOpen) hs ((firstUnmet_brOpen s).mpr hb), effect]
  refine ⟨fun ha => ?_, fun ha => ?_⟩
  · rw [openSource_ok ha]; rfl
  · rw [openSource_fail ha]; rfl

/-- Settles O23: BR_SIZE past its checks is a response. -/
theorem brSizeAnswersTheLatchedSize : Obligations.BrSizeAnswersTheLatchedSize :=
  fun s hs hb => exec_effect (i := .brSize) hs ((firstUnmet_brSize s).mpr hb)

/-- Settles O28: BR_CLOSE is a cleanup command, so its checks pass with or without a recorded fault. -/
theorem brCloseEndsTheReader : Obligations.BrCloseEndsTheReader := by
  intro s hf hb
  rw [exec_eq_withChecks]
  exact withChecks_pass _ hf (.inr rfl) ((firstUnmet_brClose s).mpr hb)

/-! ## The two reads -/

theorem exec_brReadBit (hs : s.ready) (hb : s.brState = .open) :
    exec .brReadBit s = (readBit s).finish fun bit => (BitVec.ofBool bit).setWidth 64 :=
  exec_effect hs ((firstUnmet_brReadBit s).mpr hb)

theorem legalLen_true {len : BitVec 4} (h1 : 1 ≤ len.toNat) (h8 : len.toNat ≤ 8) : legalLen len = true := by
  simp [legalLen, Config.maxGroup, h1, h8]

theorem exec_brReadBits {len : BitVec 4} (hs : s.ready) (hb : s.brState = .open) (h1 : 1 ≤ len.toNat)
    (h8 : len.toNat ≤ 8) :
    exec (.brReadBits len) s = (readBits len.toNat s).finish fun v => v.setWidth 64 := by
  rw [exec_effect (i := .brReadBits len) hs ((firstUnmet_brReadBits s).mpr hb), effect,
    if_pos (legalLen_true h1 h8)]

/-- A single bit read inside the file whose port answers. -/
theorem exec_brReadBit_ok (hs : s.ready) (hb : s.brState = .open)
    (hlt : s.rdPos.toNat < 8 * s.srcSize.toNat) (ha : s.ioAnswer 0 = true) :
    exec .brReadBit s =
      .next (respond ((BitVec.ofBool (srcBit s s.rdPos.toNat)).setWidth 64) (s.consumed 1)) := by
  rw [exec_brReadBit hs hb, readBit_ok hlt ha, Micro.finish_done]

/-- A group read inside the file whose ports answer. -/
theorem exec_brReadBits_ok {len : BitVec 4} (hs : s.ready) (hb : s.brState = .open) (h1 : 1 ≤ len.toNat)
    (h8 : len.toNat ≤ 8) (hend : s.rdPos.toNat + len.toNat ≤ 8 * s.srcSize.toNat)
    (hp : s.portsAnswer len.toNat) :
    ∃ v : BitVec 64, exec (.brReadBits len) s = .next (respond v (s.consumed len.toNat)) ∧
      ∀ j, v.getLsbD j = (decide (j < len.toNat) && srcBit s (s.rdPos.toNat + j)) := by
  obtain ⟨v, hv, hbits⟩ := readBits_ok h8 hend hp
  refine ⟨v.setWidth 64, by rw [exec_brReadBits hs hb h1 h8, hv, Micro.finish_done], fun j => ?_⟩
  rw [BitVec.getLsbD_setWidth, hbits j]
  by_cases hj : j < len.toNat
  · have : j < 64 := by omega
    simp [this]
  · simp [hj]

/-- Settles O25: the value of a completed group, as `readBits_ok` gives it. -/
theorem brReadBitsReadsTheGroup : Obligations.BrReadBitsReadsTheGroup :=
  fun _ _ hs hb h1 h8 hend hp => exec_brReadBits_ok hs hb h1 h8 hend hp

/-- Settles O24: the three cases of ReadBit. -/
theorem brReadBitReadsTheBitAtRdPos : Obligations.BrReadBitReadsTheBitAtRdPos := by
  intro s hs hb
  refine ⟨fun hlt ha => ?_, fun hge => ?_, fun hlt ha => ?_⟩
  · rw [exec_brReadBit_ok hs hb hlt ha]
    cases srcBit s s.rdPos.toNat <;> rfl
  · rw [exec_brReadBit hs hb, readBit_eof hge]; rfl
  · rw [exec_brReadBit hs hb, readBit_fail hlt ha]; rfl

/-! ## A group that faults on its way -/

/-- A group whose bit k faults ends in that bit's fault entry. -/
theorem exec_brReadBits_ended {t : State} {len : BitVec 4} {k : Nat} (hs : s.ready) (hb : s.brState = .open)
    (h8 : len.toNat ≤ 8) (hk : k < len.toNat) (hend : s.rdPos.toNat + k ≤ 8 * s.srcSize.toNat)
    (hp : s.portsAnswer k) (ht : readBit (s.consumed k) = .ended t) :
    exec (.brReadBits len) s = .next t := by
  rw [exec_brReadBits hs hb (by omega) h8, readBits_ended h8 hk hend hp ht, Micro.finish_ended]

/-- One more answer drawn after n bits were consumed. -/
theorem consumed_afterDraws (s : State) (n m : Nat) : (s.consumed n).afterDraws m =
    { s.afterDraws (n + m) with rdPos := BitVec.ofNat 67 (s.rdPos.toNat + n) } := by
  rw [← afterDraws_afterDraws]
  rfl

/-- Settles O26: bit k is read at RD_POS + k, with the answer k, after k bits were consumed. -/
theorem brReadBitsFaultsAtTheFirstBadBit : Obligations.BrReadBitsFaultsAtTheFirstBadBit := by
  intro s len k hs hb h8 hk hp
  have hsize : (s.consumed k).srcSize = s.srcSize := rfl
  refine ⟨fun heof => ?_, fun hlt ha => ?_⟩
  · have hpos : (s.consumed k).rdPos.toNat = s.rdPos.toNat + k := consumed_rdPos heof.le
    have hbit := readBit_eof (s := s.consumed k) (by rw [hpos, hsize]; exact heof.ge)
    rw [exec_brReadBits_ended hs hb h8 hk heof.le hp hbit, hpos]
    rfl
  · have hpos : (s.consumed k).rdPos.toNat = s.rdPos.toNat + k := consumed_rdPos hlt.le
    have hbit := readBit_fail (s := s.consumed k) (by rw [hpos, hsize]; exact hlt)
      ((afterDraws_ioAnswer s k 0).trans ha)
    rw [exec_brReadBits_ended hs hb h8 hk hlt.le hp hbit, hpos, consumed_afterDraws]
    rfl

/-! ## Sequences of reads (40_bit_reader.md R118) -/

/-- A BR_READ_BIT, or a BR_READ_BITS of a legal length. -/
def IsRead (i : Instr) : Prop :=
  i = .brReadBit ∨ ∃ len : BitVec 4, i = .brReadBits len ∧ 1 ≤ len.toNat ∧ len.toNat ≤ 8

/-- A read inside the file whose ports answer returns the next `bitsRead i` source bits. -/
theorem exec_read_ok {i : Instr} (hi : IsRead i) (hs : s.ready) (hb : s.brState = .open)
    (hend : s.rdPos.toNat + bitsRead i ≤ 8 * s.srcSize.toNat) (hp : s.portsAnswer (bitsRead i)) :
    ∃ v : BitVec 64, exec i s = .next (respond v (s.consumed (bitsRead i))) ∧
      ∀ j, v.getLsbD j = (decide (j < bitsRead i) && srcBit s (s.rdPos.toNat + j)) := by
  obtain rfl | ⟨len, rfl, h1, h8⟩ := hi
  · refine ⟨_, exec_brReadBit_ok hs hb hend (hp 0 Nat.one_pos), fun j => ?_⟩
    cases j <;> simp [bitsRead]
  · exact exec_brReadBits_ok hs hb h1 h8 hend hp

theorem runResults_cons {i : Instr} {t : State} (is : List Instr) (h : exec i s = .next t) :
    runResults (i :: is) s = (runResults is t).map fun (vs, u) => (t.result :: vs, u) := by
  simp only [runResults, h]

/-- Settles O29, by induction on the list: a read leaves an open reader at the position where the reads after it
begin. -/
theorem groupsReadInSequenceFollowTheSource : Obligations.GroupsReadInSequenceFollowTheSource := by
  intro reads
  induction reads with
  | nil => exact fun s _ _ _ _ _ => ⟨[], s, rfl, rfl, rfl, by simp⟩
  | cons i is ih =>
    intro s hs hb hreads hend hp
    simp only [List.map_cons, List.sum_cons] at hend hp ⊢
    obtain ⟨v, hv, hbits⟩ := exec_read_ok (hreads i List.mem_cons_self) hs hb (by omega)
      (portsAnswer_mono hp (Nat.le_add_right _ _))
    have hpos : (respond v (s.consumed (bitsRead i))).rdPos.toNat = s.rdPos.toNat + bitsRead i :=
      consumed_rdPos (by omega)
    obtain ⟨vs, t, hrun, hlen, htpos, hvs⟩ := ih (respond v (s.consumed (bitsRead i))) hs hb
      (fun i' hi' => hreads i' (List.mem_cons_of_mem _ hi')) (by rw [hpos, Nat.add_assoc]; exact hend)
      (portsAnswer_afterDraws hp)
    refine ⟨v :: vs, t, by rw [runResults_cons is hv, hrun]; rfl, congrArg (· + 1) hlen,
      by rw [htpos, hpos, Nat.add_assoc], fun k w i' hw hi' j => ?_⟩
    cases k with
    | zero =>
      cases hw
      cases hi'
      exact hbits j
    | succ k =>
      rw [hvs k w i' hw hi' j, hpos]
      simp only [List.take_succ_cons, List.map_cons, List.sum_cons, Nat.add_assoc]
      rfl

end Sys2Proof.Machine
end

section
/-! PROOFS. The bit writer (41_bit_writer.md): open, single bits and groups with a flush that succeeds or fails,
finalization, and any sequence of writes, read back through the bit reader. -/

namespace Sys2Proof.Machine

variable {s : State}

/-! ## Open -/

theorem openDestination_ok (ha : s.ioAnswer 0 = true) : openDestination s =
    respond 0 { s.afterDraws 1 with dst := [], wrPos := 0, wrAcc := 0, bwState := .open } := by
  simp [openDestination, ha]

theorem openDestination_fail (ha : s.ioAnswer 0 = false) : openDestination s =
    faultEntry .ioError .bw subOpen 0 { s.afterDraws 1 with dst := Config.failedOpenDst s.ioDraws } := by
  simp [openDestination, ha]

/-- Settles O30: BW_OPEN past its checks is `openDestination`, with either answer of the port. -/
theorem bwOpenTruncatesTheDestination : Obligations.BwOpenTruncatesTheDestination := by
  intro s hs hb
  rw [exec_effect (i := .bwOpen) hs ((firstUnmet_bwOpen s).mpr hb), effect]
  refine ⟨fun ha => ?_, fun ha => ⟨Config.failedOpenDst s.ioDraws, ?_⟩⟩
  · rw [openDestination_ok ha]; rfl
  · rw [openDestination_fail ha]; rfl

/-! ## A single bit -/

theorem exec_bwWriteBit (bit : Bool) (hs : s.ready) (hb : s.bwState = .open) :
    exec (.bwWriteBit bit) s = (writeBit bit s).finish fun _ => 0 :=
  exec_effect hs ((firstUnmet_bwWriteBit s).mpr hb)

theorem bitAt_eq_ofNat (bit : Bool) (k : Nat) : bitAt bit k = BitVec.ofNat 8 (bit.toNat * 2 ^ k) := by
  apply BitVec.eq_of_toNat_eq
  cases bit <;> simp [bitAt, Nat.shiftLeft_eq]

theorem wrPos_add_one (s : State) : s.wrPos + 1 = BitVec.ofNat 67 (s.wrPos.toNat + 1) := by
  apply BitVec.eq_of_toNat_eq
  simp [BitVec.toNat_add]

/-- Settles O31: inside a byte the bit is accumulated; the last bit of a byte flushes it. -/
theorem bwWriteBitAccumulatesAndFlushes : Obligations.BwWriteBitAccumulatesAndFlushes := by
  intro s bit hs hb hlt acc pos
  have hacc : accumulate bit s = { s with wrAcc := acc, wrPos := pos } := by
    rw [accumulate, bitAt_eq_ofNat, wrPos_add_one]
  rw [exec_bwWriteBit bit hs hb]
  refine ⟨fun h7 => ?_, fun h7 ha => ?_, fun h7 ha => ?_⟩
  · rw [writeBit_inside bit h7, hacc]; rfl
  · rw [writeBit_full bit h7 hlt, flush_ok (s := accumulate bit s) ha, hacc]; rfl
  · rw [writeBit_full bit h7 hlt, flush_fail (s := accumulate bit s) ha, accumulate_pos bit hlt, hacc]; rfl

/-! ## Finalization -/

theorem finalize_aligned (h : s.wrPos.toNat % 8 = 0) :
    finalize s = .done () { s with bwState := .closed } := by
  rw [finalize, if_pos h, Micro.andThen_done]

theorem finalize_ok (h : s.wrPos.toNat % 8 ≠ 0) (ha : s.ioAnswer 0 = true) : finalize s =
    .done () { s.afterDraws 1 with dst := s.dst ++ [s.wrAcc], wrAcc := 0, bwState := .closed } := by
  rw [finalize, if_neg h, finishFlush, dstAppend_ok s.wrAcc ha, Micro.andThen_done]

theorem finalize_fail (h : s.wrPos.toNat % 8 ≠ 0) (ha : s.ioAnswer 0 = false) : finalize s =
    .ended (faultEntry .finalizeFail .bw 0 s.wrPos.toNat
      { s.afterDraws 1 with bwState := .closed, fatal := true }) := by
  rw [finalize, if_neg h, finishFlush, dstAppend_fail s.wrAcc ha]; rfl

/-- BW_FINISH is a cleanup command, so its checks pass with or without a recorded fault. -/
theorem exec_bwFinish (hf : s.fatal = false) (hb : s.bwState = .open) (hl : s.wrPos.toNat < 2 ^ 67 - 7) :
    exec .bwFinish s = (finalize s).finish fun _ => BitVec.ofNat 64 ((s.wrPos.toNat + 7) / 8) := by
  have hbytes : bytesWritten s.wrPos < 2 ^ 64 := by rw [bytesWritten]; omega
  rw [exec_eq_withChecks]
  refine (withChecks_pass _ hf (.inr rfl) ((firstUnmet_bwFinish s).mpr hb)).trans ?_
  rw [effect, if_pos hbytes]; rfl

/-- Settles O33: the three ways a finalization ends. -/
theorem bwFinishFlushesOrFailsForGood : Obligations.BwFinishFlushesOrFailsForGood := by
  intro s hf hb hl
  rw [exec_bwFinish hf hb hl]
  refine ⟨fun h0 => ?_, fun h0 ha => ?_, fun h0 ha => ?_⟩
  · rw [finalize_aligned h0]; rfl
  · rw [finalize_ok h0 ha]; rfl
  · rw [finalize_fail h0 ha]; rfl

/-! ## A group, from any contents of WR_ACC -/

theorem exec_bwWriteBits (byte : Byte) {len : BitVec 4} (hs : s.ready) (hb : s.bwState = .open)
    (h1 : 1 ≤ len.toNat) (h8 : len.toNat ≤ 8) :
    exec (.bwWriteBits byte len) s = (writeBits byte len.toNat s).finish fun _ => 0 := by
  rw [exec_effect (i := .bwWriteBits byte len) hs ((firstUnmet_bwWriteBits s).mpr hb), effect,
    if_pos (legalLen_true h1 h8)]

/-- WR_ACC and WR_POS after the bits of a list that ends inside the byte or fills it. -/
def accumulateAll (bits : List Bool) (s : State) : State :=
  bits.foldl (fun t b => accumulate b t) s

theorem accumulateAll_cons (b : Bool) (bs : List Bool) (s : State) :
    accumulateAll (b :: bs) s = accumulateAll bs (accumulate b s) := rfl

theorem accumulateAll_concat (bs : List Bool) (b : Bool) (s : State) :
    accumulateAll (bs ++ [b]) s = accumulate b (accumulateAll bs s) := by
  simp [accumulateAll]

theorem accumulateAll_eq (bits : List Bool) (s : State) : accumulateAll bits s =
    { s with
      wrAcc := (accumulateAll bits s).wrAcc
      wrPos := BitVec.ofNat 67 (s.wrPos.toNat + bits.length) } := by
  induction bits using List.reverseRecOn with
  | nil => simp [accumulateAll]
  | append_singleton bs b ih =>
    have hpos : (accumulateAll bs s).wrPos + 1 = BitVec.ofNat 67 (s.wrPos.toNat + (bs ++ [b]).length) := by
      rw [congrArg State.wrPos ih, List.length_append, List.length_singleton, ← Nat.add_assoc]
      exact (BitVec.ofNat_add _ 1).symm
    rw [accumulateAll_concat, accumulate, hpos, ih]

theorem accumulateAll_pos {bits : List Bool} (h : s.wrPos.toNat + bits.length < 2 ^ 67) :
    (accumulateAll bits s).wrPos.toNat = s.wrPos.toNat + bits.length := by
  rw [accumulateAll_eq]
  exact BitVec.toNat_ofNat .. ▸ Nat.mod_eq_of_lt h

/-- The bits stand in WR_ACC from the write position on. -/
theorem accumulateAll_getLsbD (bits : List Bool) (hin : s.wrPos.toNat % 8 + bits.length ≤ 8)
    (hlt : s.wrPos.toNat + bits.length < 2 ^ 67) (j : Nat) :
    (accumulateAll bits s).wrAcc.getLsbD j = (s.wrAcc.getLsbD j ||
      (decide (s.wrPos.toNat % 8 ≤ j) && bits.getD (j - s.wrPos.toNat % 8) false)) := by
  induction bits using List.reverseRecOn with
  | nil => simp [accumulateAll]
  | append_singleton bs b ih =>
    rw [List.length_append, List.length_singleton] at hin hlt
    have hpos : (accumulateAll bs s).wrPos.toNat % 8 = s.wrPos.toNat % 8 + bs.length := by
      rw [accumulateAll_pos (by omega)]; omega
    rw [accumulateAll_concat, accumulate_bit, ih (by omega) (by omega), hpos, Bool.or_assoc]
    congr 1
    by_cases hoff : s.wrPos.toNat % 8 ≤ j
    · obtain ⟨i, rfl⟩ := Nat.exists_eq_add_of_le hoff
      rcases Nat.lt_trichotomy i bs.length with h | rfl | h
      · simp [List.getElem?_append_left h, h.ne]
      · simp
      · simp [List.getElem?_eq_none, h.le, Nat.succ_le_of_lt h, h.ne']
    · have : j ≠ s.wrPos.toNat % 8 + bs.length := by omega
      simp [hoff, this]

theorem writeAll_singleton (b : Bool) (s : State) : writeAll [b] s = writeBit b s := by
  rw [writeAll]
  cases writeBit b s <;> rfl

/-- Bits that do not complete the byte are only accumulated (41_bit_writer.md R131). -/
theorem writeAll_inside (bits : List Bool) : ∀ s : State, s.wrPos.toNat % 8 + bits.length < 8 →
    s.wrPos.toNat + bits.length < 2 ^ 67 → writeAll bits s = .done () (accumulateAll bits s) := by
  induction bits with
  | nil => exact fun _ _ _ => rfl
  | cons b bs ih =>
    intro s hin hlt
    rw [List.length_cons] at hin hlt
    have hpos := accumulate_pos (s := s) b (by omega)
    rw [writeAll, writeBit_inside b (by omega), Micro.andThen_done, accumulateAll_cons,
      ih (accumulate b s) (by omega) (by omega)]

/-- Bits that just fill the byte are accumulated, and the last one flushes it (41_bit_writer.md R131). -/
theorem writeAll_full {bits : List Bool} (hin : s.wrPos.toNat % 8 + bits.length = 8)
    (hlt : s.wrPos.toNat + bits.length < 2 ^ 67) : writeAll bits s = flush (accumulateAll bits s) := by
  obtain rfl | ⟨bs, b, rfl⟩ := List.eq_nil_or_concat' bits
  · rw [List.length_nil] at hin; omega
  · rw [List.length_append, List.length_singleton] at hin hlt
    have hpos := accumulateAll_pos (s := s) (bits := bs) (by omega)
    rw [writeAll_append, writeAll_inside bs s (by omega) (by omega), Micro.andThen_done, writeAll_singleton,
      writeBit_full b (by omega) (by omega), accumulateAll_concat]

/-- The number whose low eight bits are WR_ACC after `len` bits of a byte: they stand at `off`, above the bits
of WR_ACC (41_bit_writer.md R132). -/
def groupValue (acc byte : Byte) (off len : Nat) : Nat :=
  acc.toNat ||| (byte.toNat % 2 ^ len) * 2 ^ off

theorem groupValue_testBit (acc byte : Byte) (off len j : Nat) : (groupValue acc byte off len).testBit j =
    (acc.getLsbD j || (decide (off ≤ j) && (decide (j - off < len) && byte.getLsbD (j - off)))) := by
  rw [groupValue, Nat.testBit_or, Nat.testBit_mul_two_pow, Nat.testBit_mod_two_pow]
  rfl

/-- A group, or the part of it that fills the byte: the low eight bits of its value. -/
theorem accumulateAll_low (byte : Byte) {n len : Nat} (hn : n ≤ len) (hin : s.wrPos.toNat % 8 + n ≤ 8)
    (hfull : n = len ∨ s.wrPos.toNat % 8 + n = 8) (hlt : s.wrPos.toNat + n < 2 ^ 67) :
    accumulateAll (byteBits n 0 byte) s =
      { s with
        wrAcc := BitVec.ofNat 8 (groupValue s.wrAcc byte (s.wrPos.toNat % 8) len)
        wrPos := BitVec.ofNat 67 (s.wrPos.toNat + n) } := by
  have hacc : (accumulateAll (byteBits n 0 byte) s).wrAcc =
      BitVec.ofNat 8 (groupValue s.wrAcc byte (s.wrPos.toNat % 8) len) := by
    apply BitVec.eq_of_getLsbD_eq
    intro j hj
    rw [accumulateAll_getLsbD _ (by rwa [byteBits_length]) (by rwa [byteBits_length]), byteBits_getD,
      BitVec.getLsbD_ofNat, groupValue_testBit, Nat.zero_add]
    have hiff : s.wrPos.toNat % 8 ≤ j → (j - s.wrPos.toNat % 8 < n ↔ j - s.wrPos.toNat % 8 < len) := by omega
    by_cases hoff : s.wrPos.toNat % 8 ≤ j
    · simp [hj, hiff hoff]
    · simp [hj, hoff]
  rw [accumulateAll_eq, hacc, byteBits_length]

/-- The rest of a group that began at `pos`, once its first bits filled a byte: the bits of its value above the
eighth. -/
theorem writeBitsFrom_rest (acc byte : Byte) {pos len : Nat} (h8 : len ≤ 8) (hge : 8 ≤ pos % 8 + len)
    (hlt : pos + len < 2 ^ 67) (hz : s.wrAcc = 0) (hpos : s.wrPos.toNat = pos + (8 - pos % 8)) :
    writeBitsFrom (pos % 8 + len - 8) (8 - pos % 8) byte s = .done ()
      { s with
        wrAcc := BitVec.ofNat 8 (groupValue acc byte (pos % 8) len / 2 ^ 8)
        wrPos := BitVec.ofNat 67 (pos + len) } := by
  have h0 : s.wrPos.toNat % 8 = 0 := by omega
  have hend : s.wrPos.toNat + (pos % 8 + len - 8) = pos + len := by omega
  have hn := byteBits_length (pos % 8 + len - 8) (8 - pos % 8) byte
  have hacc : (accumulateAll (byteBits (pos % 8 + len - 8) (8 - pos % 8) byte) s).wrAcc =
      BitVec.ofNat 8 (groupValue acc byte (pos % 8) len / 2 ^ 8) := by
    apply BitVec.eq_of_getLsbD_eq
    intro j hj
    rw [accumulateAll_getLsbD _ (by omega) (by omega), byteBits_getD, BitVec.getLsbD_ofNat,
      Nat.testBit_div_two_pow, groupValue_testBit, hz, h0]
    have hidx : 8 - pos % 8 + j = j + 8 - pos % 8 := by omega
    have hiff : j < pos % 8 + len - 8 ↔ j + 8 - pos % 8 < len := by omega
    have hle : pos % 8 ≤ j + 8 := by omega
    simp [hj, hidx, hiff, hle]
  rw [writeBitsFrom_eq_writeAll, writeAll_inside _ s (by omega) (by omega), accumulateAll_eq, hacc, hn, hend]

/-- A group that ends inside the byte. -/
theorem writeBits_inside (byte : Byte) {len : Nat} (hin : s.wrPos.toNat % 8 + len < 8)
    (hlt : s.wrPos.toNat + len < 2 ^ 67) : writeBits byte len s = .done ()
      { s with
        wrAcc := BitVec.ofNat 8 (groupValue s.wrAcc byte (s.wrPos.toNat % 8) len)
        wrPos := BitVec.ofNat 67 (s.wrPos.toNat + len) } := by
  rw [writeBits, writeBitsFrom_eq_writeAll, writeAll_inside _ s (by rwa [byteBits_length]) (by rwa [byteBits_length]),
    accumulateAll_low byte le_rfl hin.le (.inl rfl) hlt]

/-- A group that fills the byte flushes it, and goes on with the bits left. -/
theorem writeBits_fills (byte : Byte) {len : Nat} (hge : 8 ≤ s.wrPos.toNat % 8 + len)
    (hlt : s.wrPos.toNat + len < 2 ^ 67) : writeBits byte len s =
      (flush { s with
        wrAcc := BitVec.ofNat 8 (groupValue s.wrAcc byte (s.wrPos.toNat % 8) len)
        wrPos := BitVec.ofNat 67 (s.wrPos.toNat + (8 - s.wrPos.toNat % 8)) }).andThen fun _ t =>
          writeBitsFrom (s.wrPos.toNat % 8 + len - 8) (8 - s.wrPos.toNat % 8) byte t := by
  have hoff : s.wrPos.toNat % 8 < 8 := Nat.mod_lt _ (by omega)
  have hlen := byteBits_length (8 - s.wrPos.toNat % 8) 0 byte
  have hsplit : len = 8 - s.wrPos.toNat % 8 + (s.wrPos.toNat % 8 + len - 8) := by omega
  calc writeBits byte len s
    _ = (writeBitsFrom (8 - s.wrPos.toNat % 8) 0 byte s).andThen fun _ t =>
          writeBitsFrom (s.wrPos.toNat % 8 + len - 8) (8 - s.wrPos.toNat % 8) byte t := by
        rw [writeBits, hsplit, writeBitsFrom_add, ← hsplit, Nat.zero_add]
    _ = _ := by
        rw [writeBitsFrom_eq_writeAll, writeAll_full (by omega) (by omega),
          accumulateAll_low byte (len := len) (by omega) (by omega) (.inr (by omega)) (by omega)]

/-- Settles O32: a group that stays inside the byte is accumulated; one that does not fills the byte with its
first bits, which the last of them flushes, and the rest go into the empty WR_ACC. -/
theorem bwWriteBitsAppendsTheCompletedByte : Obligations.BwWriteBitsAppendsTheCompletedByte := by
  intro s byte len hs hb h1 h8 hlt off all
  rw [exec_bwWriteBits byte hs hb h1 h8]
  have hfill (hge : 8 ≤ s.wrPos.toNat % 8 + len.toNat) :
      (BitVec.ofNat 67 (s.wrPos.toNat + (8 - s.wrPos.toNat % 8))).toNat =
        s.wrPos.toNat + (8 - s.wrPos.toNat % 8) :=
    (BitVec.toNat_ofNat ..).trans (Nat.mod_eq_of_lt (by omega))
  refine ⟨fun hin => ?_, fun hge ha => ?_, fun hge ha => ?_⟩
  · rw [writeBits_inside byte hin hlt]; rfl
  · rw [writeBits_fills byte hge hlt, flush_ok (by exact ha), Micro.andThen_done,
      writeBitsFrom_rest s.wrAcc byte h8 hge hlt rfl (by exact hfill hge)]
    rfl
  · rw [writeBits_fills byte hge hlt, flush_fail (by exact ha), Micro.andThen_ended, hfill hge]
    rfl

end Sys2Proof.Machine
end

section
/-! PROOFS. Any sequence of writes (41_bit_writer.md R137), and the same groups read back (R138). -/

namespace Sys2Proof.Machine

variable {s t : State} {bits : List Bool}

/-! ## The bits of a sequence of writes -/

/-- A BW_WRITE_BIT, or a BW_WRITE_BITS of a legal length. -/
def IsWrite (i : Instr) : Prop :=
  (∃ bit, i = .bwWriteBit bit) ∨ ∃ byte len, i = .bwWriteBits byte len ∧ 1 ≤ len.toNat ∧ len.toNat ≤ 8

theorem bitsWritten_bwWriteBits (byte : Byte) (len : BitVec 4) :
    bitsWritten (.bwWriteBits byte len) = byteBits len.toNat 0 byte := by
  rw [bitsWritten, byteBits, List.range_eq_range']

/-- A write command writes its bits one after the other. -/
theorem exec_write {i : Instr} (hi : IsWrite i) (hs : s.ready) (hb : s.bwState = .open) :
    exec i s = (writeAll (bitsWritten i) s).finish fun _ => 0 := by
  obtain ⟨bit, rfl⟩ | ⟨byte, len, rfl, h1, h8⟩ := hi
  · rw [exec_bwWriteBit bit hs hb, ← writeAll_singleton]; rfl
  · rw [exec_bwWriteBits byte hs hb h1 h8, writeBits, writeBitsFrom_eq_writeAll, bitsWritten_bwWriteBits]

/-- From s to t the bits of a list were written and every append answered; t takes the next write. -/
structure WroteBits (s t : State) (bits : List Bool) (new : List Byte) : Prop where
  streamed : Streamed s t bits.length (fun p => bits.getD p false) new
  fatal : t.fatal = s.fatal
  fltValid : t.fltValid = s.fltValid
  bwState : t.bwState = s.bwState
  answers : ∀ k, t.ioAnswer k = s.ioAnswer ((s.wrPos.toNat % 8 + bits.length) / 8 + k)

variable {new new' : List Byte}

theorem WroteBits.none (hacc : s.wrAcc.toNat < 2 ^ (s.wrPos.toNat % 8)) : WroteBits s s [] [] where
  streamed := .none hacc
  fatal := rfl
  fltValid := rfl
  bwState := rfl
  answers k := by rw [List.length_nil, show (s.wrPos.toNat % 8 + 0) / 8 + k = k by omega]

theorem WroteBits.append {u : State} {bits' : List Bool} (h : WroteBits s t bits new)
    (h' : WroteBits t u bits' new') : WroteBits s u (bits ++ bits') (new ++ new') where
  streamed := by
    rw [List.length_append]
    refine (h.streamed.append h'.streamed).ext fun p _ => ?_
    split
    · next hp => exact (List.getD_append _ _ _ _ hp).symm
    · next hp => exact (List.getD_append_right _ _ _ _ (Nat.le_of_not_lt hp)).symm
  fatal := h'.fatal.trans h.fatal
  fltValid := h'.fltValid.trans h.fltValid
  bwState := h'.bwState.trans h.bwState
  answers k := by
    have hpos := h.streamed.position
    rw [h'.answers, h.answers, List.length_append]
    congr 1
    omega

theorem WroteBits.ready (h : WroteBits s t bits new) (hs : s.ready) : t.ready :=
  ⟨h.fatal.trans hs.1, h.fltValid.trans hs.2⟩

theorem WroteBits.low (h : WroteBits s t bits new) : t.wrAcc.toNat < 2 ^ (t.wrPos.toNat % 8) := by
  rw [h.streamed.position]
  exact h.streamed.low

/-- The answers for the bits written and n more leave those for the n to come. -/
theorem WroteBits.portsAnswer {n : Nat} (h : WroteBits s t bits new)
    (hp : s.portsAnswer ((s.wrPos.toNat % 8 + (bits.length + n)) / 8)) :
    t.portsAnswer ((t.wrPos.toNat % 8 + n) / 8) := by
  intro k hk
  have hpos := h.streamed.position
  rw [h.answers]
  exact hp _ (by omega)

/-- A write command whose appends answer (41_bit_writer.md R134, R135). -/
theorem exec_write_ok {i : Instr} (hi : IsWrite i) (hs : s.ready) (hb : s.bwState = .open)
    (hacc : s.wrAcc.toNat < 2 ^ (s.wrPos.toNat % 8)) (hlt : s.wrPos.toNat + (bitsWritten i).length < 2 ^ 67)
    (hp : s.portsAnswer ((s.wrPos.toNat % 8 + (bitsWritten i).length) / 8)) :
    ∃ t new, exec i s = .next t ∧ WroteBits s t (bitsWritten i) new := by
  obtain ⟨new, acc, hw, hcount, hlow, hbits⟩ := writeAll_ok (bitsWritten i) s hacc hlt hp
  refine ⟨_, new, by rw [exec_write hi hs hb, hw, Micro.finish_done], ?_⟩
  exact
    { streamed :=
        { appended := rfl
          count := hcount
          position := (BitVec.toNat_ofNat ..).trans (Nat.mod_eq_of_lt hlt)
          low := hlow
          bits := fun p _ => hbits p }
      fatal := rfl
      fltValid := rfl
      bwState := rfl
      answers := afterDraws_ioAnswer s _ }

/-- Writes one after the other write all their bits. -/
theorem runAll_writes (writes : List Instr) : ∀ s : State, (∀ i ∈ writes, IsWrite i) → s.ready →
    s.bwState = .open → s.wrAcc.toNat < 2 ^ (s.wrPos.toNat % 8) →
    s.wrPos.toNat + (writes.flatMap bitsWritten).length < 2 ^ 67 →
    s.portsAnswer ((s.wrPos.toNat % 8 + (writes.flatMap bitsWritten).length) / 8) →
    ∃ t new, runAll writes s = .next t ∧ WroteBits s t (writes.flatMap bitsWritten) new := by
  induction writes with
  | nil => exact fun s _ _ _ hacc _ _ => ⟨s, [], rfl, .none hacc⟩
  | cons i is ih =>
    intro s hi hs hb hacc hlt hp
    rw [List.flatMap_cons, List.length_append] at hlt hp
    obtain ⟨t, new, ht, hwrote⟩ := exec_write_ok (hi i List.mem_cons_self) hs hb hacc (by omega)
      (portsAnswer_mono hp (by omega))
    obtain ⟨u, new', hu, hwrote'⟩ := ih t (fun j hj => hi j (List.mem_cons_of_mem _ hj)) (hwrote.ready hs)
      (hwrote.bwState.trans hb) hwrote.low (by rw [hwrote.streamed.position]; omega) (hwrote.portsAnswer hp)
    exact ⟨u, new ++ new', by rw [runAll, ht]; exact hu, hwrote.append hwrote'⟩

/-! ## Finalization after a sequence of writes -/

theorem runAll_append_next {is js : List Instr} (h : runAll is s = .next t) :
    runAll (is ++ js) s = runAll js t := by
  induction is generalizing s with
  | nil => cases h; rfl
  | cons i is ih =>
    rw [List.cons_append, runAll]
    rw [runAll] at h
    cases hi : exec i s with
    | next u => rw [hi] at h; exact ih h
    | fault r => rw [hi] at h; cases h
    | refused r => rw [hi] at h; cases h

theorem dstBit_append_zero (bytes : List Byte) (p : Nat) : dstBit (bytes ++ [0]) p = dstBit bytes p := by
  rw [dstBit_append]
  split
  · rfl
  · have : bytes.length ≤ p / 8 := by omega
    simp [dstBit, this]

/-- From the first bit position, the appended bytes and WR_ACC hold the bits written, zero above. -/
theorem Streamed.dstBit_fresh (h : Streamed s t bits.length (fun p => bits.getD p false) new)
    (h0 : s.wrPos = 0) (p : Nat) : dstBit (new ++ [t.wrAcc]) p = bits.getD p false := by
  have hz : s.wrPos.toNat = 0 := by rw [h0]; rfl
  have hbits := h.bits p
  have hcount := h.count
  have hlow := h.low
  rw [hz] at hbits hcount hlow
  by_cases hp : p < bits.length
  · simpa using hbits (by omega)
  · rw [dstBit_append, if_neg (by omega), dstBit_single, getLsbD_of_lt hlow (by omega),
      List.getD_eq_default _ _ (by omega)]

/-- Finalization after k bits from the first position: `ceil(k/8)` bytes (41_bit_writer.md R136, R137). -/
theorem exec_bwFinish_fresh (h : WroteBits s t bits new) (hs : s.ready) (hb : s.bwState = .open)
    (h0 : s.wrPos = 0) (hdst : s.dst = []) (hlt : bits.length < 2 ^ 67 - 7)
    (hp : s.portsAnswer ((bits.length + 7) / 8)) :
    ∃ u, exec .bwFinish t = .next u ∧ u.rspCode = .ok ∧
      u.result = BitVec.ofNat 64 ((bits.length + 7) / 8) ∧ u.dst.length = (bits.length + 7) / 8 ∧
      ∀ p, dstBit u.dst p = bits.getD p false := by
  have hpos : t.wrPos.toNat = bits.length := by simp [h.streamed.position, h0]
  have hnew : t.dst = new := by rw [h.streamed.appended, hdst, List.nil_append]
  have hcount : new.length = bits.length / 8 := by simp [h.streamed.count, h0]
  have hans : t.ioAnswer 0 = s.ioAnswer (bits.length / 8) := by simp [h.answers, h0]
  have hbits := h.streamed.dstBit_fresh h0
  rw [exec_bwFinish (h.ready hs).1 (h.bwState.trans hb) (by rwa [hpos])]
  by_cases haligned : t.wrPos.toNat % 8 = 0
  · have hacc : t.wrAcc = 0 := by
      have := h.low
      rw [haligned] at this
      exact BitVec.eq_of_toNat_eq (Nat.lt_one_iff.mp this)
    rw [finalize_aligned haligned, Micro.finish_done, hpos]
    refine ⟨_, rfl, rfl, rfl, ?_, fun p => ?_⟩
    · show t.dst.length = _
      rw [hnew]; omega
    · show dstBit t.dst p = _
      rw [hnew, ← hbits, hacc, dstBit_append_zero]
  · have ha : t.ioAnswer 0 = true := hans.trans (hp _ (by omega))
    rw [finalize_ok haligned ha, Micro.finish_done, hpos]
    refine ⟨_, rfl, rfl, rfl, ?_, fun p => ?_⟩
    · show (t.dst ++ [t.wrAcc]).length = _
      rw [hnew, List.length_append, List.length_singleton]; omega
    · show dstBit (t.dst ++ [t.wrAcc]) p = _
      rw [hnew, hbits]

/-- Settles O34: the writes leave their bits in DST and WR_ACC, and the finalization appends what is left. -/
theorem writerFlushLaw : Obligations.WriterFlushLaw := by
  intro writes s hs hb h0 hacc hdst hi
  dsimp only
  intro hlt hp
  have hz : s.wrPos.toNat = 0 := by rw [h0]; rfl
  obtain ⟨t, new, ht, hwrote⟩ := runAll_writes writes s hi hs hb (by rw [hacc, hz]; decide) (by omega)
    (portsAnswer_mono hp (by omega))
  obtain ⟨u, hu, hu'⟩ := exec_bwFinish_fresh hwrote hs hb h0 hdst hlt hp
  exact ⟨u, by rw [runAll_append_next ht]; simp only [runAll, hu], hu'⟩

/-! ## Written and read back -/

/-- Piece k of a list laid out piece by piece. -/
theorem getD_flatMap {α : Type} (f : α → List Bool) (xs : List α) : ∀ {k j : Nat} (hk : k < xs.length),
    j < (f xs[k]).length →
    (xs.flatMap f).getD (((xs.map fun x => (f x).length).take k).sum + j) false = (f xs[k]).getD j false := by
  induction xs with
  | nil => exact fun hk => absurd hk (Nat.not_lt_zero _)
  | cons x xs ih =>
    intro k j hk hj
    rw [List.flatMap_cons, List.map_cons]
    cases k with
    | zero =>
      rw [List.take_zero, List.sum_nil, Nat.zero_add]
      exact List.getD_append _ _ _ _ hj
    | succ k =>
      rw [List.take_succ_cons, List.sum_cons, Nat.add_assoc, List.getD_append_right _ _ _ _ (Nat.le_add_right _ _),
        Nat.add_sub_cancel_left]
      exact ih (Nat.lt_of_succ_lt_succ hk) hj

/-- A source that holds the bytes of a file has its bits. -/
theorem srcBit_eq_dstBit {u : State} {bytes : List Byte} {p : Nat}
    (hsrc : ∀ i < bytes.length, Memory.read u.src i = bytes.getD i 0) (hp : p < 8 * bytes.length) :
    srcBit u p = dstBit bytes p := by
  rw [srcBit, dstBit, hsrc _ (by omega)]

/-- The bits of a list of groups, each group's low bits in order. -/
def groupBits (groups : List (Byte × BitVec 4)) : List Bool :=
  groups.flatMap fun g => byteBits g.2.toNat 0 g.1

/-- The sizes of a list of groups. -/
def groupSizes (groups : List (Byte × BitVec 4)) : List Nat := groups.map fun g => g.2.toNat

variable {groups : List (Byte × BitVec 4)}

theorem groupBits_length (groups : List (Byte × BitVec 4)) :
    (groupBits groups).length = (groupSizes groups).sum := by
  simp [groupBits, groupSizes, List.length_flatMap, byteBits_length]

theorem groupSizes_take_add_le {k : Nat} (hk : k < groups.length) :
    ((groupSizes groups).take k).sum + groups[k].2.toNat ≤ (groupSizes groups).sum := by
  have hk' : k < (groupSizes groups).length := by rwa [groupSizes, List.length_map]
  have hsum := (List.take_sublist (k + 1) (groupSizes groups)).sum_le_sum (fun _ _ => Nat.zero_le _)
  rw [List.sum_take_succ _ _ hk'] at hsum
  simpa [groupSizes] using hsum

theorem groupBits_getD {k j : Nat} (hk : k < groups.length) (hj : j < groups[k].2.toNat) :
    (groupBits groups).getD (((groupSizes groups).take k).sum + j) false = groups[k].1.getLsbD j := by
  have h := getD_flatMap (fun g : Byte × BitVec 4 => byteBits g.2.toNat 0 g.1) groups hk (j := j)
    (by rwa [byteBits_length])
  simp only [byteBits_length, byteBits_getD, hj, decide_true, Bool.true_and, Nat.zero_add] at h
  exact h

/-- Writing the groups writes their bits. -/
theorem bitsWritten_groups (groups : List (Byte × BitVec 4)) :
    (groups.map fun g => Instr.bwWriteBits g.1 g.2).flatMap bitsWritten = groupBits groups := by
  simp only [List.flatMap_map, bitsWritten_bwWriteBits, groupBits]

/-- Reading the groups' sizes from a source that begins with the groups' bits returns the groups' low bits. -/
theorem runResults_groups {u : State} (hlen : ∀ g ∈ groups, 1 ≤ g.2.toNat ∧ g.2.toNat ≤ 8) (hu : u.ready)
    (hb : u.brState = .open) (h0 : u.rdPos.toNat = 0) (hend : (groupSizes groups).sum ≤ 8 * u.srcSize.toNat)
    (hp : u.portsAnswer (groupSizes groups).sum)
    (hsrc : ∀ p < (groupSizes groups).sum, srcBit u p = (groupBits groups).getD p false) :
    ∃ v, runResults (groups.map fun g => Instr.brReadBits g.2) u =
      some (groups.map fun g => BitVec.ofNat 64 (g.1.toNat % 2 ^ g.2.toNat), v) := by
  have hreads : ∀ i ∈ groups.map fun g => Instr.brReadBits g.2, IsRead i := by
    intro i hi
    obtain ⟨g, hg, rfl⟩ := List.mem_map.mp hi
    exact .inr ⟨g.2, rfl, hlen g hg⟩
  have hsizes : (groups.map fun g => Instr.brReadBits g.2).map bitsRead = groupSizes groups := List.map_map ..
  obtain ⟨vs, v, hrun, hcount, -, hvs⟩ := groupsReadInSequenceFollowTheSource _ u hu hb hreads
    (by rwa [hsizes, h0, Nat.zero_add]) (by rwa [hsizes])
  rw [List.length_map] at hcount
  have hvalues : vs = groups.map fun g => BitVec.ofNat 64 (g.1.toNat % 2 ^ g.2.toNat) := by
    refine List.ext_getElem (by rw [hcount, List.length_map]) fun k hk _ => BitVec.eq_of_getLsbD_eq fun j hj => ?_
    have hk' : k < groups.length := hcount ▸ hk
    have hgroup : (groups.map fun g => Instr.brReadBits g.2)[k]? = some (.brReadBits groups[k].2) := by
      simp [hk']
    rw [hvs k vs[k] _ (List.getElem?_eq_getElem hk) hgroup, h0, Nat.zero_add, List.map_take, hsizes,
      List.getElem_map, BitVec.getLsbD_ofNat, Nat.testBit_mod_two_pow, decide_eq_true hj, Bool.true_and]
    by_cases hjl : j < groups[k].2.toNat
    · rw [bitsRead, hsrc _ (by have := groupSizes_take_add_le hk'; omega), groupBits_getD hk' hjl]
      rfl
    · simp [bitsRead, hjl]
  exact ⟨v, hvalues ▸ hrun⟩

/-- Settles O35: the written file holds the groups' bits in order (the flush law), and reading the same sizes takes
them in the same order. -/
theorem readerWriterDuality : Obligations.ReaderWriterDuality := by
  intro groups s hs hb h0 hacc hdst hlen h8 hlt hp
  have hwrites : ∀ i ∈ groups.map fun g => Instr.bwWriteBits g.1 g.2, IsWrite i := by
    intro i hi
    obtain ⟨g, hg, rfl⟩ := List.mem_map.mp hi
    exact .inr ⟨g.1, g.2, rfl, hlen g hg⟩
  have hlaw := writerFlushLaw _ s hs hb h0 hacc hdst hwrites
  dsimp only at hlaw
  rw [bitsWritten_groups, groupBits_length] at hlaw
  obtain ⟨t, ht, hok, -, hcount, hbits⟩ := hlaw hlt (portsAnswer_mono hp (show _ ≤ _ by rw [groupSizes]; omega))
  have hbytes : (groupSizes groups).sum = 8 * t.dst.length := by rw [hcount, groupSizes]; omega
  refine ⟨t, ht, hok, fun u hu hbr hr0 hsize hsrc hup => ?_⟩
  refine runResults_groups hlen hu hbr (by rw [hr0]; rfl) (by rw [hsize, hbytes]) hup fun p hlt => ?_
  rw [srcBit_eq_dstBit hsrc (by omega), hbits]

end Sys2Proof.Machine
end

section
/-! PROOFS. Word access (42_word_access.md): the address mapping, the word layout of a pixel, and the four
commands. -/

namespace Sys2Proof.Machine

/-! ## The word layout as numbers (42_word_access.md R151, R152, R160) -/

theorem pack_toNat (p : Pixel) :
    (pack p).toNat = p.r.toNat % 8 * 16 + p.g.toNat % 4 * 4 + p.b.toNat % 4 := by
  simp only [pack, toNat_append_eq, BitVec.extractLsb'_toNat, Nat.shiftRight_eq_div_pow]
  omega

theorem unpack_r_toNat (p : Pixel) (w : PixWord) :
    (unpack p w).r.toNat = p.r.toNat / 8 * 8 + w.toNat / 16 := by
  simp only [unpack, toNat_append_eq, BitVec.extractLsb'_toNat, Nat.shiftRight_eq_div_pow]
  omega

theorem unpack_g_toNat (p : Pixel) (w : PixWord) :
    (unpack p w).g.toNat = p.g.toNat / 4 * 4 + w.toNat / 4 % 4 := by
  simp only [unpack, toNat_append_eq, BitVec.extractLsb'_toNat, Nat.shiftRight_eq_div_pow]
  omega

theorem unpack_b_toNat (p : Pixel) (w : PixWord) :
    (unpack p w).b.toNat = p.b.toNat / 4 * 4 + w.toNat % 4 := by
  simp only [unpack, toNat_append_eq, BitVec.extractLsb'_toNat, Nat.shiftRight_eq_div_pow]
  omega

/-- Storing the word a pixel already carries (42_word_access.md R160 a). -/
theorem unpack_pack (p : Pixel) : unpack p (pack p) = p := by
  have hr : (unpack p (pack p)).r = p.r := BitVec.eq_of_toNat_eq (by rw [unpack_r_toNat, pack_toNat]; omega)
  have hg : (unpack p (pack p)).g = p.g := BitVec.eq_of_toNat_eq (by rw [unpack_g_toNat, pack_toNat]; omega)
  have hb : (unpack p (pack p)).b = p.b := BitVec.eq_of_toNat_eq (by rw [unpack_b_toNat, pack_toNat]; omega)
  exact congr (congrArg₂ Pixel.mk hr hg) hb

/-- Storing the pixel that is already there changes no byte. -/
theorem Memory.read_setPixel_pixel (m : Memory) (a b : Nat) :
    Memory.read (Memory.setPixel m a (Memory.pixel m a)) b = Memory.read m b := by
  simp only [Memory.setPixel, Memory.pixel, Memory.read_write]
  split_ifs with hb hg hr
  · rw [hb]
  · rw [hg]
  · rw [hr]
  · rfl

/-! ## The four commands on their own effect -/

variable {s : State}

theorem exec_wsReadWord (addr : ArgWord) (hs : s.ready) (hb : s.wsState ≠ .unbound) :
    exec (.wsReadWord addr) s = (readWord addr.toNat s).finish fun w => w.setWidth 64 :=
  exec_effect hs ((firstUnmet_wsReadWord s).mpr hb)

theorem exec_wsWriteWord (addr : ArgWord) (word : PixWord) (hs : s.ready) (hb : s.wsState ≠ .unbound) :
    exec (.wsWriteWord addr word) s = (writeWord addr.toNat word s).finish fun _ => 0 :=
  exec_effect hs ((firstUnmet_wsWriteWord s).mpr hb)

/-- WS_READ_WORD of an address that reaches a pixel (42_word_access.md R157). -/
theorem exec_wsReadWord_ok {addr : ArgWord} (hs : s.ready) (hb : s.wsState ≠ .unbound)
    (hr : s.reaches addr.toNat) :
    exec (.wsReadWord addr) s = .next (respond ((wordAt s addr.toNat).setWidth 64) s) := by
  rw [exec_wsReadWord addr hs hb, readWord_ok hr, Micro.finish_done]

/-- The state after the word w is stored in the pixel that the word address a selects (42_word_access.md R154). -/
def State.storeWord (s : State) (a : Nat) (w : PixWord) : State :=
  { s with pix := Memory.setPixel s.pix (cellOf s a) (unpack (pixelAt s a) w) }

@[simp] theorem storeWord_pix (a : Nat) (w : PixWord) : (s.storeWord a w).pix =
    Memory.setPixel s.pix (cellOf s a) (unpack (pixelAt s a) w) := rfl

/-- WS_WRITE_WORD of an address that reaches a pixel (42_word_access.md R158). -/
theorem exec_wsWriteWord_ok {addr : ArgWord} (word : PixWord) (hs : s.ready) (hb : s.wsState ≠ .unbound)
    (hr : s.reaches addr.toNat) :
    exec (.wsWriteWord addr word) s = .next (respond 0 (s.storeWord addr.toNat word)) := by
  rw [exec_wsWriteWord addr word hs hb, writeWord_ok word hr, Micro.finish_done, State.storeWord]

/-- Either access ends where the mapping of its address ends in fault entry (42_word_access.md R153, R154). -/
theorem exec_wordAccess_ended {i : Instr} {addr : ArgWord} {t : State} (hs : s.ready)
    (hb : s.wsState ≠ .unbound) (hi : i = .wsReadWord addr ∨ ∃ word, i = .wsWriteWord addr word)
    (h : mapAddr addr.toNat s = .ended t) : exec i s = .next t := by
  obtain rfl | ⟨word, rfl⟩ := hi
  · rw [exec_wsReadWord addr hs hb, readWord_ended h, Micro.finish_ended]
  · rw [exec_wsWriteWord addr word hs hb, writeWord_ended word h, Micro.finish_ended]

theorem reaches_of_lt {a : Nat} (hw : s.imgW ≠ 0) (ha : a < s.imgH.toNat * s.imgH.toNat) : s.reaches a :=
  ⟨fun h => hw (BitVec.eq_of_toNat_eq h), ha⟩

/-- Settles O36: WS_BIND past its checks is its effect. -/
theorem wsBindWrapsTheImage : Obligations.WsBindWrapsTheImage :=
  fun s hs hb => exec_effect (i := .wsBind) hs ((firstUnmet_wsBind s).mpr hb)

/-- Settles O37: the word read, as a number. -/
theorem wsReadWordPacksThePixel : Obligations.WsReadWordPacksThePixel := by
  intro s addr hs hb hw ha p
  have hword : (wordAt s addr.toNat).setWidth 64 =
      BitVec.ofNat 64 (p.r.toNat % 8 * 16 + p.g.toNat % 4 * 4 + p.b.toNat % 4) := by
    rw [← pack_toNat, BitVec.ofNat_toNat]
    rfl
  rw [exec_wsReadWord_ok hs hb (reaches_of_lt hw ha), hword]
  rfl

/-- Settles O38: the pixel read back is the old one with the word unpacked into it, and no other cell is
stored. -/
theorem wsWriteWordReplacesTheWordBits : Obligations.WsWriteWordReplacesTheWordBits := by
  intro s addr word hs hb hw ha x y p
  refine ⟨_, exec_wsWriteWord_ok word hs hb (reaches_of_lt hw ha), rfl, ?_⟩
  simp only [pixRead, respond_pix, storeWord_pix]
  rw [show pixelAddr x y = cellOf s addr.toNat from rfl, Memory.pixel_setPixel_same]
  exact ⟨unpack_r_toNat p word, unpack_g_toNat p word, unpack_b_toNat p word,
    fun a h => Memory.read_setPixel_outside _ _ _ _ h⟩

/-- Settles O39: the mapping faults before a pixel is touched. -/
theorem wordAddressOutsideTheGridFaults : Obligations.WordAddressOutsideTheGridFaults :=
  fun _ _ _ hs hb hi =>
    ⟨fun h => exec_wordAccess_ended hs hb hi (mapAddr_empty h),
      fun hw hh h => exec_wordAccess_ended hs hb hi (mapAddr_row hw hh h)⟩

/-- Settles O40: WS_INTO_INNER is a cleanup command, so its checks pass with or without a recorded fault. -/
theorem wsIntoInnerReturnsTheImage : Obligations.WsIntoInnerReturnsTheImage := by
  intro s hf hb
  rw [exec_eq_withChecks]
  exact withChecks_pass _ hf (.inr rfl) ((firstUnmet_wsIntoInner s).mpr hb)

/-! ## The mapping (42_word_access.md R150, R155) -/

/-- An address that is mapped to a pixel reaches it, and mapping changes nothing. -/
theorem mapAddr_done {a : Nat} {xy : Nat × Nat} {t : State} (h : mapAddr a s = .done xy t) :
    s.reaches a ∧ xy = (a % s.imgW.toNat, a / s.imgH.toNat) ∧ t = s := by
  obtain ⟨hr, hm⟩ | ⟨-, sub, hm⟩ := mapAddr_cases a s <;> rw [hm] at h
  · cases h
    exact ⟨hr, rfl, rfl⟩
  · cases h

/-- R155 (a): the addresses that are mapped to a pixel. -/
theorem mapped_iff_reaches {a : Nat} : (∃ x y t, mapAddr a s = .done (x, y) t) ↔ s.reaches a :=
  ⟨fun ⟨_, _, _, h⟩ => (mapAddr_done h).1, fun h => ⟨_, _, _, mapAddr_ok h⟩⟩

theorem mapAddr_eq_iff {a b : Nat} (ha : s.reaches a) (hb : s.reaches b) :
    mapAddr a s = mapAddr b s ↔ s.samePixel a b := by
  rw [mapAddr_ok ha, mapAddr_ok hb]
  simp [State.samePixel]

theorem State.samePixel.cellOf_eq {a b : Nat} (h : s.samePixel a b) : cellOf s a = cellOf s b := by
  obtain ⟨hx, hy⟩ := h
  rw [cellOf, hx, hy, cellOf]

theorem samePixel_of_mapAddr {a b : Nat} {xy : Nat × Nat} {t u : State} (ha : mapAddr a s = .done xy t)
    (hb : mapAddr b s = .done xy u) : s.samePixel a b := by
  obtain ⟨-, hxa, -⟩ := mapAddr_done ha
  obtain ⟨-, hxb, -⟩ := mapAddr_done hb
  exact Prod.mk.inj (hxa.symm.trans hxb)

/-- The pixel of a mapped address lies in the grid. -/
theorem mapAddr_in_grid {a x y : Nat} {t : State} (h : mapAddr a s = .done (x, y) t) :
    x < s.imgW.toNat ∧ y < s.imgH.toNat ∧ t = s := by
  obtain ⟨⟨hw, ha⟩, hxy, ht⟩ := mapAddr_done h
  obtain ⟨rfl, rfl⟩ := Prod.mk.inj hxy
  exact ⟨Nat.mod_lt _ (Nat.pos_of_ne_zero hw), Nat.div_lt_of_lt_mul ha, ht⟩

/-- The k-th address of row block y is mapped to row y, at column (y·H + k) mod W. -/
theorem mapAddr_rowBlock {y k : Nat} (hw : s.imgW.toNat ≠ 0) (hy : y < s.imgH.toNat) (hk : k < s.imgH.toNat) :
    mapAddr (y * s.imgH.toNat + k) s = .done ((y * s.imgH.toNat + k) % s.imgW.toNat, y) s := by
  have hrow : (y * s.imgH.toNat + k) / s.imgH.toNat = y := by
    rw [Nat.mul_comm, Nat.mul_add_div (by omega), Nat.div_eq_of_lt hk, Nat.add_zero]
  have hlt : y * s.imgH.toNat + k < s.imgH.toNat * s.imgH.toNat := by
    rw [← Nat.div_lt_iff_lt_mul (by omega), hrow]
    exact hy
  rw [mapAddr_ok ⟨hw, hlt⟩, hrow]

/-- R155 (c): the pixels of row y that are reached. -/
theorem mapped_iff_in_rowBlock {x y : Nat} (hw : s.imgW.toNat ≠ 0) (hy : y < s.imgH.toNat) :
    (∃ a, mapAddr a s = .done (x, y) s) ↔ ∃ k < s.imgH.toNat, x = (y * s.imgH.toNat + k) % s.imgW.toNat := by
  constructor
  · rintro ⟨a, h⟩
    obtain ⟨-, hxy, -⟩ := mapAddr_done h
    obtain ⟨rfl, rfl⟩ := Prod.mk.inj hxy
    exact ⟨a % s.imgH.toNat, Nat.mod_lt _ (Nat.zero_lt_of_lt hy), by rw [Nat.div_add_mod']⟩
  · rintro ⟨k, hk, rfl⟩
    exact ⟨_, mapAddr_rowBlock hw hy hk⟩

/-- R155 (d): on a grid higher than wide, addresses W apart in one row block alias. -/
theorem mapAddr_add_width {a y : Nat} (hw : s.imgW.toNat ≠ 0) (hy : y < s.imgH.toNat)
    (hlo : y * s.imgH.toNat ≤ a) (hhi : a + s.imgW.toNat < y * s.imgH.toNat + s.imgH.toNat) :
    mapAddr (a + s.imgW.toNat) s = mapAddr a s := by
  obtain ⟨k, rfl⟩ := Nat.exists_eq_add_of_le hlo
  rw [Nat.add_assoc, mapAddr_rowBlock hw hy (by omega), mapAddr_rowBlock hw hy (by omega), ← Nat.add_assoc,
    Nat.add_mod_right]

/-- R155 (b): on a square grid the mapping is row-major. -/
theorem mapAddr_square (h : s.imgW.toNat = s.imgH.toNat) {a : Nat} (ha : a < s.imgW.toNat * s.imgH.toNat) :
    mapAddr a s = .done (a % s.imgW.toNat, a / s.imgW.toNat) s := by
  have hw : s.imgW.toNat ≠ 0 := fun h0 => by simp [h0] at ha
  rw [h] at ha
  rw [mapAddr_ok ⟨hw, ha⟩, h]

/-- R155 (b): on a square grid every pixel is reached. -/
theorem mapAddr_square_onto (h : s.imgW.toNat = s.imgH.toNat) {x y : Nat} (hx : x < s.imgW.toNat)
    (hy : y < s.imgH.toNat) : mapAddr (y * s.imgH.toNat + x) s = .done (x, y) s := by
  rw [mapAddr_rowBlock (by omega) hy (h ▸ hx), ← h, Nat.mul_add_mod_of_lt hx]

/-- R155 (e): the mapping is one-to-one on 0 .. N - 1 up to CAP and no further. -/
theorem mapAddr_injOn_iff (hw : s.imgW.toNat ≠ 0) (hh : s.imgH.toNat ≠ 0) {N : Nat}
    (hN : N ≤ s.imgH.toNat * s.imgH.toNat) :
    (∀ a b, a < N → b < N → mapAddr a s = mapAddr b s → a = b) ↔
      N ≤ capacity s.imgW.toNat s.imgH.toNat := by
  constructor
  · intro hinj
    unfold capacity
    split
    · exact hN
    · by_contra hlt
      have halias : mapAddr (0 + s.imgW.toNat) s = mapAddr 0 s :=
        mapAddr_add_width (y := 0) hw (by omega) (by omega) (by omega)
      have := hinj _ _ (by omega) (by omega) halias
      omega
  · intro hcap a b ha hb h
    obtain ⟨hx, hy⟩ := (mapAddr_eq_iff ⟨hw, by omega⟩ ⟨hw, by omega⟩).mp h
    exact distinct_below_capacity (by omega) (by omega) hx hy

/-- R155 (c): on a grid wider than high, whose capacity is all of its H² addresses, no two alias. -/
theorem mapAddr_wide_injective (h : s.imgH.toNat < s.imgW.toNat) {a b : Nat}
    (ha : a < s.imgH.toNat * s.imgH.toNat) (hb : b < s.imgH.toNat * s.imgH.toNat)
    (hm : mapAddr a s = mapAddr b s) : a = b := by
  have hw : s.imgW.toNat ≠ 0 := by omega
  have hcap : capacity s.imgW.toNat s.imgH.toNat = s.imgH.toNat * s.imgH.toNat := if_pos h.le
  obtain ⟨hx, hy⟩ := (mapAddr_eq_iff ⟨hw, ha⟩ ⟨hw, hb⟩).mp hm
  exact distinct_below_capacity (hcap ▸ ha) (hcap ▸ hb) hx hy

/-- Settles O42: the parts of R155 in its order. -/
theorem mappingReachAndCapacity : Obligations.MappingReachAndCapacity := by
  intro s W H
  refine ⟨fun a => mapped_iff_reaches, fun a x y t => mapAddr_in_grid,
    fun h => ⟨fun a ha => ?_, fun x y hx hy => ?_⟩,
    fun h => ⟨fun a b => mapAddr_wide_injective h, fun x y _ hy => mapped_iff_in_rowBlock (by omega) hy⟩,
    fun hw _ a y => mapAddr_add_width hw, fun hw hh N => mapAddr_injOn_iff hw hh⟩
  · exact ⟨_, _, mapAddr_square h ha, (Nat.div_add_mod' a W).symm⟩
  · have hm := mapAddr_square_onto h hx hy
    obtain ⟨⟨-, hlt⟩, -, -⟩ := mapAddr_done hm
    exact ⟨_, by rwa [h], hm⟩

/-! ## A word written and read back (42_word_access.md R160) -/

/-- A response changes no word. -/
theorem wordAt_respond (v : BitVec 64) (s : State) (a : Nat) : wordAt (respond v s) a = wordAt s a := rfl

/-- A stored word is read through every alias of its address (42_word_access.md R160 d). -/
theorem wordAt_storeWord {a b : Nat} (w : PixWord) (h : s.samePixel a b) : wordAt (s.storeWord a w) b = w := by
  have hcell : cellOf (s.storeWord a w) b = cellOf s a := h.cellOf_eq.symm
  rw [wordAt, pixelAt_eq, hcell, storeWord_pix, Memory.pixel_setPixel_same, pack_unpack]

/-- Storing the word that is already there changes no byte of PIX. -/
theorem read_storeWord_wordAt (s : State) (a b : Nat) :
    Memory.read (s.storeWord a (wordAt s a)).pix b = Memory.read s.pix b := by
  rw [storeWord_pix, wordAt, unpack_pack, pixelAt_eq, Memory.read_setPixel_pixel]

/-- Settles O41: the laws of Pack and Unpack, then both orders of a read and a write of the same pixel. -/
theorem wordPackingInverts : Obligations.WordPackingInverts := by
  refine ⟨unpack_pack, pack_unpack, unpack_unpack, ?_, ?_⟩
  · intro s a a' w xy hs hb ha ha'
    obtain ⟨hr, -, -⟩ := mapAddr_done ha
    obtain ⟨hr', -, -⟩ := mapAddr_done ha'
    refine ⟨_, exec_wsWriteWord_ok w hs hb hr, ?_⟩
    rw [exec_wsReadWord_ok (s := respond 0 (s.storeWord a.toNat w)) hs hb hr',
      wordAt_respond, wordAt_storeWord w (samePixel_of_mapAddr ha ha')]
    rfl
  · intro s a xy hs hb ha
    obtain ⟨hr, -, -⟩ := mapAddr_done ha
    refine ⟨_, _, exec_wsReadWord_ok hs hb hr, ?_, exec_wsWriteWord_ok _ hs hb hr, rfl, fun b => ?_⟩
    · rw [respond_result, BitVec.toNat_setWidth]
      exact Nat.lt_of_le_of_lt (Nat.mod_le ..) (wordAt s a.toNat).isLt
    · rw [respond_pix, respond_result, BitVec.setWidth_setWidth_of_le _ (by decide), BitVec.setWidth_eq]
      exact read_storeWord_wordAt _ _ b

end Sys2Proof.Machine
end

section
/-! PROOFS. The split of a payload, a source too large for the header, and the header written and read back
(43_stream.md R170 to R173). -/

namespace Sys2Proof.Machine

theorem splitRem_eq_mod (n : Nat) : splitRem n = n % 7 := by
  unfold splitRem Config.bitsPerWord
  omega

/-- Settles O43: the bounds follow from 7·count + rem = 8·n. -/
theorem splitOfThePayload : Obligations.SplitOfThePayload := by
  intro n
  have htotal := split_total n
  refine ⟨htotal, splitRem_eq_mod n, splitRem_le n, ?_, fun _ => ⟨by omega, by omega⟩,
    fun _ => ⟨by omega, by omega⟩⟩
  rw [wordsUsed_eq, ite_not]

/-- Settles O44: the size is checked before the embed begins. -/
theorem oversizedSourceIsRejected : Obligations.OversizedSourceIsRejected := by
  intro s hs hw hb hovf hn
  rw [exec_effect (i := .wsWriteStream) hs ((firstUnmet_wsWriteStream s).mpr ⟨hw, hb⟩), effect,
    if_pos ⟨hn, hovf⟩]

theorem hdrWord_toNat (h : BitVec 63) (i : Nat) : (hdrWord h i).toNat = h.toNat / 2 ^ (7 * i) % 2 ^ 7 := by
  rw [hdrWord, BitVec.extractLsb'_toNat, Nat.shiftRight_eq_div_pow]
  rfl

/-- RESULT of a stream command: the header value (43_stream.md R173, R176). -/
theorem setWidth_header {n : Nat} (hn : n < 2 ^ 63) : (BitVec.ofNat 63 n).setWidth 64 = BitVec.ofNat 64 n := by
  apply BitVec.eq_of_toNat_eq
  rw [BitVec.toNat_setWidth, BitVec.toNat_ofNat, BitVec.toNat_ofNat, Nat.mod_eq_of_lt hn]

/-- A word written is the word read. -/
theorem Wrote.wordAt {s t : State} {lo n : Nat} {word : Nat → PixWord} (h : Wrote s t lo n word) {j : Nat}
    (hj : j < n) : Machine.wordAt t (lo + j) = word j := by
  rw [← pack_pixelAt, h.words j hj, pack_unpack]

/-- Settles O45: the nine words written are the groups of h, and the groups make up h again. -/
theorem headerFidelity : Obligations.HeaderFidelity := by
  intro s h hcap
  obtain ⟨t, ht, hframe, hwrote⟩ := writeHeaderFrom_ok h 9 0 s (by omega)
  have hword : ∀ i < 9, wordAt t i = hdrWord h i := fun i hi => by
    simpa using hwrote.wordAt hi
  have hreach : ∀ j < 9, t.reaches (0 + j) := fun j hj =>
    (reaches_congr hwrote.width hwrote.height _).mpr (reaches_below_capacity (by omega))
  obtain ⟨v, hv, hval⟩ := readHeaderFrom_ok 9 0 0 t hreach
  refine ⟨t, ht, hframe, ?_, fun i hi => by rw [hword i hi, hdrWord_toNat]⟩
  rw [hval, header_of_words hword] at hv
  exact hv

end Sys2Proof.Machine
end

section
/-! PROOFS. Where an embed faults (43_stream.md R173, R178, R239): the state in which its body reads the group of
word i, and what a missing word or a missing source bit does there. -/

namespace Sys2Proof.Machine

variable {s : State}

/-- WS_WRITE_STREAM of a size that HDR_OVF admits is the embed (43_stream.md R173). -/
theorem exec_wsWriteStream (hs : s.ready) (hw : s.wsState = .idle) (hb : s.brState = .open)
    (hn : s.srcSize.toNat < 2 ^ 63 ∨ s.hdrOvf = .truncate) : exec .wsWriteStream s =
      (embed (BitVec.ofNat 63 s.srcSize.toNat) s.srcSize.toNat s).finish fun _ =>
        (BitVec.ofNat 63 s.srcSize.toNat).setWidth 64 := by
  have hadmit : ¬ (2 ^ 63 ≤ s.srcSize.toNat ∧ s.hdrOvf = .reject) := by
    rintro ⟨hge, hrej⟩
    rcases hn with hlt | htr
    · omega
    · rw [hrej] at htr; cases htr
  rw [exec_effect (i := .wsWriteStream) hs ((firstUnmet_wsWriteStream s).mpr ⟨hw, hb⟩), effect, if_neg hadmit]
  rfl

/-! ## The body from word i on -/

/-- The payload bits of body word i of n bytes: seven, or in the last word what is left (43_stream.md R171). -/
def groupLen (n i : Nat) : Nat := min 7 (8 * n - 7 * i)

theorem groupLen_full {n i : Nat} (h : i < splitCount n) : groupLen n i = 7 := by
  have := split_total n
  rw [groupLen]
  omega

theorem groupLen_last (n : Nat) : groupLen n (splitCount n) = splitRem n := by
  have := split_total n
  have := splitRem_le n
  rw [groupLen]
  omega

/-- An embed body of n bytes from word i on. -/
def embedBodyAt (n i : Nat) (s : State) : Micro Unit :=
  (embedBodyFrom (splitCount n - i) i s).andThen fun _ t => embedTail (splitCount n) (splitRem n) t

theorem embed_eq (h : BitVec 63) (n : Nat) (s : State) : embed h n s =
    (writeHeaderFrom 9 0 h s).andThen fun _ t =>
      (embedBodyAt n 0 (enterBody .hdrWritten h n t)).andThen fun _ u =>
        .done () { u with wsState := .bodyWritten } := by
  simp only [embed, embedBodyAt, Micro.andThen_assoc, Nat.sub_zero]
  rfl

/-- The body reads the group of word i first; what follows ends in fault entry where the word does not exist
(43_stream.md R173). -/
theorem embedBodyAt_group {n i : Nat} (hi : 7 * i < 8 * n) (s : State) : ∃ next : Byte → State → Micro Unit,
    embedBodyAt n i s = (readBits (groupLen n i) { s with xferIdx := BitVec.ofNat 65 i }).andThen next ∧
      ∀ v t, t.imgW ≠ 0 → t.imgH ≠ 0 → t.imgH.toNat * t.imgH.toNat ≤ 9 + i →
        next v t = .ended (faultEntry .addrRange .ws subRow (9 + i) t) := by
  have htotal := split_total n
  by_cases hlt : i < splitCount n
  · refine ⟨fun v t => (writeWord (9 + i) (v.setWidth 7) t).andThen fun _ u => embedBodyAt n (i + 1) u, ?_,
      fun v t hw hh hrow => by dsimp only; rw [(mapAddr_missing hw hh hrow _ 0).2.1, Micro.andThen_ended]⟩
    rw [embedBodyAt, show splitCount n - i = splitCount n - (i + 1) + 1 by omega, embedBodyFrom, embedStep,
      Micro.andThen_assoc, Micro.andThen_assoc, groupLen_full hlt]
    rfl
  · obtain rfl : i = splitCount n := by have := splitRem_le n; omega
    refine ⟨fun v t => finalWrite (9 + splitCount n) (v.setWidth 7) (splitRem n) t, ?_,
      fun v t hw hh hrow => (mapAddr_missing hw hh hrow _ _).2.2⟩
    rw [embedBodyAt, Nat.sub_self, embedBodyFrom, Micro.andThen_done, embedTail, if_neg (by omega), groupLen_last]
    rfl

/-- Body words that exist are embedded. -/
theorem embedBodyAt_reach {n i : Nat} (hi : i ≤ splitCount n) (hr : ∀ a < 9 + i, s.reaches a)
    (hend : s.rdPos.toNat + 7 * i ≤ 8 * s.srcSize.toNat) (hp : s.portsAnswer (7 * i)) :
    ∃ p x, embedBodyAt n 0 s = embedBodyAt n i { s.consumed (7 * i) with pix := p, xferIdx := x } := by
  obtain ⟨p, x, hb⟩ := embedBodyFrom_reach i 0 s (fun j hj => hr _ (by omega)) hend hp
  refine ⟨p, x, ?_⟩
  rw [embedBodyAt, show splitCount n - 0 = i + (splitCount n - i) by omega, embedBodyFrom_add, hb,
    Micro.andThen_done, Nat.zero_add, embedBodyAt]

/-! ## Where the body faults -/

/-- The state of an embed of n bytes with the header written and k source bits consumed. -/
def State.inBody (s : State) (h : BitVec 63) (n k : Nat) (p : Memory) (x : BitVec 65) : State :=
  { (enterBody .hdrWritten h n s).consumed k with pix := p, xferIdx := x }

theorem inBody_consumed {h : BitVec 63} {n k m : Nat} (p : Memory) (x : BitVec 65)
    (hk : s.rdPos.toNat + k ≤ 8 * s.srcSize.toNat) : (s.inBody h n k p x).consumed m = s.inBody h n (k + m) p x := by
  rw [State.inBody, State.inBody, ← consumed_consumed (s := enterBody .hdrWritten h n s) hk]
  rfl

theorem inBody_rdPos {h : BitVec 63} {n k : Nat} (p : Memory) (x : BitVec 65)
    (hk : s.rdPos.toNat + k ≤ 8 * s.srcSize.toNat) : (s.inBody h n k p x).rdPos.toNat = s.rdPos.toNat + k :=
  consumed_rdPos (s := enterBody .hdrWritten h n s) hk

theorem inBody_ioAnswer (h : BitVec 63) (n k : Nat) (p : Memory) (x : BitVec 65) (j : Nat) :
    (s.inBody h n k p x).ioAnswer j = s.ioAnswer (k + j) :=
  afterDraws_ioAnswer s k j

/-- One more answer drawn after k source bits. -/
theorem inBody_draw (h : BitVec 63) (n k : Nat) (p : Memory) (x : BitVec 65) : (s.inBody h n k p x).afterDraws 1 =
    { s.inBody h n k p x with ioAnswers := s.ioAnswers.drop (k + 1), ioDraws := s.ioDraws + (k + 1) } := by
  have hdraws := afterDraws_afterDraws s k 1
  exact congrArg (fun t : State => { s.inBody h n k p x with ioAnswers := t.ioAnswers, ioDraws := t.ioDraws }) hdraws

/-- An embed whose words before body word i exist reads that word's group next. -/
theorem embed_group {h : BitVec 63} {n i : Nat} (hi : 7 * i < 8 * n) (hr : ∀ a < 9 + i, s.reaches a)
    (hend : s.rdPos.toNat + 7 * i ≤ 8 * s.srcSize.toNat) (hp : s.portsAnswer (7 * i)) :
    ∃ (p : Memory) (next : Byte → State → Micro Unit),
      embed h n s = (readBits (groupLen n i) (s.inBody h n (7 * i) p (BitVec.ofNat 65 i))).andThen next ∧
        ∀ v t, t.imgW ≠ 0 → t.imgH ≠ 0 → t.imgH.toNat * t.imgH.toNat ≤ 9 + i →
          next v t = .ended (faultEntry .addrRange .ws subRow (9 + i) t) := by
  have htotal := split_total n
  obtain ⟨p, hhead⟩ := writeHeaderFrom_reach h 9 0 s fun j hj => hr _ (by omega)
  obtain ⟨q, x, hbody⟩ := embedBodyAt_reach (s := enterBody .hdrWritten h n { s with pix := p }) (n := n) (i := i)
    (by have := splitRem_le n; omega) hr hend hp
  obtain ⟨next, hnext, hmissing⟩ := embedBodyAt_group hi
    { (enterBody .hdrWritten h n { s with pix := p }).consumed (7 * i) with pix := q, xferIdx := x }
  refine ⟨q, fun v t => (next v t).andThen fun _ u => .done () { u with wsState := .bodyWritten }, ?_,
    fun v t hw hh hrow => by dsimp only; rw [hmissing v t hw hh hrow, Micro.andThen_ended]⟩
  rw [embed_eq, hhead, Micro.andThen_done, hbody, hnext, Micro.andThen_assoc]
  rfl

/-- The header phase of an embed faults at its first word that does not exist (43_stream.md R178). -/
theorem embed_header_missing {h : BitVec 63} {n : Nat} (hw : s.imgW ≠ 0) (hh : s.imgH ≠ 0)
    (hlt : s.imgH.toNat * s.imgH.toNat < 9) : ∃ p, embed h n s =
      .ended (faultEntry .addrRange .ws subRow (s.imgH.toNat * s.imgH.toNat) { s with pix := p }) := by
  generalize hreach : s.imgH.toNat * s.imgH.toNat = reach at *
  obtain ⟨p, hhead⟩ := writeHeaderFrom_reach h reach 0 s fun j hj => reaches_of_lt hw (by omega)
  obtain ⟨m, hm⟩ : ∃ m, 9 = reach + (m + 1) := ⟨8 - reach, by omega⟩
  have hmissing := (mapAddr_missing (s := { s with pix := p }) (a := reach) hw hh hreach.le (hdrWord h reach) 0).2.1
  refine ⟨p, ?_⟩
  rw [embed_eq, hm, writeHeaderFrom_add, hhead, Micro.andThen_done, Nat.zero_add, writeHeaderFrom, hmissing]
  rfl

/-- On an empty grid the first header word faults. -/
theorem embed_empty {h : BitVec 63} {n : Nat} (hempty : s.imgW = 0 ∨ s.imgH = 0) :
    embed h n s = .ended (faultEntry .addrRange .ws subEmptyGrid 0 s) := by
  rw [embed_eq, writeHeaderFrom, writeWord_ended _ (mapAddr_empty hempty)]
  rfl

theorem imgH_ne_zero {m : Nat} (hm : 0 < m) (h : m ≤ s.imgH.toNat * s.imgH.toNat) : s.imgH ≠ 0 := by
  rintro h0
  rw [h0] at h
  exact absurd h (Nat.not_le.mpr hm)

/-- Settles O49: the header words are looked up first; a body word that does not exist is looked up after its
group was read. -/
theorem embedFaultsAtTheFirstMissingWord : Obligations.EmbedFaultsAtTheFirstMissingWord := by
  intro s hs hw hb hn n reach
  rw [exec_wsWriteStream hs hw hb hn]
  refine ⟨fun hempty => ?_, fun hwidth hheight hlt => ?_, fun hwidth hge hlt => ?_⟩
  · rw [embed_empty hempty]; rfl
  · obtain ⟨p, hembed⟩ := embed_header_missing (h := BitVec.ofNat 63 n) (n := n) hwidth hheight hlt
    exact ⟨_, by rw [hembed]; rfl, rfl⟩
  · dsimp only
    intro hend hp
    obtain ⟨i, hi⟩ : ∃ i, reach = 9 + i := Nat.exists_eq_add_of_le hge
    have hlt' : reach < 9 + (8 * n + 6) / 7 := hlt
    have hk : min (8 * n) (7 * (reach - 8)) = 7 * i + groupLen n i := by rw [groupLen]; omega
    rw [hk] at hend hp ⊢
    obtain ⟨p, next, hembed, hmissing⟩ := embed_group (h := BitVec.ofNat 63 n) (n := n) (i := i) (by omega)
      (fun a ha => reaches_of_lt hwidth (by show a < reach; omega)) (by omega) (portsAnswer_mono hp (by omega))
    have hpos := inBody_rdPos (s := s) (h := BitVec.ofNat 63 n) (n := n) (k := 7 * i) p (BitVec.ofNat 65 i)
      (by omega)
    obtain ⟨v, hread, -⟩ := readBits_ok (s := s.inBody (BitVec.ofNat 63 n) n (7 * i) p (BitVec.ofNat 65 i))
      (len := groupLen n i) (by rw [groupLen]; omega)
      (by rw [hpos, Nat.add_assoc]; exact hend) (portsAnswer_afterDraws hp)
    rw [inBody_consumed p _ (by omega)] at hread
    have hrow := hmissing v (s.inBody (BitVec.ofNat 63 n) n (7 * i + groupLen n i) p (BitVec.ofNat 65 i)) hwidth
      (imgH_ne_zero (by decide) hge) hi.le
    rw [hembed, hread, Micro.andThen_done, hrow, ← hi]
    exact ⟨_, rfl, rfl⟩

/-- An embed whose words before body bit k exist and whose reads before it answer ends where ReadBit of that bit
ends in fault entry (43_stream.md R173). -/
theorem embed_bit_ended {h : BitVec 63} {n k : Nat} (hk : k < 8 * n) (hr : ∀ a < 9 + k / 7, s.reaches a)
    (hend : s.rdPos.toNat + k ≤ 8 * s.srcSize.toNat) (hp : s.portsAnswer k) : ∃ p x,
      ∀ t, readBit (s.inBody h n k p x) = .ended t → embed h n s = .ended t := by
  obtain ⟨p, next, hembed, -⟩ := embed_group (h := h) (n := n) (i := k / 7) (by omega) hr (by omega)
    (portsAnswer_mono hp (by omega))
  have hsplit : 7 * (k / 7) + k % 7 = k := Nat.div_add_mod k 7
  have hpos := inBody_rdPos (s := s) (h := h) (n := n) (k := 7 * (k / 7)) p (BitVec.ofNat 65 (k / 7)) (by omega)
  refine ⟨p, BitVec.ofNat 65 (k / 7), fun t ht => ?_⟩
  rw [hembed, readBits_ended (s := s.inBody h n (7 * (k / 7)) p _) (m := k % 7) (by rw [groupLen]; omega)
    (by rw [groupLen]; omega)
    (by rw [hpos, Nat.add_assoc, hsplit]; exact hend) (portsAnswer_afterDraws (by rwa [hsplit]))
    (by rwa [inBody_consumed p _ (by omega), hsplit]), Micro.andThen_ended]

/-- Settles O50: the two ways in which ReadBit of body bit k ends in fault entry. -/
theorem embedFaultsAtTheFirstMissingSourceBit : Obligations.EmbedFaultsAtTheFirstMissingSourceBit := by
  intro s k hs hw hb hn hwidth hk hreach hp n
  rw [exec_wsWriteStream hs hw hb hn]
  have hr : ∀ a < 9 + k / 7, s.reaches a := fun a ha => reaches_of_lt hwidth (by omega)
  refine ⟨fun heof => ?_, fun hlt ha => ?_⟩
  · obtain ⟨p, x, hended⟩ := embed_bit_ended (h := BitVec.ofNat 63 n) hk hr heof.le hp
    have hpos := inBody_rdPos (s := s) (h := BitVec.ofNat 63 n) (n := n) (k := k) p x heof.le
    have hbit := readBit_eof (s := s.inBody (BitVec.ofNat 63 n) n k p x) (by rw [hpos]; exact heof.ge)
    rw [hpos, heof] at hbit
    rw [hended _ hbit, ← heof]
    exact ⟨_, rfl, rfl⟩
  · obtain ⟨p, x, hended⟩ := embed_bit_ended (h := BitVec.ofNat 63 n) hk hr hlt.le hp
    have hpos := inBody_rdPos (s := s) (h := BitVec.ofNat 63 n) (n := n) (k := k) p x hlt.le
    have hbit := readBit_fail (s := s.inBody (BitVec.ofNat 63 n) n k p x) (by rw [hpos]; exact hlt)
      ((inBody_ioAnswer ..).trans ha)
    rw [hpos] at hbit
    rw [hended _ hbit, inBody_draw]
    exact ⟨_, rfl, rfl⟩

end Sys2Proof.Machine
end

section
/-! PROOFS. The end state of an embed (43_stream.md R173 to R175, 70_reset_and_hazards.md R237): the words it
brings to its addresses, the fill of the last one, and what each pixel then holds. -/

namespace Sys2Proof.Machine

variable {s t u : State} {n a b j : Nat}

/-! ## The words of an embed -/

/-- The word that an embed of n bytes from bit 0 brings to address a: a header word, or the group of source bits
of a body word (43_stream.md R170, R173). -/
def embeddedWord (s : State) (n a : Nat) : PixWord :=
  if a < 9 then hdrWord (BitVec.ofNat 63 n) a else srcWord s (7 * (a - 9)) (groupLen n (a - 9))

theorem wordsUsed_of_rem (hrem : splitRem n ≠ 0) : wordsUsed n = 9 + splitCount n + 1 := by
  rw [wordsUsed_eq, if_neg hrem]

theorem groupLen_le (n i : Nat) : groupLen n i ≤ 7 := Nat.min_le_left _ _

theorem embeddedBit_header (ha : a < 9) : embeddedBit s n a j = n.testBit (7 * a + j) := if_pos ha

theorem embeddedBit_body (i : Nat) : embeddedBit s n (9 + i) j = srcBit s (7 * i + j) :=
  (if_neg (Nat.not_lt.mpr (Nat.le_add_right 9 i))).trans
    (congrArg (fun k => srcBit s (7 * k + j)) (Nat.add_sub_cancel_left ..))

theorem embeddedWord_getLsbD (hj : j < 7) (hused : a < 9 ∨ 7 * (a - 9) + j < 8 * n) :
    (embeddedWord s n a).getLsbD j = embeddedBit s n a j := by
  by_cases ha : a < 9
  · rw [embeddedBit_header ha, embeddedWord, if_pos ha, hdrWord_getLsbD, BitVec.getLsbD_ofNat, decide_eq_true hj,
      decide_eq_true (by omega), Bool.true_and, Bool.true_and]
  · obtain ⟨i, rfl⟩ : ∃ i, a = 9 + i := Nat.exists_eq_add_of_le (Nat.not_lt.mp ha)
    rw [embeddedBit_body, embeddedWord, if_neg ha, Nat.add_sub_cancel_left,
      srcWord_getLsbD _ _ _ _ (groupLen_le n _), decide_eq_true (by rw [groupLen]; omega), Bool.true_and]

/-- The last, partial word as it was read has no bit above its group. -/
theorem embeddedWord_last_high (hj : splitRem n ≤ j) :
    (embeddedWord s n (9 + splitCount n)).getLsbD j = false := by
  rw [embeddedWord, if_neg (by omega), Nat.add_sub_cancel_left, srcWord_getLsbD _ _ _ _ (groupLen_le n _),
    groupLen_last, decide_eq_false (by omega), Bool.false_and]

theorem keepFill_getLsbD (old w : PixWord) (rem : Nat) (hj : j < 7) :
    (keepFill old w rem).getLsbD j = (decide (rem ≤ j) && old.getLsbD j || w.getLsbD j) := by
  rw [keepFill, BitVec.getLsbD_or, BitVec.getLsbD_and, BitVec.getLsbD_not, BitVec.getLsbD_ofNat, mask,
    Nat.testBit_two_pow_sub_one]
  by_cases h : rem ≤ j
  · simp [hj, h, Nat.not_lt.mpr h]
  · simp [hj, h, Nat.not_le.mp h]

/-- The word stored at address a, u being the state in which the last, partial word is filled
(43_stream.md R174). -/
def storedWord (s u : State) (n a : Nat) : PixWord :=
  if a = 9 + splitCount n then finalWord u a (embeddedWord s n a) (splitRem n) else embeddedWord s n a

theorem storedWord_full (h : a < 9 + splitCount n) : storedWord s u n a = embeddedWord s n a :=
  if_neg h.ne

/-- Header bits and source bits are stored as they are. -/
theorem storedWord_getLsbD (hj : j < 7) (hused : a < 9 ∨ 7 * (a - 9) + j < 8 * n) :
    (storedWord s u n a).getLsbD j = embeddedBit s n a j := by
  have hbit := embeddedWord_getLsbD (s := s) hj hused
  have htotal := split_total n
  unfold storedWord
  split
  · next ha =>
    have hlow : ¬ splitRem n ≤ j := by omega
    unfold finalWord
    split
    · exact hbit
    · rw [keepFill_getLsbD _ _ _ hj, hbit, decide_eq_false hlow, Bool.false_and, Bool.false_or]
  · exact hbit

theorem storedWord_unused_zero (hfill : u.finalFill = .zero) (hj : splitRem n ≤ j) :
    (storedWord s u n (9 + splitCount n)).getLsbD j = false := by
  rw [storedWord, if_pos rfl, finalWord_zero hfill, embeddedWord_last_high hj]

theorem storedWord_unused_keep (hfill : u.finalFill = .keep) (hj : splitRem n ≤ j) (hj7 : j < 7) :
    (storedWord s u n (9 + splitCount n)).getLsbD j = (wordAt u (9 + splitCount n)).getLsbD j := by
  rw [storedWord, if_pos rfl, finalWord_keep hfill, keepFill_getLsbD _ _ _ hj7, embeddedWord_last_high hj,
    decide_eq_true hj, Bool.true_and, Bool.or_false]

/-! ## The embed writes them in order -/

/-- The last, partial word of a body that exists (43_stream.md R173, R174). -/
theorem embedTail_ok {count rem : Nat} (hrem : rem ≠ 0) (hle : rem ≤ 7) (hr : s.reaches (9 + count))
    (hend : s.rdPos.toNat + rem ≤ 8 * s.srcSize.toNat) (hp : s.portsAnswer rem) :
    embedTail count rem s = .done ()
      { s.consumed rem with
        xferIdx := BitVec.ofNat 65 count
        pix := Memory.setPixel s.pix (cellOf s (9 + count)) (unpack (pixelAt s (9 + count))
          (finalWord s (9 + count) (srcWord s s.rdPos.toNat rem) rem)) } := by
  obtain ⟨v, hv, hword⟩ := readBits_word (s := { s with xferIdx := BitVec.ofNat 65 count }) hle hend hp
  rw [embedTail, if_neg hrem, hv, Micro.andThen_done, hword]
  exact finalWrite_ok (s := { s.consumed rem with xferIdx := BitVec.ofNat 65 count }) _ _ hr

/-- From s to t an embed of n bytes from bit 0 wrote its words in order, u being the state in which it filled
the last, partial one. -/
structure EmbedWords (s u t : State) (n : Nat) : Prop where
  full : Overwrote s u (9 + splitCount n) (embeddedWord s n)
  all : Overwrote s t (wordsUsed n) (storedWord s u n)
  fill : u.finalFill = s.finalFill

/-- The header and the full body words are written in order, and the last, partial word comes next. -/
theorem embed_full (hn : s.srcSize.toNat = n) (hr : ∀ a < 9 + splitCount n, s.reaches a) (h0 : s.rdPos.toNat = 0)
    (hp : s.portsAnswer (7 * splitCount n)) : ∃ q x,
      embed (BitVec.ofNat 63 n) n s =
        ((embedTail (splitCount n) (splitRem n)
          (s.inBody (BitVec.ofNat 63 n) n (7 * splitCount n) q x)).andThen fun _ v =>
            .done () { v with wsState := .bodyWritten }) ∧
      Overwrote s { s with pix := q } (9 + splitCount n) (embeddedWord s n) := by
  have htotal := split_total n
  obtain ⟨t, ht, hframe, hhead⟩ := writeHeaderFrom_overwrites (s := s) (BitVec.ofNat 63 n)
    (word := embeddedWord s n) 9 0 s (.none s _) (fun a ha => hr a (by omega))
    (fun a _ ha => if_pos (by omega))
  obtain ⟨u, hu, huframe, hbody⟩ := embedBodyFrom_overwrites (s := s) (word := embeddedWord s n) (splitCount n) 0
    (enterBody .hdrWritten (BitVec.ofNat 63 n) n t) (hhead.ext rfl rfl rfl fun _ _ => rfl)
    (fun a ha => hr a (by omega)) (by rw [hframe]; show s.rdPos.toNat + _ ≤ 8 * s.srcSize.toNat; omega)
    (by rw [hframe]; exact hp)
    (fun i hi => by
      rw [hframe, embeddedWord, if_neg (by omega), show 9 + 0 + i - 9 = i by omega, groupLen_full hi]
      show _ = srcWord s (s.rdPos.toNat + 7 * i) 7
      rw [h0, Nat.zero_add])
  rw [hframe] at ht hu huframe
  change u = s.inBody (BitVec.ofNat 63 n) n (7 * splitCount n) u.pix u.xferIdx at huframe
  refine ⟨u.pix, u.xferIdx, ?_, hbody.ext hbody.width.symm hbody.height.symm rfl fun _ _ => rfl⟩
  rw [← huframe, embed_eq, ht, Micro.andThen_done, embedBodyAt, Nat.sub_zero, hu, Micro.andThen_done]

/-- The word that the last step of the body stores. -/
theorem storedWord_last (h0 : s.rdPos.toNat = 0) (q : Memory) (x : BitVec 65)
    (hend : 7 * splitCount n ≤ 8 * s.srcSize.toNat) :
    storedWord s { s with pix := q } n (9 + splitCount n) =
      finalWord (s.inBody (BitVec.ofNat 63 n) n (7 * splitCount n) q x) (9 + splitCount n)
        (srcWord s (s.inBody (BitVec.ofNat 63 n) n (7 * splitCount n) q x).rdPos.toNat (splitRem n))
        (splitRem n) := by
  rw [storedWord, if_pos rfl, inBody_rdPos q x (by omega), h0, Nat.zero_add, embeddedWord, if_neg (by omega),
    Nat.add_sub_cancel_left, groupLen_last]
  rfl

/-- An embed of the whole source whose words exist and whose reads answer (43_stream.md R173). -/
theorem embed_ok (hn : s.srcSize.toNat = n) (hr : ∀ a < wordsUsed n, s.reaches a) (h0 : s.rdPos.toNat = 0)
    (hp : s.portsAnswer (8 * n)) : ∃ q p x,
      embed (BitVec.ofNat 63 n) n s =
        .done () { s.inBody (BitVec.ofNat 63 n) n (8 * n) p x with wsState := .bodyWritten } ∧
      EmbedWords s { s with pix := q } { s with pix := p } n := by
  have htotal := split_total n
  have hle : 9 + splitCount n ≤ wordsUsed n := wordsUsed_eq n ▸ Nat.le_add_right ..
  obtain ⟨q, x, hembed, hfull⟩ := embed_full hn (fun a ha => hr a (by omega)) h0 (portsAnswer_mono hp (by omega))
  have hstored : Overwrote s { s with pix := q } (9 + splitCount n) (storedWord s { s with pix := q } n) :=
    hfull.ext rfl rfl rfl fun _ ha => (storedWord_full ha).symm
  refine ⟨q, ?_⟩
  by_cases hrem : splitRem n = 0
  · refine ⟨q, x, ?_, hfull, ?_, rfl⟩
    · rw [hembed, embedTail, if_pos hrem, Micro.andThen_done, show 7 * splitCount n = 8 * n by omega]
    · rw [wordsUsed_eq, if_pos hrem]
      exact hstored
  · have hused := wordsUsed_of_rem hrem
    have htail := embedTail_ok (s := s.inBody (BitVec.ofNat 63 n) n (7 * splitCount n) q x) (count := splitCount n)
      hrem (Nat.le_succ_of_le (splitRem_le n)) (hr (9 + splitCount n) (by omega))
      (by rw [inBody_rdPos q x (by omega)]; show _ ≤ 8 * s.srcSize.toNat; omega)
      (portsAnswer_afterDraws (by rwa [htotal]))
    rw [inBody_consumed q x (by omega), htotal] at htail
    refine ⟨_, _, by rw [hembed, htail]; rfl, hfull, ?_, rfl⟩
    have hnext := hstored.next
    rw [storedWord_last h0 q x (by omega)] at hnext
    rw [hused]
    exact hnext.ext rfl rfl rfl fun _ _ => rfl

/-- WS_WRITE_STREAM of a source below 2^63 bytes, read from bit 0, whose words exist and whose reads answer. -/
theorem exec_wsWriteStream_ok (hs : s.ready) (hw : s.wsState = .idle) (hb : s.brState = .open)
    (hn : s.srcSize.toNat = n) (hn63 : n < 2 ^ 63) (hr : ∀ a < wordsUsed n, s.reaches a) (h0 : s.rdPos = 0)
    (hp : s.portsAnswer (8 * n)) : ∃ q p x,
      exec .wsWriteStream s = .next (respond s.srcSize
        { s.inBody (BitVec.ofNat 63 n) n (8 * n) p x with wsState := .bodyWritten }) ∧
      EmbedWords s { s with pix := q } { s with pix := p } n := by
  obtain ⟨q, p, x, hembed, hwords⟩ := embed_ok hn hr (congrArg BitVec.toNat h0) hp
  refine ⟨q, p, x, ?_, hwords⟩
  rw [exec_wsWriteStream hs hw hb (.inl (hn ▸ hn63)), hn, hembed, Micro.finish_done, setWidth_header hn63, ← hn,
    BitVec.ofNat_toNat, BitVec.setWidth_eq]

/-! ## What the pixels hold afterwards -/

theorem cellOf_ne (hw : s.imgW ≠ 0) (h : ¬ s.samePixel a b) : cellOf s a ≠ cellOf s b := fun hc =>
  h (cellOf_inj (fun h0 => hw (BitVec.eq_of_toNat_eq h0)) hc)

/-- The word read at an address is the last one written to its pixel. -/
theorem Overwrote.wordAt {word : Nat → PixWord} (h : Overwrote s t n word) (hb : b < n)
    (hc : cellOf s b = cellOf s a) (hl : ∀ c, b < c → c < n → cellOf s c ≠ cellOf s b) :
    Machine.wordAt t a = word b := by
  rw [← pack_pixelAt, h.at hb hc hl, pack_unpack]

/-- The channel bits above the words are the carrier's (42_word_access.md R152). -/
theorem Overwrote.high {word : Nat → PixWord} (h : Overwrote s t n word) (ha : a < n) :
    (pixelAt t a).r.toNat / 8 = (pixelAt s a).r.toNat / 8 ∧
    (pixelAt t a).g.toNat / 4 = (pixelAt s a).g.toNat / 4 ∧
    (pixelAt t a).b.toNat / 4 = (pixelAt s a).b.toNat / 4 := by
  obtain ⟨b, -, hb, hc, hl⟩ := exists_last s n ha
  rw [h.at hb hc hl]
  exact unpack_high _ _

/-- A header or source bit of an address whose pixel no later one selects (70_reset_and_hazards.md R237). -/
theorem EmbedWords.bit (h : EmbedWords s u t n) (ha : a < wordsUsed n) (hj : j < 7)
    (hl : ∀ b, a < b → b < wordsUsed n → cellOf s b ≠ cellOf s a) (hused : a < 9 ∨ 7 * (a - 9) + j < 8 * n) :
    (wordAt t a).getLsbD j = embeddedBit s n a j := by
  rw [h.all.wordAt ha rfl hl, storedWord_getLsbD hj hused]

/-- No used address comes after that of the last, partial word. -/
theorem EmbedWords.last (h : EmbedWords s u t n) (hrem : splitRem n ≠ 0) :
    wordAt t (9 + splitCount n) = storedWord s u n (9 + splitCount n) := by
  have := wordsUsed_of_rem hrem
  exact h.all.wordAt (by omega) rfl fun c h1 h2 => by omega

theorem EmbedWords.unused_zero (h : EmbedWords s u t n) (hfill : s.finalFill = .zero) (hrem : splitRem n ≠ 0)
    (hj : splitRem n ≤ j) : (wordAt t (9 + splitCount n)).getLsbD j = false := by
  rw [h.last hrem, storedWord_unused_zero (h.fill.trans hfill) hj]

/-- KEEP, and no earlier word in the pixel: the carrier's bits (43_stream.md R174). -/
theorem EmbedWords.unused_carrier (h : EmbedWords s u t n) (hfill : s.finalFill = .keep) (hrem : splitRem n ≠ 0)
    (hj : splitRem n ≤ j) (hj7 : j < 7) (hfirst : ∀ b < 9 + splitCount n, cellOf s b ≠ cellOf s (9 + splitCount n)) :
    (wordAt t (9 + splitCount n)).getLsbD j = (wordAt s (9 + splitCount n)).getLsbD j := by
  rw [h.last hrem, storedWord_unused_keep (h.fill.trans hfill) hj hj7, ← pack_pixelAt u, h.full.untouched hfirst,
    pack_pixelAt]

/-- KEEP, and an earlier word in the pixel: the bits of the last one (70_reset_and_hazards.md R237). -/
theorem EmbedWords.unused_earlier (h : EmbedWords s u t n) (hfill : s.finalFill = .keep) (hrem : splitRem n ≠ 0)
    (hj : splitRem n ≤ j) (hj7 : j < 7) (hb : b < 9 + splitCount n) (hc : cellOf s b = cellOf s (9 + splitCount n))
    (hl : ∀ c, b < c → c < 9 + splitCount n → cellOf s c ≠ cellOf s b) :
    (wordAt t (9 + splitCount n)).getLsbD j = embeddedBit s n b j := by
  have htotal := split_total n
  rw [h.last hrem, storedWord_unused_keep (h.fill.trans hfill) hj hj7, h.full.wordAt hb hc hl,
    embeddedWord_getLsbD hj7 (by omega)]

/-- Bits 0..6 of a word, as a number. -/
theorem toNat_eq_group {w : PixWord} {m i : Nat} (h : ∀ j < 7, w.getLsbD j = m.testBit (7 * i + j)) :
    w.toNat = m / 2 ^ (7 * i) % 2 ^ 7 := by
  apply Nat.eq_of_testBit_eq
  intro j
  rw [Nat.testBit_mod_two_pow, Nat.testBit_div_two_pow, Nat.add_comm j]
  by_cases hj : j < 7
  · rw [decide_eq_true hj, Bool.true_and, ← h j hj]
    rfl
  · rw [decide_eq_false hj, Bool.false_and]
    exact BitVec.getLsbD_of_ge w j (by omega)

/-- Where no two words share a pixel the header and the payload can be read back (43_stream.md R175). -/
theorem EmbedWords.distinct (h : EmbedWords s u t n) (hcap : wordsUsed n ≤ capacity s.imgW.toNat s.imgH.toNat) :
    (∀ i < 9, (wordAt t i).toNat = n / 2 ^ (7 * i) % 2 ^ 7) ∧ ∀ j < 8 * n, payloadBit t j = srcBit s j := by
  have hused : wordsUsed n = 9 + (8 * n + 6) / 7 := rfl
  have hl : ∀ a b, a < b → b < wordsUsed n → cellOf s b ≠ cellOf s a := fun a b hab hb =>
    cellOf_ne_below_capacity (by omega) (by omega) hab.ne'
  refine ⟨fun i hi => toNat_eq_group fun j hj => ?_, fun j hj => ?_⟩
  · rw [h.bit (by omega) hj (hl i) (.inl hi), embeddedBit_header hi]
  · have hbit := h.bit (a := 9 + j / 7) (j := j % 7) (by omega) (by omega) (hl _) (by omega)
    rwa [embeddedBit_body, Nat.div_add_mod] at hbit

/-- Settles O46: the embed writes its words in order, so each pixel holds the last one written to it. -/
theorem embedEndState : Obligations.EmbedEndState := by
  intro s hs hw hb hn hwidth hreach h0 hp n N
  obtain ⟨q, p, x, hexec, hwords⟩ := exec_wsWriteStream_ok hs hw hb rfl hn
    (fun a ha => reaches_of_lt hwidth (Nat.lt_of_lt_of_le ha hreach)) h0 hp
  have hne : ∀ {a b}, ¬ s.samePixel a b → cellOf s a ≠ cellOf s b := cellOf_ne hwidth
  have hzero : BitVec.ofNat 67 (s.rdPos.toNat + 8 * n) = BitVec.ofNat 67 (8 * n) := by
    rw [h0]
    exact congrArg _ (Nat.zero_add _)
  refine ⟨_, hexec, ?_, ?_, ?_, ?_, ?_, ?_⟩
  · rw [← hzero]; rfl
  · exact fun a j ha hj hl => hwords.bit ha hj fun b hab hb => hne (hl b hab hb)
  · intro j hrem hle hj
    dsimp only
    split
    · next hfill => exact hwords.unused_zero hfill hrem hle
    · next hfill =>
      exact ⟨fun hfirst => hwords.unused_carrier hfill hrem hle hj fun b hb => hne (hfirst b hb),
        fun b hb hc hl => hwords.unused_earlier hfill hrem hle hj hb hc.cellOf_eq
          fun c h1 h2 => by rw [hc.cellOf_eq]; exact hne (hl c h1 h2)⟩
  · intro hcap
    obtain ⟨hhead, hpayload⟩ := hwords.distinct hcap
    refine ⟨hhead, hpayload, fun j hrem hle hj => ?_⟩
    have hlast : 9 + splitCount n + 1 ≤ capacity s.imgW.toNat s.imgH.toNat := wordsUsed_of_rem hrem ▸ hcap
    split
    · next hfill => exact hwords.unused_zero hfill hrem hle
    · next hfill =>
      exact hwords.unused_carrier hfill hrem hle hj fun b hb =>
        cellOf_ne_below_capacity (Nat.lt_trans hb hlast) hlast hb.ne
  · exact fun a ha => hwords.all.high ha
  · exact hwords.all.others

end Sys2Proof.Machine
end

section
/-! PROOFS. The end states of an extraction (43_stream.md R172, R176, R177): the state in which its body comes to
word i, and how it goes on from there. -/

namespace Sys2Proof.Machine

variable {s : State} {n : Nat}

theorem exec_wsReadStream (hs : s.ready) (hw : s.wsState = .idle) (hb : s.bwState = .open) :
    exec .wsReadStream s = (extract s).finish fun h => h.setWidth 64 :=
  exec_effect hs ((firstUnmet_wsReadStream s).mpr ⟨hw, hb⟩)

/-! ## The header -/

/-- The header phase of an extraction whose words exist reads headerOf (43_stream.md R172). -/
theorem readHeader_ok (hr : ∀ a < 9, s.reaches a) :
    readHeaderFrom 9 0 0 s = .done (BitVec.ofNat 63 (headerOf s)) s := by
  obtain ⟨v, hv, hval⟩ := readHeaderFrom_ok 9 0 0 s fun j hj => hr _ (by omega)
  rw [hv, headerOf_eq, ← hval, BitVec.ofNat_toNat, BitVec.setWidth_eq]

/-- On an empty grid the first header word faults. -/
theorem extract_empty (hempty : s.imgW = 0 ∨ s.imgH = 0) :
    extract s = .ended (faultEntry .addrRange .ws subEmptyGrid 0 s) := by
  rw [extract, show Config.headerWords = 8 + 1 from rfl, readHeaderFrom, readWord_ended (mapAddr_empty hempty)]
  rfl

/-- The header phase faults at its first word that does not exist. -/
theorem extract_header_missing (hw : s.imgW ≠ 0) (hh : s.imgH ≠ 0) (hlt : s.imgH.toNat * s.imgH.toNat < 9) :
    extract s = .ended (faultEntry .addrRange .ws subRow (s.imgH.toNat * s.imgH.toNat) s) := by
  obtain ⟨v, hv, -⟩ := readHeaderFrom_ok (s.imgH.toNat * s.imgH.toNat) 0 0 s fun j hj =>
    reaches_of_lt hw (by omega)
  obtain ⟨m, hm⟩ : ∃ m, 9 = s.imgH.toNat * s.imgH.toNat + (m + 1) := ⟨8 - s.imgH.toNat * s.imgH.toNat, by omega⟩
  rw [extract, show Config.headerWords = _ from hm, readHeaderFrom_add, hv, Micro.andThen_done, Nat.zero_add,
    readHeaderFrom, readWord_ended (mapAddr_row hw hh le_rfl)]
  rfl

/-! ## The body -/

/-- The registers of an extraction whose header is n, before its body. -/
def State.headed (s : State) (n : Nat) : State := enterBody .hdrRead (BitVec.ofNat 63 n) n s

/-- The state of an extraction of n bytes with k payload bits written: DST, WR_ACC and XFER_IDX are d, acc and x. -/
def State.extracted (s : State) (n k : Nat) (d : List Byte) (acc : Byte) (x : BitVec 65) : State :=
  { (s.headed n).afterDraws ((s.wrPos.toNat % 8 + k) / 8) with
    dst := d
    wrAcc := acc
    wrPos := BitVec.ofNat 67 (s.wrPos.toNat + k)
    xferIdx := x }

/-- Further bits, which complete j more bytes. -/
theorem extracted_next {k k' j : Nat} {d d' : List Byte} {acc acc' : Byte} {x x' : BitVec 65}
    (h : (s.wrPos.toNat % 8 + k) / 8 + j = (s.wrPos.toNat % 8 + k') / 8) :
    { (s.extracted n k d acc x).afterDraws j with
      dst := d', wrAcc := acc', wrPos := BitVec.ofNat 67 (s.wrPos.toNat + k'), xferIdx := x' } =
      s.extracted n k' d' acc' x' := by
  rw [State.extracted.eq_def s n k', ← h, ← afterDraws_afterDraws]
  rfl

/-- An extraction body of n bytes from word i on. -/
def extractBodyAt (n i : Nat) (s : State) : Micro Unit :=
  (extractBodyFrom (splitCount n - i) i s).andThen fun _ t => extractTail (splitCount n) (splitRem n) t

theorem extract_eq (hn : headerOf s = n) (hr : ∀ a < 9, s.reaches a) : extract s =
    (extractBodyAt n 0 (s.headed n)).andThen fun _ t =>
      .done (BitVec.ofNat 63 n) { t with wsState := .bodyStreamed } := by
  have hval : (BitVec.ofNat 63 n).toNat = n :=
    (BitVec.toNat_ofNat ..).trans (Nat.mod_eq_of_lt (hn ▸ headerOf_lt s))
  rw [extract, show Config.headerWords = 9 from rfl, readHeader_ok hr, Micro.andThen_done, hn, hval]
  rfl

/-- The body goes on with word i, of which it writes the payload bits. -/
theorem extractBodyAt_step {i : Nat} (hi : 7 * i < 8 * n) (s : State) : ∃ next : Unit → State → Micro Unit,
    extractBodyAt n i s = (extractStep i (groupLen n i) s).andThen next := by
  have htotal := split_total n
  by_cases hlt : i < splitCount n
  · refine ⟨fun _ t => extractBodyAt n (i + 1) t, ?_⟩
    rw [extractBodyAt, show splitCount n - i = splitCount n - (i + 1) + 1 by omega, extractBodyFrom,
      Micro.andThen_assoc, groupLen_full hlt]
    rfl
  · obtain rfl : i = splitCount n := by have := splitRem_le n; omega
    refine ⟨fun _ t => .done () t, ?_⟩
    rw [extractBodyAt, Nat.sub_self, extractBodyFrom, Micro.andThen_done, extractTail, if_neg (by omega),
      groupLen_last]
    cases extractStep (splitCount n) (splitRem n) s <;> rfl

/-- The full words before word i, which exist and whose appends answer, are written in order. -/
theorem extractBodyFrom_extracted {i : Nat} (n : Nat) (hr : ∀ a < 9 + i, s.reaches a)
    (hacc : s.wrAcc.toNat < 2 ^ (s.wrPos.toNat % 8)) (hl : s.wrPos.toNat + 7 * i < 2 ^ 67)
    (hp : s.portsAnswer ((s.wrPos.toNat % 8 + 7 * i) / 8)) : ∃ d acc x new,
    extractBodyFrom i 0 (s.headed n) = .done () (s.extracted n (7 * i) d acc x) ∧
    Streamed s (s.extracted n (7 * i) d acc x) (7 * i) (payloadBit s) new := by
  obtain ⟨t, new, ht, ⟨happ, hcount, hpos, hlow, hbits⟩, hframe⟩ :=
    extractBodyFrom_ok i 0 (s.headed n) (fun j hj => hr _ (by omega)) hacc hl hp
  change t = s.extracted n (7 * i) t.dst t.wrAcc t.xferIdx at hframe
  refine ⟨t.dst, t.wrAcc, t.xferIdx, new, ?_, ?_⟩
  · rw [← hframe]; exact ht
  · rw [← hframe]; exact ⟨happ, hcount, hpos, hlow, hbits⟩

/-- An extraction whose words before body word i exist comes to that word with the bits of the words before
it written. -/
theorem extract_at {i : Nat} (hn : headerOf s = n) (hi : 7 * i < 8 * n) (hr : ∀ a < 9 + i, s.reaches a)
    (hacc : s.wrAcc.toNat < 2 ^ (s.wrPos.toNat % 8)) (hl : s.wrPos.toNat + 7 * i < 2 ^ 67)
    (hp : s.portsAnswer ((s.wrPos.toNat % 8 + 7 * i) / 8)) : ∃ d acc x new next,
    extract s = (extractStep i (groupLen n i) (s.extracted n (7 * i) d acc x)).andThen next ∧
    Streamed s (s.extracted n (7 * i) d acc x) (7 * i) (payloadBit s) new := by
  have htotal := split_total n
  have hcount : i ≤ splitCount n := by have := splitRem_le n; omega
  obtain ⟨d, acc, x, new, hbody, hst⟩ := extractBodyFrom_extracted n hr hacc hl hp
  obtain ⟨next, hnext⟩ := extractBodyAt_step hi (s.extracted n (7 * i) d acc x)
  refine ⟨d, acc, x, new, fun _ t => (next () t).andThen fun _ u =>
    .done (BitVec.ofNat 63 n) { u with wsState := .bodyStreamed }, ?_, hst⟩
  rw [extract_eq hn fun a ha => hr a (by omega), extractBodyAt,
    show splitCount n - 0 = i + (splitCount n - i) by omega, extractBodyFrom_add, hbody,
    Micro.andThen_done, Nat.zero_add, ← extractBodyAt, hnext, Micro.andThen_assoc]

/-- A word written after k payload bits. -/
theorem extractStep_extracted {k i len : Nat} {d : List Byte} {acc : Byte} {x : BitVec 65} {f : Nat → Bool}
    {new : List Byte} (h : Streamed s (s.extracted n k d acc x) k f new) (hr : s.reaches (9 + i)) (hlen : len ≤ 7)
    (hl : s.wrPos.toNat + (k + len) < 2 ^ 67) (hp : s.portsAnswer ((s.wrPos.toNat % 8 + (k + len)) / 8)) :
    ∃ d' acc' x' new', extractStep i len (s.extracted n k d acc x) = .done () (s.extracted n (k + len) d' acc' x') ∧
      Streamed s (s.extracted n (k + len) d' acc' x') (k + len)
        (fun j => if j < k then f j else (wordAt s (9 + i)).getLsbD (j - k)) new' := by
  have hpos := h.position
  have hsum : (s.wrPos.toNat % 8 + k) / 8 + ((s.wrPos.toNat + k) % 8 + len) / 8 =
      (s.wrPos.toNat % 8 + (k + len)) / 8 := by omega
  obtain ⟨t, new', ht, hst, hframe⟩ := extractStep_ok (s := s.extracted n k d acc x) hr hlen
    (by rw [hpos]; exact h.low) (by rw [hpos]; omega)
    (by rw [hpos]; exact portsAnswer_afterDraws (s := s) (by rwa [hsum]))
  rw [hpos, Nat.add_assoc] at hframe
  have ht' : t = s.extracted n (k + len) t.dst t.wrAcc t.xferIdx := hframe.trans (extracted_next hsum)
  refine ⟨t.dst, t.wrAcc, t.xferIdx, new ++ new', ?_, ?_⟩
  · rw [← ht']; exact ht
  · rw [← ht']; exact h.append hst

/-- The whole of an extraction whose words exist and whose appends answer. -/
theorem extract_ok (hn : headerOf s = n) (hr : ∀ a < wordsUsed n, s.reaches a)
    (hacc : s.wrAcc.toNat < 2 ^ (s.wrPos.toNat % 8)) (hl : s.wrPos.toNat + 8 * n < 2 ^ 67)
    (hp : s.portsAnswer ((s.wrPos.toNat % 8 + 8 * n) / 8)) : ∃ d acc x new,
    extract s = .done (BitVec.ofNat 63 n) { s.extracted n (8 * n) d acc x with wsState := .bodyStreamed } ∧
    Streamed s (s.extracted n (8 * n) d acc x) (8 * n) (payloadBit s) new := by
  have htotal := split_total n
  have hrem6 := splitRem_le n
  have hused := wordsUsed_eq n
  have hle : 9 + splitCount n ≤ wordsUsed n := hused ▸ Nat.le_add_right ..
  obtain ⟨d, acc, x, new, hbody, hst⟩ := extractBodyFrom_extracted n (i := splitCount n)
    (fun a ha => hr a (by omega)) hacc (by omega) (portsAnswer_mono hp (by omega))
  have hextract : extract s = (extractTail (splitCount n) (splitRem n)
      (s.extracted n (7 * splitCount n) d acc x)).andThen fun _ t =>
        .done (BitVec.ofNat 63 n) { t with wsState := .bodyStreamed } := by
    rw [extract_eq hn fun a ha => hr a (by omega), extractBodyAt, Nat.sub_zero, hbody, Micro.andThen_done]
  by_cases hrem : splitRem n = 0
  · rw [show 7 * splitCount n = 8 * n by omega] at hst hextract
    refine ⟨d, acc, x, new, ?_, hst⟩
    rw [hextract, extractTail, if_pos hrem, Micro.andThen_done]
  · obtain ⟨d', acc', x', new', hstep, hst'⟩ := extractStep_extracted hst
      (hr (9 + splitCount n) (by rw [wordsUsed_of_rem hrem]; omega)) (Nat.le_succ_of_le hrem6)
      (by rwa [htotal]) (by rwa [htotal])
    rw [htotal] at hstep hst'
    refine ⟨d', acc', x', new', ?_, hst'.ext fun j hj => ?_⟩
    · rw [hextract, extractTail, if_neg hrem, hstep, Micro.andThen_done]
    · split
      · rfl
      · next hge =>
        rw [payloadBit, show j / 7 = splitCount n by omega, show j % 7 = j - 7 * splitCount n by omega]
        rfl

/-- WS_READ_STREAM of an image whose words exist, by a writer whose appends answer. -/
theorem exec_wsReadStream_ok (hs : s.ready) (hw : s.wsState = .idle) (hb : s.bwState = .open) (hn : headerOf s = n)
    (hr : ∀ a < wordsUsed n, s.reaches a) (hacc : s.wrAcc.toNat < 2 ^ (s.wrPos.toNat % 8))
    (hl : s.wrPos.toNat + 8 * n < 2 ^ 67) (hp : s.portsAnswer n) : ∃ d acc x new,
    exec .wsReadStream s = .next (respond (BitVec.ofNat 64 n)
      { s.extracted n (8 * n) d acc x with wsState := .bodyStreamed }) ∧
    Streamed s (s.extracted n (8 * n) d acc x) (8 * n) (payloadBit s) new := by
  obtain ⟨d, acc, x, new, hextract, hst⟩ := extract_ok hn hr hacc hl (portsAnswer_mono hp (by omega))
  refine ⟨d, acc, x, new, ?_, hst⟩
  rw [exec_wsReadStream hs hw hb, hextract, Micro.finish_done, setWidth_header (hn ▸ headerOf_lt s)]

/-! ## What the writer then holds -/

/-- Bit p of what a writer appends: the bits WR_ACC held, then the payload. -/
def streamBit (s : State) (bit : Nat → Bool) (p : Nat) : Bool :=
  if p < s.wrPos.toNat % 8 then s.wrAcc.getLsbD p else bit (p - s.wrPos.toNat % 8)

/-- WR_ACC holds the bits after the last completed byte. -/
theorem Streamed.acc_getLsbD {t : State} {m : Nat} {bit : Nat → Bool} {new : List Byte} (h : Streamed s t m bit new)
    (j : Nat) : t.wrAcc.getLsbD j = (decide (j < (s.wrPos.toNat % 8 + m) % 8) &&
      streamBit s bit ((s.wrPos.toNat % 8 + m) / 8 * 8 + j)) := by
  have hcount := h.count
  by_cases hj : j < (s.wrPos.toNat % 8 + m) % 8
  · have hbit := h.bits (8 * new.length + j) (by omega)
    rw [dstBit_append, if_neg (by omega), dstBit_single, Nat.add_sub_cancel_left] at hbit
    rw [hbit, decide_eq_true hj, Bool.true_and, streamBit, hcount, Nat.mul_comm 8]
  · rw [getLsbD_of_lt h.low (by omega), decide_eq_false hj, Bool.false_and]

/-! ## Where the body faults -/

/-- A body word that does not exist: nothing of it is written. -/
theorem extractStep_missing {i len : Nat} (hw : s.imgW ≠ 0) (hh : s.imgH ≠ 0)
    (h : s.imgH.toNat * s.imgH.toNat ≤ 9 + i) : extractStep i len s =
      .ended (faultEntry .addrRange .ws subRow (9 + i) { s with xferIdx := BitVec.ofNat 65 i }) := by
  rw [extractStep, show Config.bodyBase + i = 9 + i from rfl,
    readWord_ended (mapAddr_row (s := { s with xferIdx := BitVec.ofNat 65 i }) hw hh h)]
  rfl

/-- A body word whose l-th bit completes a byte that cannot be appended (41_bit_writer.md R131). -/
theorem extractStep_append_fails {i len l : Nat} (hr : s.reaches (9 + i)) (hl1 : 1 ≤ l) (hll : l ≤ len)
    (hacc : s.wrAcc.toNat < 2 ^ (s.wrPos.toNat % 8)) (hl : s.wrPos.toNat + l < 2 ^ 67)
    (hfull : s.wrPos.toNat % 8 + l = 8) (hf : s.ioAnswer 0 = false) : ∃ d acc,
    extractStep i len s = .ended (faultEntry .ioError .bw subDstWrite (s.wrPos.toNat + l)
      { s.afterDraws 1 with
        dst := d, wrAcc := acc, wrPos := BitVec.ofNat 67 (s.wrPos.toNat + l), xferIdx := BitVec.ofNat 65 i }) ∧
    ∀ j < 8, acc.getLsbD j = if j < s.wrPos.toNat % 8 then s.wrAcc.getLsbD j
      else (wordAt s (9 + i)).getLsbD (j - s.wrPos.toNat % 8) := by
  obtain ⟨t, ht, hbits⟩ := writeBits_fails (s := { s with xferIdx := BitVec.ofNat 65 i })
    ((wordAt s (9 + i)).setWidth 8) (m := 0) hl1 hll hacc hl hfull (fun _ hk => absurd hk (Nat.not_lt_zero _)) hf
  refine ⟨t.dst, t.wrAcc, ?_, fun j hj => ?_⟩
  · rw [extractStep, show Config.bodyBase + i = 9 + i from rfl,
      readWord_ok (s := { s with xferIdx := BitVec.ofNat 65 i }) hr, Micro.andThen_done]
    exact ht
  · rw [hbits j hj, Nat.mul_zero, Nat.zero_add, BitVec.getLsbD_setWidth, decide_eq_true (by omega), Bool.true_and]

/-- The m-th append (from 0) of an extraction fails, in the word that completes its byte (43_stream.md R177). -/
theorem extract_append_fails {m k : Nat} (hn : headerOf s = n) (hk : s.wrPos.toNat % 8 + k = 8 * (m + 1))
    (hk8 : k ≤ 8 * n) (hr : ∀ a ≤ 9 + (k - 1) / 7, s.reaches a) (hacc : s.wrAcc.toNat < 2 ^ (s.wrPos.toNat % 8))
    (hl : s.wrPos.toNat + k < 2 ^ 67) (hp : s.portsAnswer m) (hf : s.ioAnswer m = false) : ∃ d acc x,
    extract s = .ended (faultEntry .ioError .bw subDstWrite (s.wrPos.toNat + k) (s.extracted n k d acc x)) ∧
    ∀ j < 8, acc.getLsbD j = streamBit s (payloadBit s) (8 * m + j) := by
  obtain ⟨l, hl1, hl7, hkl⟩ : ∃ l, 1 ≤ l ∧ l ≤ 7 ∧ k = 7 * ((k - 1) / 7) + l :=
    ⟨k - 7 * ((k - 1) / 7), by omega, by omega, by omega⟩
  generalize (k - 1) / 7 = i at hr hkl
  have hdraws : (s.wrPos.toNat % 8 + 7 * i) / 8 = m := by omega
  obtain ⟨d, acc, x, new, next, hextract, hst⟩ := extract_at (i := i) hn (by omega)
    (fun a ha => hr a (by omega)) hacc (by omega) (by rwa [hdraws])
  have hpos := hst.position
  obtain ⟨d', acc', hstep, hbits⟩ := extractStep_append_fails (s := s.extracted n (7 * i) d acc x) (i := i) (l := l)
    (len := groupLen n i) (hr (9 + i) le_rfl) hl1 (by rw [groupLen]; omega)
    (by rw [hpos]; exact hst.low) (by rw [hpos]; omega) (by rw [hpos]; omega)
    ((afterDraws_ioAnswer s _ 0).trans (by rwa [hdraws]))
  rw [hpos, Nat.add_assoc, ← hkl, extracted_next (j := 1) (by omega)] at hstep
  refine ⟨d', acc', BitVec.ofNat 65 i, by rw [hextract, hstep, Micro.andThen_ended], fun j hj => ?_⟩
  rw [hbits j hj, hpos]
  split
  · next hlow =>
    rw [hst.acc_getLsbD, decide_eq_true (by omega), Bool.true_and, hdraws, Nat.mul_comm m]
  · next hge =>
    rw [streamBit, if_neg (by omega), payloadBit, show (8 * m + j - s.wrPos.toNat % 8) / 7 = i by omega,
      show (8 * m + j - s.wrPos.toNat % 8) % 7 = j - (s.wrPos.toNat + 7 * i) % 8 by omega]
    rfl

/-- Settles O47: the whole body; a header word or a body word that does not exist; and an append that fails in the
word that completes the byte. -/
theorem extractEndState : Obligations.ExtractEndState := by
  intro s hs hw hb hacc
  dsimp only
  have hlt63 := headerOf_lt s
  generalize hn : headerOf s = n at *
  have hexec := exec_wsReadStream hs hw hb
  refine ⟨fun hwidth hreach hl hp => ?_, fun hempty => ?_, fun hwidth hheight hlt => ?_,
    fun hwidth hge hlt hl hp => ?_, fun m hwidth hge hk hword hl hp hf => ?_⟩
  · have hdraws : (s.wrPos.toNat % 8 + 8 * n) / 8 = n := by omega
    obtain ⟨d, acc, x, new, hok, hst⟩ := exec_wsReadStream_ok hs hw hb hn
      (fun a ha => reaches_of_lt hwidth (Nat.lt_of_lt_of_le ha hreach)) hacc hl hp
    have hd : d = s.dst ++ new := hst.appended
    have hlow := hst.low
    rw [show (s.wrPos.toNat + 8 * n) % 8 = s.wrPos.toNat % 8 by omega] at hlow
    refine ⟨_, new, hok, ?_, hst.count.trans hdraws, hlt63, hlow, hst.bits⟩
    rw [hd, State.extracted, hdraws]
    rfl
  · rw [hexec, extract_empty hempty]; rfl
  · rw [hexec, extract_header_missing hwidth hheight hlt]; rfl
  · obtain ⟨i, hi⟩ := Nat.exists_eq_add_of_le hge
    rw [hi, Nat.add_sub_cancel_left] at hl hp ⊢
    have hlt' : 9 + i < 9 + (8 * n + 6) / 7 := hi ▸ hlt
    obtain ⟨d, acc, x, new, next, hextract, hst⟩ := extract_at (i := i) hn (by omega)
      (fun a ha => reaches_of_lt hwidth (by omega)) hacc hl hp
    rw [hexec, hextract, extractStep_missing (s := s.extracted n (7 * i) d acc x) hwidth
      (imgH_ne_zero (by decide) hge) hi.le]
    exact ⟨_, rfl, rfl, fun j _ => hst.acc_getLsbD j⟩
  · have hk8 : s.wrPos.toNat % 8 + (8 * (m + 1) - s.wrPos.toNat % 8) = 8 * (m + 1) := by omega
    obtain ⟨d, acc, x, hextract, hbits⟩ := extract_append_fails hn hk8 hk
      (fun a ha => reaches_of_lt hwidth (by omega)) hacc hl hp hf
    rw [hexec, hextract]
    refine ⟨_, rfl, ?_, hbits⟩
    rw [State.extracted, hk8, Nat.mul_div_cancel_left _ (by decide)]
    rfl

end Sys2Proof.Machine
end

section
/-! PROOFS. The round trip (43_stream.md R180): an embed, then an extraction of the image it left. -/

namespace Sys2Proof.Machine

variable {s u : State} {n : Nat}

/-- Words that hold the groups of n hold the header n. -/
theorem headerOf_of_groups (hn : n < 2 ^ 63) (h : ∀ i < 9, (wordAt u i).toNat = n / 2 ^ (7 * i) % 2 ^ 7) :
    headerOf u = n := by
  have hval : (BitVec.ofNat 63 n).toNat = n := (BitVec.toNat_ofNat ..).trans (Nat.mod_eq_of_lt hn)
  have hword : ∀ i < 9, wordAt u i = hdrWord (BitVec.ofNat 63 n) i := fun i hi =>
    BitVec.eq_of_toNat_eq (by rw [h i hi, hdrWord_toNat, hval])
  rw [headerOf_eq, header_of_words hword, hval]

/-- A destination with the bits of the source has its bytes. -/
theorem getD_eq_read_of_bits {bytes : List Byte} (h : ∀ p < 8 * n, dstBit bytes p = srcBit s p) :
    ∀ i < n, bytes.getD i 0 = Memory.read s.src i := by
  intro i hi
  apply BitVec.eq_of_getLsbD_eq
  intro j hj
  have hbit := h (8 * i + j) (by omega)
  rwa [dstBit, srcBit, show (8 * i + j) / 8 = i by omega, show (8 * i + j) % 8 = j by omega] at hbit

/-- An image that carries the header n and the payload bits of n source bytes, extracted by a fresh writer and
finalized, gives back those bytes. -/
theorem extract_finish_fresh (hu : u.ready) (hw : u.wsState = .idle) (hb : u.bwState = .open) (h0 : u.wrPos = 0)
    (hacc : u.wrAcc = 0) (hdst : u.dst = []) (hn : n < 2 ^ 63) (hheader : headerOf u = n)
    (hr : ∀ a < wordsUsed n, u.reaches a) (hbits : ∀ j < 8 * n, payloadBit u j = srcBit s j) (hp : u.portsAnswer n) :
    ∃ v w, exec .wsReadStream u = .next v ∧ v.rspCode = .ok ∧ v.result = BitVec.ofNat 64 n ∧
      exec .bwFinish v = .next w ∧ w.rspCode = .ok ∧ w.dst.length = n ∧
      ∀ i < n, w.dst.getD i 0 = Memory.read s.src i := by
  have hz : u.wrPos.toNat = 0 := by rw [h0]; rfl
  obtain ⟨d, acc, x, new, hexec, hst⟩ := exec_wsReadStream_ok hu hw hb hheader hr (by rw [hacc, hz]; decide)
    (by omega) hp
  have hd : d = new := by have := hst.appended; rwa [hdst, List.nil_append] at this
  have hpos : (u.extracted n (8 * n) d acc x).wrPos.toNat = 8 * n := by rw [hst.position, hz, Nat.zero_add]
  have hlen : new.length = n := by rw [hst.count, hz]; omega
  obtain ⟨hfinish, -, -⟩ := bwFinishFlushesOrFailsForGood
    (respond (BitVec.ofNat 64 n) { u.extracted n (8 * n) d acc x with wsState := .bodyStreamed }) hu.1 hb
    (Nat.lt_of_le_of_lt hpos.le (by omega))
  refine ⟨_, _, hexec, rfl, rfl, hfinish ((congrArg (· % 8) hpos).trans (Nat.mul_mod_right 8 n)), rfl, hd ▸ hlen, ?_⟩
  refine getD_eq_read_of_bits fun p hlt => ?_
  have hbit := hst.bits p (by omega)
  rw [dstBit_append, if_pos (by omega), hz, if_neg (Nat.not_lt_zero _), Nat.zero_mod, Nat.sub_zero,
    hbits p hlt] at hbit
  exact hd ▸ hbit

/-- Settles O48: below the capacity no two words share a pixel, so the image carries the header n and the source
bits. -/
theorem embedThenExtractRoundTrip : Obligations.EmbedThenExtractRoundTrip := by
  intro s hs hw hb h0 hn hroom hp n
  have hcap : wordsUsed n ≤ capacity s.imgW.toNat s.imgH.toNat := by
    show 9 + (8 * s.srcSize.toNat + 6) / 7 ≤ _
    omega
  have hr : ∀ a < wordsUsed n, s.reaches a := fun a ha => reaches_below_capacity (Nat.lt_of_lt_of_le ha hcap)
  obtain ⟨q, p, x, hexec, hwords⟩ := exec_wsWriteStream_ok hs hw hb rfl hn hr h0 hp
  obtain ⟨hhead, hpayload⟩ := hwords.distinct hcap
  refine ⟨_, hexec, rfl, rfl, fun u hu huw hub hu0 hacc hdst hwidth hheight hsame hup => ?_⟩
  have hused : wordsUsed n = 9 + (8 * n + 6) / 7 := rfl
  have hheader : headerOf u = n := headerOf_of_groups hn fun i hi => by
    rw [hsame i (by omega)]; exact hhead i hi
  have hbits : ∀ j < 8 * n, payloadBit u j = srcBit s j := fun j hj => by
    rw [payloadBit, hsame _ (by show 9 + j / 7 < _; omega)]; exact hpayload j hj
  have htrip := extract_finish_fresh hu huw hub hu0 hacc hdst hn hheader
    (fun a ha => (reaches_congr hwidth hheight a).mpr (hr a ha)) hbits hup
  rwa [BitVec.ofNat_toNat, BitVec.setWidth_eq] at htrip

end Sys2Proof.Machine
end

section
/-! PROOFS. Faults and the order of checks (60_exceptions.md): the step of a transaction, fault entry, and the
commands that are refused, halted or in the wrong unit state. -/

namespace Sys2Proof.Machine

variable {s t : State} {cmd : CmdWord} {arg : ArgWord} {rest : List HostMove}

/-! ## The step of a transaction (60_exceptions.md R205) -/

theorem step_command_legal {i : Instr} (hp : s.port = .command cmd arg :: rest) (hd : decode cmd arg = .ok i) :
    step s = exec i (latch cmd arg { s with port := rest }) := by
  simp only [step, takeMove, hp, hostMove, runCommand, hd]

theorem step_command_illegal {e : IllegalCmd} (hp : s.port = .command cmd arg :: rest)
    (hd : decode cmd arg = .error e) :
    step s = .next (illegalCommand (latch cmd arg { s with port := rest })) := by
  simp only [step, takeMove, hp, hostMove, runCommand, hd]

/-- Settles O8: the step decodes the transaction that it takes. -/
theorem stepRunsTheDecodedCommand : Obligations.StepRunsTheDecodedCommand :=
  fun _ _ _ _ _ hp hd => step_command_legal hp hd

/-! ## Fault entry (60_exceptions.md R206) -/

theorem faultEntry_first (code : RspCode) (unit : FltUnit) (sub : BitVec 2) (info : Nat)
    (hv : s.fltValid = false) : faultEntry code unit sub info s =
      { s with
        fltValid := true
        fltCode := code
        fltUnit := unit
        fltSub := sub
        fltOpc := s.cmd.extractLsb' 0 8
        fltInfo := BitVec.ofNat 67 info
        rspCode := code
        result := 0 } := by
  simp [faultEntry, hv]

theorem faultEntry_later (code : RspCode) (unit : FltUnit) (sub : BitVec 2) (info : Nat)
    (hv : s.fltValid = true) : faultEntry code unit sub info s = { s with rspCode := code, result := 0 } := by
  simp [faultEntry, hv]

/-- Settles O13: the two cases of the record; a raised fault has ended the command, so nothing runs after it. -/
theorem faultEntryKeepsTheFirstFault : Obligations.FaultEntryKeepsTheFirstFault :=
  fun code unit sub info _ =>
    ⟨faultEntry_first code unit sub info, faultEntry_later code unit sub info, fun _ _ => rfl⟩

/-! ## An illegal CMD (60_exceptions.md R205, steps 1 and 2) -/

theorem illegalCommand_halted (hf : s.fatal = true) : illegalCommand s = answerOnly .halted s := by
  rw [illegalCommand, if_pos hf]

theorem illegalCommand_refused (hf : s.fatal = false) (hv : s.fltValid = true) :
    illegalCommand s = answerOnly .refused s := by
  rw [illegalCommand, if_neg (by simp [hf]), if_pos hv]

theorem illegalCommand_recorded (hf : s.fatal = false) (hv : s.fltValid = false) :
    illegalCommand s = faultEntry .illegalCmd .sequencer 0 s.cmd.toNat s := by
  rw [illegalCommand, if_neg (by simp [hf]), if_neg (by simp [hv])]

/-- Settles O9: the three answers, the last one the first fault of the record. -/
theorem illegalCommandAnswers : Obligations.IllegalCommandAnswers := by
  intro s cmd arg rest e hp hd u
  have hstep : step s = .next (illegalCommand u) := step_command_illegal hp hd
  rw [hstep]
  refine ⟨fun hf => ?_, fun hf hv => ?_, fun hf hv => ?_⟩
  · rw [illegalCommand_halted (s := u) hf]; rfl
  · rw [illegalCommand_refused (s := u) hf hv]; rfl
  · rw [illegalCommand_recorded (s := u) hf hv, faultEntry_first (s := u) _ _ _ _ hv, BitVec.ofNat_toNat]

/-! ## Refused and halted commands (60_exceptions.md R204, R208) -/

/-- A command that is turned away with REFUSED or HALTED has only answered. -/
theorem Declined.answerOnly (h : Declined s t) (hc : t.rspCode ∈ [.refused, .halted]) :
    t = answerOnly t.rspCode s := by
  cases h with
  | halted => rfl
  | refused => rfl
  | stateError => simp at hc

/-- So has an illegal CMD. -/
theorem illegalCommand_answerOnly (hc : (illegalCommand s).rspCode ∈ [.refused, .halted]) :
    illegalCommand s = answerOnly (illegalCommand s).rspCode s := by
  cases hf : s.fatal with
  | true => rw [illegalCommand_halted hf]; rfl
  | false =>
    cases hv : s.fltValid with
    | true => rw [illegalCommand_refused hf hv]; rfl
    | false => simp [illegalCommand_recorded hf hv] at hc

/-- A command that ends OK or in a micro-step's fault answers neither REFUSED nor HALTED. -/
theorem Ends.rspCode_notMem {R : State → State → Prop} (h : Ends R s t) : t.rspCode ∉ [.refused, .halted] := by
  obtain ⟨v, -⟩ | ⟨code, unit, sub, info, hc, -⟩ := h
  · simp
  · obtain ⟨-, hrefused, hhalted, -⟩ := microFaults_ne hc
    simp [hrefused, hhalted]

/-- Nor does any command whose checks have passed. -/
theorem effect_rspCode_notMem {i : Instr} (h : effect i s = .next t) : t.rspCode ∉ [.refused, .halted] := by
  by_cases hi : i = .bwFinish
  · subst hi
    obtain ⟨v, u, -, -, rfl⟩ | ⟨info, u, -, -, rfl⟩ := effect_bwFinish h <;> simp
  · exact (effect_keeps hi h).rspCode_notMem

theorem exec_answerOnly {i : Instr} (h : exec i s = .next t) (hc : t.rspCode ∈ [.refused, .halted]) :
    t = answerOnly t.rspCode s := by
  obtain hd | ⟨-, he⟩ := exec_cases h
  · exact hd.answerOnly hc
  · exact absurd hc (effect_rspCode_notMem he)

/-- Settles O14: only the common checks and the check of an illegal CMD answer REFUSED or HALTED, and those
answers do nothing else. -/
theorem refusedAndHaltedHaveNoEffect : Obligations.RefusedAndHaltedHaveNoEffect := by
  intro s t cmd arg rest hp hs hc
  suffices t = answerOnly t.rspCode (latch cmd arg { s with port := rest }) from this
  cases hd : decode cmd arg with
  | ok i => exact exec_answerOnly ((step_command_legal hp hd).symm.trans hs) hc
  | error e =>
    cases (step_command_illegal hp hd).symm.trans hs
    exact illegalCommand_answerOnly hc

/-- The three cleanup commands (60_exceptions.md R208). -/
theorem isCleanup_op_iff (i : Instr) :
    isCleanup i.op = true ↔ i = .bwFinish ∨ i = .brClose ∨ i = .wsIntoInner := by
  cases i <;> simp [Instr.op, isCleanup]

/-- Settles O16: step 3 of R205, which spares the three cleanup commands only. -/
theorem recordedFaultRefusesOtherCommands : Obligations.RecordedFaultRefusesOtherCommands := by
  intro i s hf hv hfinish hclose hinner
  have hc : isCleanup i.op = false := by simp [← Bool.not_eq_true, isCleanup_op_iff, hfinish, hclose, hinner]
  rw [exec_eq_withChecks]
  exact withChecks_refused _ hf hv hc

/-! ## A cleanup command in the wrong unit state (60_exceptions.md R208) -/

/-- After a recorded fault, a cleanup command whose unit is in the wrong state answers STATE_ERROR and no more. -/
theorem exec_cleanup_stateError {i : Instr} (hf : s.fatal = false) (hv : s.fltValid = true)
    (hc : isCleanup i.op = true) (r : Requirement) (hr : requirements i.op = [r]) (hm : r.met s = false) :
    exec i s = .next { s with rspCode := .stateError, result := 0 } := by
  rw [exec_eq_withChecks, withChecks_stateError _ hf (.inr hc) (firstUnmet_single s hr hm),
    faultEntry_later _ _ _ _ hv]

/-- Settles O18: the requirement of each cleanup command. -/
theorem cleanupInWrongStateKeepsTheRecord : Obligations.CleanupInWrongStateKeepsTheRecord := by
  intro s hf hv
  refine ⟨fun hb => ?_, fun hb => ?_, fun hw => ?_⟩
  · exact exec_cleanup_stateError hf hv rfl (.bw .open) rfl (by simp [Requirement.met, hb])
  · exact exec_cleanup_stateError hf hv rfl (.br .open) rfl (by simp [Requirement.met, hb])
  · exact exec_cleanup_stateError hf hv rfl .wsBound rfl (by simp [Requirement.met, hw])

end Sys2Proof.Machine
end

section
/-! PROOFS. The host's moves on the contents of the ports (70_reset_and_hazards.md R232, R236): waiting, and an image,
a source or a destination handed over. -/

namespace Sys2Proof.Machine

variable {s : State} {rest : List HostMove}

/-- The cell addresses of an image are the channel bytes of its pixels (log 11). -/
theorem cellInImage_iff {w h : BitVec 32} {a : Nat} : cellInImage w h a = true ↔
    ∃ x y c, x < w.toNat ∧ y < h.toNat ∧ c < 3 ∧ a = pixelAddr x y + c := by
  have hw := w.isLt
  simp only [cellInImage, Bool.and_eq_true, decide_eq_true_eq, pixelAddr]
  constructor
  · rintro ⟨hx, hy⟩
    exact ⟨a / 3 % 2 ^ 32, a / 3 / 2 ^ 32, a % 3, hx, hy, by omega, by omega⟩
  · rintro ⟨x, y, c, hx, hy, hc, rfl⟩
    have hcell : (3 * (y * 2 ^ 32 + x) + c) / 3 = y * 2 ^ 32 + x := by omega
    rw [hcell]
    exact ⟨by omega, by omega⟩

/-- An image reads as the last cell listed at each of its channel bytes. -/
theorem read_imageCells_inside {w h : BitVec 32} (cells : List Host.Cell) {x y c : Nat} (hx : x < w.toNat)
    (hy : y < h.toNat) (hc : c < 3) : Memory.read (Memory.ofCells (cellInImage w h) cells) (pixelAddr x y + c) =
      lastListed cells (pixelAddr x y + c) := by
  rw [Memory.read_ofCells, if_pos (cellInImage_iff.mpr ⟨x, y, c, hx, hy, hc, rfl⟩)]

/-- It reads 0 at an address that belongs to none of its pixels. -/
theorem read_imageCells_outside {w h : BitVec 32} (cells : List Host.Cell) {a : Nat}
    (ha : ∀ x y, x < w.toNat → y < h.toNat → a < pixelAddr x y ∨ pixelAddr x y + 3 ≤ a) :
    Memory.read (Memory.ofCells (cellInImage w h) cells) a = 0 := by
  rw [Memory.read_ofCells, if_neg]
  intro hin
  obtain ⟨x, y, c, hx, hy, hc, rfl⟩ := cellInImage_iff.mp hin
  have := ha x y hx hy
  omega

/-- A source reads as the last cell listed at each byte below its size, and 0 elsewhere. -/
theorem read_sourceCells (size : BitVec 64) (cells : List Host.Cell) (i : Nat) :
    Memory.read (Memory.ofCells (fun a => a < size.toNat) cells) i =
      if i < size.toNat then lastListed cells i else 0 := by
  simp only [Memory.read_ofCells, decide_eq_true_eq]

/-- With a move to come the step performs it (log 1). -/
theorem step_move {m : HostMove} (hp : s.port = m :: rest) : step s = hostMove m { s with port := rest } := by
  simp only [step, takeMove, hp]

/-- Settles O11: each move is guarded by the state of the unit that owns the port, and the contents are the cells
listed for it. -/
theorem hostMovesRespectOwnership : Obligations.HostMovesRespectOwnership := by
  refine ⟨fun s hp => by simp only [step, takeMove, hp], fun s rest w h cells hp => ?_,
    fun s rest size cells hp => ?_, fun s rest bytes hp => ?_⟩ <;> rw [step_move hp]
  · refine ⟨fun hbound => if_neg hbound, fun hunbound => ⟨_, if_pos hunbound, rfl, Memory.ofCells_wf _ _, ?_, ?_⟩⟩
    · exact fun x y c hx hy hc => read_imageCells_inside cells hx hy hc
    · exact fun a ha => read_imageCells_outside cells ha
  · refine ⟨fun hopen => if_neg (by simp [hopen]), fun hclosed => ⟨_, if_pos hclosed, rfl, ?_, ?_⟩⟩
    · exact Memory.ofCells_wf (fun a => a < size.toNat) cells
    · exact read_sourceCells size cells
  · exact ⟨fun hopen => if_neg (by simp [hopen]), fun hclosed => if_pos hclosed⟩

end Sys2Proof.Machine
end

section
/-! PROOFS. Every command answers (70_reset_and_hazards.md R246) while the bits it may write stay below position 2^67
(93_implementation_defined.md U6). -/

namespace Sys2Proof.Machine

variable {s : State} {α β : Type}

/-! ## Reading and word access never refuse -/

/-- A sequence of micro-operations that answer wherever they start. -/
theorem Micro.Answers.seq {m : Micro α} {f : α → State → Micro β} (hm : m.Answers)
    (hf : ∀ a t, (f a t).Answers) : (m.andThen f).Answers := by
  cases m with
  | done a t => exact hf a t
  | ended t => trivial
  | refused r => exact hm.elim

theorem readBit_answers (s : State) : (readBit s).Answers := by
  rcases readBit_cases s with ⟨-, -, he⟩ | ⟨-, he⟩ | ⟨-, -, he⟩ <;> rw [he] <;> trivial

theorem mapAddr_answers (a : Nat) (s : State) : (mapAddr a s).Answers := by
  rcases mapAddr_cases a s with ⟨-, he⟩ | ⟨-, sub, he⟩ <;> rw [he] <;> trivial

theorem readWord_answers (a : Nat) (s : State) : (readWord a s).Answers :=
  (mapAddr_answers a s).seq fun _ _ => trivial

theorem writeWord_answers (a : Nat) (w : PixWord) (s : State) : (writeWord a w s).Answers :=
  (mapAddr_answers a s).seq fun _ _ => trivial

theorem finalWrite_answers (a : Nat) (w : PixWord) (rem : Nat) (s : State) : (finalWrite a w rem s).Answers := by
  unfold finalWrite
  split
  · exact writeWord_answers a w s
  · exact (mapAddr_answers a s).seq fun _ _ => trivial

/-! ## An embed never refuses (43_stream.md R173) -/

theorem writeHeaderFrom_answers : ∀ (n i : Nat) (h : BitVec 63) (s : State), (writeHeaderFrom n i h s).Answers
  | 0, _, _, _ => trivial
  | n + 1, i, h, s => (writeWord_answers i _ s).seq fun _ t => writeHeaderFrom_answers n (i + 1) h t

theorem embedBodyFrom_answers : ∀ (n idx : Nat) (s : State), (embedBodyFrom n idx s).Answers
  | 0, _, _ => trivial
  | n + 1, idx, _ =>
    ((readBitsFrom_answers _ 0 0 _).seq fun _ t => writeWord_answers _ _ t).seq
      fun _ t => embedBodyFrom_answers n (idx + 1) t

theorem embedTail_answers (count rem : Nat) (s : State) : (embedTail count rem s).Answers := by
  unfold embedTail
  split
  · trivial
  · exact (readBitsFrom_answers rem 0 0 _).seq fun _ t => finalWrite_answers _ _ rem t

theorem embed_answers (h : BitVec 63) (n : Nat) (s : State) : (embed h n s).Answers :=
  (writeHeaderFrom_answers _ 0 h s).seq fun _ _ => (embedBodyFrom_answers _ 0 _).seq fun _ _ =>
    (embedTail_answers _ _ _).seq fun _ _ => trivial

/-! ## Writing answers while there is room below position 2^67 -/

/-- The destination takes n more bits before a position would reach 2^67 (93_implementation_defined.md U6). -/
def State.Room (n : Nat) (s : State) : Prop := s.wrPos.toNat + n < 2 ^ 67

theorem State.Room.mono {m n : Nat} (h : s.Room n) (hm : m ≤ n) : s.Room m :=
  Nat.lt_of_le_of_lt (Nat.add_le_add_left hm _) h

/-- The micro-operation does not refuse, and leaves room for n more bits where it completes. -/
structure Micro.Leaves (n : Nat) (m : Micro α) : Prop where
  answers : m.Answers
  room : m.Post (fun _ t => t.Room n) fun _ => True

theorem Micro.Leaves.andThen {m : Micro α} {f : α → State → Micro β} {k n : Nat} (h : m.Leaves k)
    (hf : ∀ a t, t.Room k → (f a t).Leaves n) : (m.andThen f).Leaves n :=
  ⟨h.answers.andThen h.room fun a t ht => (hf a t ht).answers, h.room.andThen fun a t ht => (hf a t ht).room⟩

theorem Micro.Leaves.done {n : Nat} (a : α) (h : s.Room n) : (Micro.done a s).Leaves n := ⟨trivial, h⟩

variable {n : Nat}

/-- A WriteBit takes the room of one bit. -/
theorem writeBit_leaves (bit : Bool) (h : s.Room (n + 1)) : (writeBit bit s).Leaves n := by
  unfold State.Room at h
  have hpos := accumulate_pos (s := s) bit (by omega)
  have hroom : (accumulate bit s).Room n := by
    unfold State.Room
    omega
  rcases writeBit_cases bit s with ⟨hlast, -⟩ | ⟨-, -, he⟩ | ⟨-, -, -, he⟩ | ⟨-, -, -, he⟩
  · omega
  · rw [he]; exact .done () hroom
  · rw [he]; exact .done () hroom
  · rw [he]; exact ⟨trivial, trivial⟩

theorem writeBitsFrom_leaves : ∀ (len k : Nat) (byte : Byte) (s : State), s.Room (n + len) →
    (writeBitsFrom len k byte s).Leaves n
  | 0, _, _, _, h => .done () h
  | len + 1, k, byte, _, h =>
    (writeBit_leaves (n := n + len) _ h).andThen fun _ t ht => writeBitsFrom_leaves len (k + 1) byte t ht

/-- Finalization answers in every state (41_bit_writer.md R136). -/
theorem finalize_answers (s : State) : (finalize s).Answers := by
  refine Micro.Answers.seq ?_ fun _ _ => trivial
  split
  · trivial
  · unfold finishFlush
    split <;> trivial

/-! ## An extraction answers while there is room for its payload (43_stream.md R176) -/

theorem readWord_leaves (a : Nat) (h : s.Room n) : (readWord a s).Leaves n :=
  ⟨readWord_answers a s, (readWord_eq a s).mono (fun _ _ hu => hu ▸ h) fun _ _ => trivial⟩

theorem readHeaderFrom_leaves : ∀ (k i : Nat) (v : BitVec 63) (s : State), s.Room n →
    (readHeaderFrom k i v s).Leaves n
  | 0, _, v, _, h => .done v h
  | k + 1, i, _, _, h => (readWord_leaves i h).andThen fun _ t ht => readHeaderFrom_leaves k (i + 1) _ t ht

theorem extractStep_leaves (idx len : Nat) (h : s.Room (n + len)) : (extractStep idx len s).Leaves n :=
  (readWord_leaves (s := { s with xferIdx := BitVec.ofNat 65 idx }) _ h).andThen
    fun w t ht => writeBitsFrom_leaves len 0 (w.setWidth 8) t ht

theorem extractBodyFrom_leaves : ∀ (k idx : Nat) (s : State), s.Room (n + 7 * k) →
    (extractBodyFrom k idx s).Leaves n
  | 0, _, _, h => .done () h
  | k + 1, idx, _, h =>
    (extractStep_leaves (n := n + 7 * k) idx 7 h).andThen fun _ t ht => extractBodyFrom_leaves k (idx + 1) t ht

theorem extractTail_leaves (count rem : Nat) (h : s.Room (n + rem)) : (extractTail count rem s).Leaves n := by
  unfold extractTail
  split
  · exact .done () (h.mono (Nat.le_add_right n rem))
  · exact extractStep_leaves count rem h

/-- The body of an extraction of `bytes` bytes takes the room of its 8·bytes bits. -/
theorem extractBody_leaves (bytes : Nat) (h : s.Room (n + 8 * bytes)) : (extractBody bytes s).Leaves n := by
  have htotal := split_total bytes
  exact (extractBodyFrom_leaves (n := n + splitRem bytes) _ 0 s (h.mono (by omega))).andThen
    fun _ _ ht => extractTail_leaves _ _ ht

/-- A header is below 2^63, so no payload is longer than 2^66 - 8 bits (43_stream.md R172). -/
theorem extract_answers (h : s.Room (2 ^ 66 - 8)) : (extract s).Answers := by
  have hheader : (readHeaderFrom Config.headerWords 0 0 s).Leaves (2 ^ 66 - 8) := readHeaderFrom_leaves _ 0 0 s h
  refine hheader.answers.andThen hheader.room fun v t ht => ?_
  have hpayload : (enterBody .hdrRead v v.toNat t).Room (0 + 8 * v.toNat) := by
    have := v.isLt
    exact ht.mono (by omega)
  exact (extractBody_leaves v.toNat hpayload).answers.seq fun _ _ => trivial

/-! ## The commands -/

/-- The checks turn a command away with an answer or let it through. -/
theorem withChecks_answers {op : Op} {body : Result} (h : ∃ t, body = .next t) :
    ∃ t, withChecks op s body = .next t := by
  rcases withChecks_cases (op := op) (s := s) (body := body) rfl with
    ⟨-, he⟩ | ⟨-, -, -, he⟩ | ⟨-, -, r, -, he⟩ | ⟨-, -, -, he⟩
  · exact ⟨_, he⟩
  · exact ⟨_, he⟩
  · exact ⟨_, he⟩
  · rw [he]; exact h

/-- A group of bits written, which has at most 15 bits whatever LEN says (30_encoding.md R94). -/
theorem writeBits_answers (byte : Byte) (len : BitVec 4) (h : s.Room 15) : (writeBits byte len.toNat s).Answers :=
  have := len.isLt
  (writeBitsFrom_leaves (n := 0) len.toNat 0 byte s (h.mono (by omega))).answers

/-- A command's own effect answers: only writing and the RESULT of BW_FINISH depend on WR_POS. -/
theorem effect_answers (i : Instr) (h : s.wrPos.toNat ≤ 2 ^ 66) : ∃ t, effect i s = .next t := by
  have hroom : s.Room (2 ^ 66 - 8) := by
    unfold State.Room
    omega
  cases i with
  | brOpen | brSize | brClose | bwOpen | wsBind | wsIntoInner => exact ⟨_, rfl⟩
  | brReadBit => exact (readBit_answers s).finish _
  | brReadBits len =>
    simp only [effect]
    split
    · exact (readBitsFrom_answers len.toNat 0 0 s).finish _
    · exact ⟨_, rfl⟩
  | bwWriteBit bit => exact (writeBit_leaves (n := 0) bit (hroom.mono (by omega))).answers.finish _
  | bwWriteBits byte len =>
    simp only [effect]
    split
    · exact (writeBits_answers byte len (hroom.mono (by omega))).finish _
    · exact ⟨_, rfl⟩
  | bwFinish =>
    have hbytes : bytesWritten s.wrPos < 2 ^ 64 := by
      unfold bytesWritten
      omega
    simp only [effect, if_pos hbytes]
    exact (finalize_answers s).finish _
  | wsReadWord addr => exact (readWord_answers _ s).finish _
  | wsWriteWord addr word => exact (writeWord_answers _ word s).finish _
  | wsWriteStream =>
    simp only [effect]
    split
    · exact ⟨_, rfl⟩
    · exact (embed_answers _ _ s).finish _
  | wsReadStream => exact (extract_answers hroom).finish _

/-- Settles O21: the checks answer, and so does the effect behind them. -/
theorem everyCommandAnswers : Obligations.EveryCommandAnswers := by
  intro i s h
  rw [exec_eq_withChecks]
  exact withChecks_answers (effect_answers i h)

end Sys2Proof.Machine
end
